-- ==== Sys2Proof/Word.lean ====
section
/-! DEFINITION. The widths of UBK-DA1's data and their plainest arithmetic (00_scope.md R10, R11). -/

namespace Sys2Proof

/-- A byte of a byte memory (10_state.md R50, R51). -/
abbrev Byte := BitVec 8

/-- A 32-bit register, command word or RAM entry. -/
abbrev Word := BitVec 32

/-- A binary32 bit pattern (20_memory.md R75: any pattern may be stored). -/
abbrev F32 := BitVec 32

/-- A 32-bit word with only bit 0 possibly set: a one-bit field of a register. -/
def Word.ofBool (b : Bool) : Word := if b then 1 else 0

/-- The bytes of a word, little-endian: bits 7:0 first (20_memory.md R74, R78). -/
def Word.bytes (w : Word) : List Byte :=
  [w.extractLsb' 0 8, w.extractLsb' 8 8, w.extractLsb' 16 8, w.extractLsb' 24 8]

/-- The word whose little-endian bytes are `b0` to `b3` (20_memory.md R74). -/
def Word.ofBytes (b0 b1 b2 b3 : Byte) : Word := b3 ++ b2 ++ b1 ++ b0

end Sys2Proof
end

