-- ==== Sys2Proof/Syntax.lean ====
section
/-! DEFINITION. The commands of UBK-DA1: one constructor per row of spec/opcode_table.json (30_encoding.md R104),
with the operand fields of its format (30_encoding.md R102, R103). -/

namespace Sys2Proof

/-- `DIR` of FRAME_COPY (43_motion_copy.md R225). -/
inductive CopyDir where
  /-- DIR = 0: `prev->cur`. -/
  | prevToCur
  /-- DIR = 1: `cur->prev`. -/
  | curToPrev
deriving DecidableEq, Repr

/-- A command. Every field has the width its format gives it; the ranges of `N` and `NBITS` are in WellFormed. -/
inductive Instr where
  /-- NOP, 43_motion_copy.md R230. -/
  | nop
  /-- BS_READ N, 40_bitstream.md R140. -/
  | bsRead (n : BitVec 6)
  /-- BS_PEEK N, 40_bitstream.md R141. -/
  | bsPeek (n : BitVec 6)
  /-- BS_READ1, 40_bitstream.md R142. -/
  | bsRead1
  /-- BS_SKIP K, 40_bitstream.md R143. -/
  | bsSkip (k : BitVec 24)
  /-- BS_ALIGN32, 40_bitstream.md R144. -/
  | bsAlign32
  /-- BS_LEFT, 40_bitstream.md R145. -/
  | bsLeft
  /-- BS_SIGN, 40_bitstream.md R146. -/
  | bsSign
  /-- HUF_DECODE tT, 41_huffman.md R170. -/
  | hufDecode (t : BitVec 5)
  /-- TREE_READ tT, 41_huffman.md R171. -/
  | treeRead (t : BitVec 5)
  /-- MC_COPY8 XOFF, YOFF, both signed, 43_motion_copy.md R224. -/
  | mcCopy8 (xoff yoff : BitVec 8)
  /-- FRAME_COPY, 43_motion_copy.md R225. -/
  | frameCopy (dir : CopyDir)
  /-- IDCT_PUT, 42_idct8x8.md R197. -/
  | idctPut
  /-- IDCT_ADD, 42_idct8x8.md R198. -/
  | idctAdd
  /-- IDCT_INT, 42_idct8x8.md R199. -/
  | idctInt
  /-- AUD_IDCT3 chCH, NBITS, 44_audio_transform.md R260. -/
  | audIdct3 (ch : BitVec 1) (nbits : BitVec 4)
  /-- AUD_IRDFT chCH, NBITS, 44_audio_transform.md R261. -/
  | audIrdft (ch : BitVec 1) (nbits : BitVec 4)
  /-- AUD_FFT chCH, NBITS, 44_audio_transform.md R262. -/
  | audFft (ch : BitVec 1) (nbits : BitVec 4)
  /-- AUD_SCALE chCH, NBITS, 44_audio_transform.md R263. -/
  | audScale (ch : BitVec 1) (nbits : BitVec 4)
  /-- AUD_OLA ichICH, NBITS with ICH = 1 + I2, 44_audio_transform.md R264. -/
  | audOla (i2 : BitVec 1) (nbits : BitVec 4)
deriving DecidableEq, Repr

end Sys2Proof
end

