-- ==== Sys2Proof/WellFormed.lean ====
section
/-! DEFINITION. When a command's fields are in the ranges that 30_encoding.md R104 fixes (R105 case 3). -/

namespace Sys2Proof

/-- `N` of BS_READ and BS_PEEK is at most 32 (30_encoding.md R103, R104). -/
abbrev countLegal (n : BitVec 6) : Prop := n.toNat ≤ 32

/-- `NBITS` lies between the least and the greatest exponent of its opcode (30_encoding.md R104). -/
abbrev nbitsLegal (least greatest : Nat) (nbits : BitVec 4) : Prop := least ≤ nbits.toNat ∧ nbits.toNat ≤ greatest

/-- The command's fields are in their ranges; the other commands have no field out of range. -/
def Instr.wf : Instr → Bool
  | .nop => true
  | .bsRead n => countLegal n
  | .bsPeek n => countLegal n
  | .bsRead1 => true
  | .bsSkip _ => true
  | .bsAlign32 => true
  | .bsLeft => true
  | .bsSign => true
  | .hufDecode _ => true
  | .treeRead _ => true
  | .mcCopy8 _ _ => true
  | .frameCopy _ => true
  | .idctPut => true
  | .idctAdd => true
  | .idctInt => true
  | .audIdct3 _ nbits => nbitsLegal 0 12 nbits
  | .audIrdft _ nbits => nbitsLegal 1 12 nbits
  | .audFft _ nbits => nbitsLegal 0 11 nbits
  | .audScale _ nbits => nbitsLegal 0 12 nbits
  | .audOla _ nbits => nbitsLegal 4 12 nbits

end Sys2Proof
end

