-- ==== Sys2Proof/Decode.lean ====
section
/-! DEFINITION. The decoder of command words and the encoder (30_encoding.md R100-R106). -/

namespace Sys2Proof

/-- The opcodes of 30_encoding.md R104, by mnemonic. -/
inductive Opcode where
  | nop | bsRead | bsPeek | bsRead1 | bsSkip | bsAlign32 | bsLeft | bsSign
  | hufDecode | treeRead
  | mcCopy8 | frameCopy
  | idctPut | idctAdd | idctInt
  | audIdct3 | audIrdft | audFft | audScale | audOla
deriving DecidableEq, Repr

/-- Why a word is illegal: the three cases of 30_encoding.md R105. -/
inductive DecodeError where
  /-- Case 1: `w[7:0]` is no opcode. Safe: the word reports ILLEGAL, as the spec says. -/
  | unknownOpcode (opc : Byte)
  /-- Case 2: a reserved bit is 1 or a fixed field differs. Safe, as above. -/
  | reservedBits (w : Word)
  /-- Case 3: `N` or `NBITS` is out of its range. Safe, as above. -/
  | fieldRange (w : Word)
  /-- Not four bytes: no command word has another length (30_encoding.md R100). Safe: nothing is read. -/
  | notOneWord (length : Nat)
deriving DecidableEq, Repr

/-- Bits 7:0 of the opcode's words (30_encoding.md R104). -/
def Opcode.code : Opcode → Byte
  | .nop => 0x00
  | .bsRead => 0x01
  | .bsPeek => 0x02
  | .bsRead1 => 0x03
  | .bsSkip => 0x04
  | .bsAlign32 => 0x05
  | .bsLeft => 0x06
  | .bsSign => 0x07
  | .hufDecode => 0x10
  | .treeRead => 0x11
  | .mcCopy8 => 0x20
  | .frameCopy => 0x21
  | .idctPut => 0x30
  | .idctAdd => 0x31
  | .idctInt => 0x32
  | .audIdct3 => 0x40
  | .audIrdft => 0x41
  | .audFft => 0x42
  | .audScale => 0x43
  | .audOla => 0x44

/-- The mask of the opcode's format (30_encoding.md R104, "Decode masks"). -/
def Opcode.mask : Opcode → Word
  | .bsRead | .bsPeek => 0xFFFFC0FF
  | .bsSkip => 0x000000FF
  | .hufDecode | .treeRead => 0xFFFFE0FF
  | .mcCopy8 => 0xFF0000FF
  | .frameCopy => 0xFFFFFEFF
  | .audIdct3 | .audIrdft | .audFft | .audScale => 0xFFFF0EFF
  | .audOla => 0xFFFF0DFF
  | .nop | .bsRead1 | .bsAlign32 | .bsLeft | .bsSign | .idctPut | .idctAdd | .idctInt => 0xFFFFFFFF

/-- `match`: the opcode in bits 7:0 and zeros elsewhere (30_encoding.md R104). -/
def Opcode.pattern (op : Opcode) : Word := op.code.setWidth 32

/-- The opcode whose bits 7:0 are `b`, if any. -/
def Opcode.ofByte (b : Byte) : Option Opcode :=
  match b.toNat with
  | 0x00 => some .nop
  | 0x01 => some .bsRead
  | 0x02 => some .bsPeek
  | 0x03 => some .bsRead1
  | 0x04 => some .bsSkip
  | 0x05 => some .bsAlign32
  | 0x06 => some .bsLeft
  | 0x07 => some .bsSign
  | 0x10 => some .hufDecode
  | 0x11 => some .treeRead
  | 0x20 => some .mcCopy8
  | 0x21 => some .frameCopy
  | 0x30 => some .idctPut
  | 0x31 => some .idctAdd
  | 0x32 => some .idctInt
  | 0x40 => some .audIdct3
  | 0x41 => some .audIrdft
  | 0x42 => some .audFft
  | 0x43 => some .audScale
  | 0x44 => some .audOla
  | _ => none

/-- The meaning of bit `DIR` (43_motion_copy.md R225). -/
def CopyDir.ofBit (b : BitVec 1) : CopyDir := if b = 0 then .prevToCur else .curToPrev

/-- Bit `DIR` of a direction. -/
def CopyDir.bit : CopyDir → BitVec 1
  | .prevToCur => 0
  | .curToPrev => 1

/-- The operand fields of a word, pulled out where 30_encoding.md R103 says they lie. -/
def Opcode.instr (op : Opcode) (w : Word) : Instr :=
  match op with
  | .nop => .nop
  | .bsRead => .bsRead (w.extractLsb' 8 6)
  | .bsPeek => .bsPeek (w.extractLsb' 8 6)
  | .bsRead1 => .bsRead1
  | .bsSkip => .bsSkip (w.extractLsb' 8 24)
  | .bsAlign32 => .bsAlign32
  | .bsLeft => .bsLeft
  | .bsSign => .bsSign
  | .hufDecode => .hufDecode (w.extractLsb' 8 5)
  | .treeRead => .treeRead (w.extractLsb' 8 5)
  | .mcCopy8 => .mcCopy8 (w.extractLsb' 8 8) (w.extractLsb' 16 8)
  | .frameCopy => .frameCopy (CopyDir.ofBit (w.extractLsb' 8 1))
  | .idctPut => .idctPut
  | .idctAdd => .idctAdd
  | .idctInt => .idctInt
  | .audIdct3 => .audIdct3 (w.extractLsb' 8 1) (w.extractLsb' 12 4)
  | .audIrdft => .audIrdft (w.extractLsb' 8 1) (w.extractLsb' 12 4)
  | .audFft => .audFft (w.extractLsb' 8 1) (w.extractLsb' 12 4)
  | .audScale => .audScale (w.extractLsb' 8 1) (w.extractLsb' 12 4)
  | .audOla => .audOla (w.extractLsb' 9 1) (w.extractLsb' 12 4)

/-- The verdict on a command word: one command, or one case of 30_encoding.md R105 in the order R105 lists them.
Total (R106); it depends on the word alone. -/
def decode (w : Word) : Except DecodeError Instr :=
  match Opcode.ofByte (w.extractLsb' 0 8) with
  | none => .error (.unknownOpcode (w.extractLsb' 0 8))
  | some op =>
    if w &&& op.mask = op.pattern then
      if (op.instr w).wf then .ok (op.instr w) else .error (.fieldRange w)
    else .error (.reservedBits w)

/-- The verdict on the bytes of one word in bus byte order, opcode first (30_encoding.md R101). -/
def decodeBytes : List Byte → Except DecodeError Instr
  | [b0, b1, b2, b3] => decode (Word.ofBytes b0 b1 b2 b3)
  | bs => .error (.notOneWord bs.length)

/-- The command word of a command, field by field from the format table (30_encoding.md R102), the most significant
field first; it is the word of a legal command when the command is well formed. -/
def encode : Instr → Word
  | .nop => 0#24 ++ Opcode.nop.code
  | .bsRead n => 0#18 ++ n ++ Opcode.bsRead.code
  | .bsPeek n => 0#18 ++ n ++ Opcode.bsPeek.code
  | .bsRead1 => 0#24 ++ Opcode.bsRead1.code
  | .bsSkip k => k ++ Opcode.bsSkip.code
  | .bsAlign32 => 0#24 ++ Opcode.bsAlign32.code
  | .bsLeft => 0#24 ++ Opcode.bsLeft.code
  | .bsSign => 0#24 ++ Opcode.bsSign.code
  | .hufDecode t => 0#19 ++ t ++ Opcode.hufDecode.code
  | .treeRead t => 0#19 ++ t ++ Opcode.treeRead.code
  | .mcCopy8 xoff yoff => 0#8 ++ yoff ++ xoff ++ Opcode.mcCopy8.code
  | .frameCopy dir => 0#23 ++ dir.bit ++ Opcode.frameCopy.code
  | .idctPut => 0#24 ++ Opcode.idctPut.code
  | .idctAdd => 0#24 ++ Opcode.idctAdd.code
  | .idctInt => 0#24 ++ Opcode.idctInt.code
  | .audIdct3 ch nbits => 0#16 ++ nbits ++ 0#3 ++ ch ++ Opcode.audIdct3.code
  | .audIrdft ch nbits => 0#16 ++ nbits ++ 0#3 ++ ch ++ Opcode.audIrdft.code
  | .audFft ch nbits => 0#16 ++ nbits ++ 0#3 ++ ch ++ Opcode.audFft.code
  | .audScale ch nbits => 0#16 ++ nbits ++ 0#3 ++ ch ++ Opcode.audScale.code
  | .audOla i2 nbits => 0#16 ++ nbits ++ 0#2 ++ i2 ++ 0#1 ++ Opcode.audOla.code

/-- The command word whose low `nbits` bits are those of `w`, every bit above them 0. -/
def tableWord (nbits w : Nat) : Word := BitVec.ofNat 32 (w % 2 ^ nbits)

/-- What the decoder reads from the instruction whose bits are `w`, numbered as spec/opcode_table.json numbers them:
the word is laid out as its four bytes in bus order and given to the decoder. -/
def decodeTableWord (nbits w : Nat) : Option Instr :=
  match decodeBytes (tableWord nbits w).bytes with
  | .ok i => some i
  | .error _ => none

end Sys2Proof
end

