-- ==== Sys2Proof/Config.lean ====
section
/-! DEFINITION. What an implementation fixes: the fixed constants and the parameters of 00_scope.md R8 and R9, and the
free values. An `opaque` constant has no body: no proof can learn its value, so a statement holds for every value. -/

namespace Sys2Proof

/-- One entry of a code table: `HUFF_CODE[tb][s]` and `HUFF_LEN[tb][s]` (41_huffman.md R160). -/
structure CodeEntry where
  code : Nat
  len : Nat
deriving DecidableEq, Repr

/-- One code table: an entry per symbol 0..15. -/
abbrev CodeTable := Vector CodeEntry 16

/-- The sixteen code tables. -/
abbrev CodeTables := Vector CodeTable 16

/-- The parameter AFP (44_audio_transform.md R242). -/
inductive Afp where
  /-- The reference instantiation of R242: IEEE 754 binary32, round to nearest even, one rounding per operator. -/
  | reference
  /-- Any other instantiation that gives binary32 results from binary32 operands: an opaque function of the line. -/
  | other
deriving DecidableEq, Repr

/-- The parameter IRDFT_SIN_SIGN (00_scope.md R8). -/
inductive SinSign where
  /-- −1, the default (90_conflicts.md C5). -/
  | minus
  /-- +1, the source's literal text. -/
  | plus
deriving DecidableEq, Repr

/-- The parameters a model takes as arguments (00_scope.md R8). -/
structure Params where
  /-- `BSM_BYTES` = 2^(12 + bsm), so 2^12 to 2^20. -/
  bsm : Fin 9
  /-- `PXM_BYTES` = 2^(12 + pxm), so 2^12 to 2^24. -/
  pxm : Fin 13
  /-- `HUFF_CODE` and `HUFF_LEN`. -/
  huff : CodeTables
  /-- `AFP`. -/
  afp : Afp
  /-- `IRDFT_SIN_SIGN`. -/
  sinSign : SinSign
  /-- `BASE`: the bus address of offset 0. -/
  base : Nat
  /-- `IRQ_LINE`: the host interrupt input that `irq` drives. -/
  irqLine : Nat
deriving DecidableEq, Repr

/-- log2 of `BSM_BYTES`. -/
def Params.bsmLog (p : Params) : Nat := 12 + p.bsm.val

/-- log2 of `PXM_BYTES`. -/
def Params.pxmLog (p : Params) : Nat := 12 + p.pxm.val

/-- `BSM_BYTES`. -/
def Params.bsmBytes (p : Params) : Nat := 2 ^ p.bsmLog

/-- `PXM_BYTES`. -/
def Params.pxmBytes (p : Params) : Nat := 2 ^ p.pxmLog

/-- The constant the ID register reads (10_state.md R31). -/
def Config.idWord : Word := 0x314B4255

/-- `AUD_MAX_BITS` (00_scope.md R8). -/
def Config.audMaxBits : Nat := 12

/-- `NTREES` (00_scope.md R8). -/
def Config.ntrees : Nat := 32

/-- `AC_LEN` (00_scope.md R8). -/
def Config.acLen : Nat := 4096

/-- `OW_LEN` (00_scope.md R8). -/
def Config.owLen : Nat := 256

/-- `C0` (00_scope.md R9). -/
def Config.c0 : Word := 2896

/-- `C1` (00_scope.md R9). -/
def Config.c1 : Word := 2217

/-- `C2` (00_scope.md R9). -/
def Config.c2 : Word := 3784

/-- `C3` (00_scope.md R9). -/
def Config.c3 : Word := -5352

/-- `HUFF_CODE[tb][s]` of the part that State.reset describes: OPEN, no source gives the contents (91_not_in_source.md N3). -/
opaque Config.huffCode : Nat → Nat → Nat

/-- `HUFF_LEN[tb][s]` of the part that State.reset describes: OPEN, as above. -/
opaque Config.huffLen : Nat → Nat → Nat

/-- `BASE` of the part that State.reset describes: OPEN, the platform's (00_scope.md R8). -/
opaque Config.base : Nat

/-- `IRQ_LINE` of the part that State.reset describes: OPEN, the platform's (00_scope.md R8). -/
opaque Config.irqLine : Nat

/-- Free value: the byte that a read of a RAM location nothing has written draws (10_state.md R58). It is applied to the
count of steps taken, to a tag that tells apart the reads one step makes of one location, and to the location. -/
opaque Config.freeByte : (draws tag offset : Nat) → Byte

/-- Free value: the word a host read of engine state draws while a command is in flight (70_reset_and_hazards.md R351),
applied to the count of steps taken and to the offset read. -/
opaque Config.busyRead : (draws offset : Nat) → Word

/-- Free value: how many host accesses take place between a command's acceptance and its completion (20_memory.md R84,
70_reset_and_hazards.md R360), applied to the count of steps taken. -/
opaque Config.latency : (draws : Nat) → Nat

/-- One line of AUD pseudocode, as the operators of AFP applied to binary32 operands (00_scope.md R14). A local name of
the pseudocode stands as its own expression inside the line that stores (44_audio_transform.md R242, R244). -/
inductive FExpr where
  /-- An operand: an entry of `AC`, `OW` or the scratch, a ROM entry, or a converted integer. -/
  | val (x : F32)
  /-- `a ⊕ b`. -/
  | add (a b : FExpr)
  /-- `a ⊖ b`. -/
  | sub (a b : FExpr)
  /-- `a ⊗ b`. -/
  | mul (a b : FExpr)
  /-- `a ⊘ b`. -/
  | div (a b : FExpr)
  /-- `⊖a`. -/
  | neg (a : FExpr)
deriving DecidableEq, Repr

/-- Free value: what another instantiation of AFP gives for a line (44_audio_transform.md R242: "Another instantiation is
allowed if it gives binary32 results from binary32 operands and is deterministic"). -/
opaque Config.afpLine : FExpr → F32

end Sys2Proof
end

