-- ==== Sys2Proof/Machine/State.lean ====
section
/-! DEFINITION. The state of UBK-DA1 as plain data (10_state.md), its outcomes other than a next state, and reset. -/

namespace Sys2Proof.Machine

/-- A tree register (10_state.md R47). -/
structure SymbolTree where
  /-- `TABLE`: which code table, 0..15. -/
  table : BitVec 4
  /-- `MAP[0..15]`: the symbol map. -/
  map : Vector (BitVec 4) 16
deriving DecidableEq, Repr

/-- The tree of the reset: table 0 and the identity map (10_state.md R47). -/
def SymbolTree.reset : SymbolTree where
  table := 0
  map := #v[0, 1, 2, 3, 4, 5, 6, 7, 8, 9, 10, 11, 12, 13, 14, 15]

/-- What a host access does (20_memory.md R70). -/
inductive HostOp where
  | read
  | write (v : Word)
deriving DecidableEq, Repr

/-- One host access on the bus: its address, its width in bytes, and what it does. Only a width of 4 is admitted
(20_memory.md R76); the data of another width is never used. -/
structure HostAccess where
  addr : Nat
  width : Nat
  op : HostOp
deriving DecidableEq, Repr

/-- The RAMs of the block in one list of (offset, byte) pairs, each byte at its offset in the host's window
(20_memory.md R71): BSM, CUR and PREV byte by byte, CBLK, OBLK, AC and OW as the little-endian bytes of their words.
An offset that is not listed has not been written since power-on (10_state.md R58). -/
abbrev Memory := List Host.Cell

/-- Everything the spec gives the machine (10_state.md), the parameters (00_scope.md R8), and the model's own input,
output and free-value fields. -/
structure State where
  /-- The parameters; no step changes them (00_scope.md R8). -/
  params : Params
  /-- `STATUS.BUSY` (10_state.md R32). -/
  busy : Bool
  /-- `STATUS.ERR`. -/
  err : Bool
  /-- `STATUS.OVERRUN`. -/
  overrun : Bool
  /-- `STATUS.BUSERR`. -/
  buserr : Bool
  /-- `STATUS.ERRCODE`. -/
  errcode : BitVec 4
  /-- `ARG0` (10_state.md R35). -/
  arg0 : Word
  /-- `RESULT` (10_state.md R36). -/
  result : Word
  /-- `ERRINFO` (10_state.md R37). -/
  errinfo : Word
  /-- `IRQ_STATUS.DONE` (10_state.md R38). -/
  irqDone : Bool
  /-- `IRQ_STATUS.ERRI`. -/
  irqErri : Bool
  /-- `IRQ_EN.DONE_EN` (10_state.md R39). -/
  doneEn : Bool
  /-- `IRQ_EN.ERRI_EN`. -/
  erriEn : Bool
  /-- `BS_LEN` (10_state.md R40). -/
  bsLen : Word
  /-- `BS_POS` (10_state.md R41). -/
  bsPos : Word
  /-- `PX_STRIDE` bits 23:0 (10_state.md R42). -/
  pxStride : BitVec 24
  /-- `PX_LEN` (10_state.md R43). -/
  pxLen : Word
  /-- `AUD_CTRL.FIRST` (10_state.md R44). -/
  audFirst : Bool
  /-- `TREE[0..31]` (10_state.md R47). -/
  trees : Vector SymbolTree 32
  /-- `CMDL`, the accepted command word (10_state.md R54). -/
  cmdl : Word
  /-- `SRST_PEND` (10_state.md R54). -/
  srstPend : Bool
  /-- The RAMs (10_state.md R48 to R53). -/
  mem : Memory
  /-- The model's own: how many host accesses the engine still lets by before its step (20_memory.md R84). -/
  latency : Nat
  /-- The model's own: the count of steps taken, to which the free values are applied. -/
  draws : Nat
  /-- The model's own: the host accesses not yet taken, in the order the host issues them. -/
  hostq : List HostAccess
  /-- The model's own: the words that host reads returned, the newest first. -/
  replies : List Word
deriving DecidableEq, Repr

/-- Why the machine stops with a fault. No command and no access the spec describes raises one. -/
inductive Fault where
  /-- A host access whose address lies outside the block's window of 0x0300_0000 offsets from BASE (20_memory.md R70):
  it is not addressed to the block, and the spec gives the block no part in it. Raised by the step that takes such an
  access from `hostq`. Safe: the model stops where the platform goes on. -/
  | outsideWindow (addr : Nat)
deriving DecidableEq, Repr

/-- Why the machine refuses a step. -/
inductive Refusal where
  /-- An instruction without a meaning. Raised by no arm: every command has its meaning. Safe. -/
  | notModelled (mnemonic : String)
  /-- HUF_DECODE under code tables that are not well formed: "A model given any other parameter set must refuse it
  rather than interpret it" (41_huffman.md R161). Raised by HUF_DECODE. Safe: nothing is interpreted. -/
  | illFormedCodeTables
deriving DecidableEq, Repr

/-- The parameters of the part that reset describes: the spec's defaults where 00_scope.md R8 gives one, the opaque
constants of Config where it leaves the parameter OPEN without one. -/
def defaultParams : Params where
  bsm := 8
  pxm := 10
  huff := Vector.ofFn fun tb => Vector.ofFn fun s => ⟨Config.huffCode tb.val s.val, Config.huffLen tb.val s.val⟩
  afp := .reference
  sinSign := .minus
  base := Config.base
  irqLine := Config.irqLine

/-- Power-on reset (10_state.md R57, 70_reset_and_hazards.md R340). The RAMs are unspecified: nothing is listed. -/
def State.reset : State where
  params := defaultParams
  busy := false
  err := false
  overrun := false
  buserr := false
  errcode := 0
  arg0 := 0
  result := 0
  errinfo := 0
  irqDone := false
  irqErri := false
  doneEn := false
  erriEn := false
  bsLen := 0
  bsPos := 0
  pxStride := 0
  pxLen := 0
  audFirst := true
  trees := Vector.replicate 32 SymbolTree.reset
  cmdl := 0
  srstPend := false
  mem := []
  latency := 0
  draws := 0
  hostq := []
  replies := []

end Sys2Proof.Machine
end

