-- ==== Sys2Proof/Machine/Ops.lean ====
section
/-! DEFINITION. The named operations over the RAMs and the registers that every meaning is built from: memory reads and
writes, the completion of a command, raising an error and acknowledging it, and the soft reset. -/

namespace Sys2Proof.Machine

/-! ### The RAMs -/

/-- The canonical form of a memory: offsets strictly rising. No byte is what an unlisted offset reads as (a read there
draws a free value), so no entry is ever left out for its value, and equal contents are equal lists. -/
abbrev Memory.wf (m : Memory) : Prop := m.Pairwise fun c d => c.1 < d.1

/-- The byte held at an offset; none where nothing was written since power-on (10_state.md R58). -/
def Memory.held (m : Memory) (a : Nat) : Option Byte := m.lookup a

/-- Consecutive bytes as cells, the first at `a`. -/
def Memory.cells : Nat → List Byte → Memory
  | _, [] => []
  | a, b :: bs => (a, b) :: Memory.cells (a + 1) bs

/-- Write consecutive bytes, the first at offset `a`, keeping the canonical form. -/
def Memory.writeBytes (m : Memory) (a : Nat) (bs : List Byte) : Memory :=
  m.filter (fun c => c.1 < a) ++ (Memory.cells a bs ++ m.filter (fun c => a + bs.length ≤ c.1))

/-- The byte the RAMs hold at a window offset, none where nothing was written. -/
def State.held (s : State) (a : Nat) : Option Byte := s.mem.held a

/-- A read of one RAM byte: what is held there, or an unconstrained draw (10_state.md R58). Two reads of one unwritten
location within one step carry different tags, so that their draws need not agree. -/
def State.readByte (s : State) (tag a : Nat) : Byte := (s.held a).getD (Config.freeByte s.draws tag a)

/-- Reads of `n` consecutive bytes. -/
def State.readBytes (s : State) (tag a n : Nat) : List Byte := (List.range n).map fun i => s.readByte tag (a + i)

/-- A read of the little-endian word at offset `a` (20_memory.md R74). -/
def State.readWord (s : State) (tag a : Nat) : Word :=
  Word.ofBytes (s.readByte tag a) (s.readByte tag (a + 1)) (s.readByte tag (a + 2)) (s.readByte tag (a + 3))

/-- Reads of `n` consecutive words. -/
def State.readWords (s : State) (tag a n : Nat) : List Word := (List.range n).map fun i => s.readWord tag (a + 4 * i)

/-- Write consecutive bytes at offset `a`. -/
def State.writeBytes (s : State) (a : Nat) (bs : List Byte) : State := { s with mem := s.mem.writeBytes a bs }

/-- Write consecutive words at offset `a`, each little-endian (20_memory.md R74). -/
def State.writeWords (s : State) (a : Nat) (ws : List Word) : State := s.writeBytes a (ws.flatMap Word.bytes)

/-! ### Where the RAMs lie in the window (20_memory.md R71 to R75) -/

/-- Offset of `CBLK[0]`. -/
def cblkBase : Nat := 0x800

/-- Offset of `OBLK[0]`. -/
def oblkBase : Nat := 0x900

/-- Offset of `AC[ch][0]` (20_memory.md R75). -/
def acBase (ch : Nat) : Nat := 0x10000 + 0x4000 * ch

/-- Offset of `OW[ch][0]` (20_memory.md R75). -/
def owBase (ch : Nat) : Nat := 0x18000 + 0x400 * ch

/-- Offset of `BSM[0]`. -/
def bsmBase : Nat := 0x100000

/-- Offset of `CUR[0]`. -/
def curBase : Nat := 0x1000000

/-- Offset of `PREV[0]`. -/
def prevBase : Nat := 0x2000000

/-- The size of the window in bytes (20_memory.md R70). -/
def windowBytes : Nat := 0x3000000

/-! ### Registers -/

/-- The tree register `TREE[t]` (10_state.md R47). -/
def State.tree (s : State) (t : BitVec 5) : SymbolTree := s.trees[t.toNat]'t.isLt

/-- Write `TABLE` and the sixteen `MAP` entries of `TREE[t]` together (41_huffman.md R165). -/
def State.setTree (s : State) (t : BitVec 5) (v : SymbolTree) : State := { s with trees := s.trees.set t.toNat v t.isLt }

/-! ### Completion, errors and reset -/

/-- The soft reset (70_reset_and_hazards.md R341, the "soft reset" column of 10_state.md R57): every register returns to
its reset value, the RAMs, the parameters and the model's own fields stay. -/
def State.softReset (s : State) : State :=
  { s with
    busy := false
    err := false
    overrun := false
    buserr := false
    errcode := 0
    arg0 := 0
    result := 0
    errinfo := 0
    irqDone := false
    irqErri := false
    doneEn := false
    erriEn := false
    bsLen := 0
    bsPos := 0
    pxStride := 0
    pxLen := 0
    audFirst := true
    trees := Vector.replicate 32 SymbolTree.reset
    cmdl := 0
    srstPend := false }

/-- The completion of an accepted command (60_exceptions.md R300): `BUSY` ← 0, `DONE` ← 1, then the pending soft reset
if there is one. The count of steps goes on, so that the next step's free values are fresh. -/
def State.complete (s : State) : State :=
  if s.srstPend then { s with busy := false, irqDone := true, draws := s.draws + 1 }.softReset
  else { s with busy := false, irqDone := true, draws := s.draws + 1 }

/-- The errors a command can end with (60_exceptions.md R302). -/
inductive ErrCode where
  | illegal
  | range
  | hufNoMatch
deriving DecidableEq, Repr

/-- The value `STATUS.ERRCODE` takes (60_exceptions.md R302). -/
def ErrCode.bits : ErrCode → BitVec 4
  | .illegal => 1
  | .range => 2
  | .hufNoMatch => 3

/-- `Fail(code, w)` with w the command word in CMDL (60_exceptions.md R300, R303). -/
def State.fail (s : State) (code : ErrCode) : State :=
  { s with err := true, errcode := code.bits, errinfo := s.cmdl, irqErri := true }

/-- Ending a command with an error: `raise Error(code, w)`, which performs `Fail` and nothing else of the command's rule,
then the completion (60_exceptions.md R300, R303). -/
def State.raise (s : State) (code : ErrCode) : State := (s.fail code).complete

/-- The host's acknowledgement of an error, the block's return from one (60_exceptions.md R308): `ERR`, `ERRCODE` and
`ERRINFO` are cleared together, which reopens the command gate; `ERRI` stays. -/
def State.ackError (s : State) : State := { s with err := false, errcode := 0, errinfo := 0 }

end Sys2Proof.Machine
end

