-- ==== Sys2Proof/Machine/Flags.lean ====
section
/-! DEFINITION. The flags of the block (10_state.md R56): the status words as the host reads them, the write-one-to-clear
acknowledgements, the sticky bus events, and the interrupt output. -/

namespace Sys2Proof.Machine

/-- `STATUS` as read (10_state.md R32): ERRCODE in bits 7:4, BUSERR, OVERRUN, ERR, BUSY in bits 3 to 0. -/
def State.statusWord (s : State) : Word :=
  0#24 ++ s.errcode ++ BitVec.ofBool s.buserr ++ BitVec.ofBool s.overrun ++ BitVec.ofBool s.err ++ BitVec.ofBool s.busy

/-- `IRQ_STATUS` as read (10_state.md R38). -/
def State.irqStatusWord (s : State) : Word := 0#30 ++ BitVec.ofBool s.irqErri ++ BitVec.ofBool s.irqDone

/-- `IRQ_EN` as read (10_state.md R39). -/
def State.irqEnWord (s : State) : Word := 0#30 ++ BitVec.ofBool s.erriEn ++ BitVec.ofBool s.doneEn

/-- `AUD_CTRL` as read (10_state.md R44). -/
def State.audCtrlWord (s : State) : Word := 0#31 ++ BitVec.ofBool s.audFirst

/-- `PX_STRIDE` as read (10_state.md R42). -/
def State.pxStrideWord (s : State) : Word := 0#8 ++ s.pxStride

/-- `PARAMS` (10_state.md R45). -/
def paramsWord (p : Params) : Word :=
  BitVec.ofNat 8 p.pxmLog ++ BitVec.ofNat 8 p.bsmLog ++ BitVec.ofNat 8 Config.ntrees ++ 0#4 ++
    BitVec.ofNat 4 Config.audMaxBits

/-- A host write to `STATUS` (10_state.md R32): each of bits 1, 2, 3 that is 1 clears its flag, bit 1 with ERRCODE and
ERRINFO. -/
def State.writeStatus (s : State) (v : Word) : State :=
  let s1 := if v.getLsbD 1 then s.ackError else s
  { s1 with overrun := s1.overrun && !v.getLsbD 2, buserr := s1.buserr && !v.getLsbD 3 }

/-- A host write to `IRQ_STATUS`: both bits are write-one-to-clear (10_state.md R38). -/
def State.writeIrqStatus (s : State) (v : Word) : State :=
  { s with irqDone := s.irqDone && !v.getLsbD 0, irqErri := s.irqErri && !v.getLsbD 1 }

/-- A host write to `IRQ_EN` (10_state.md R39). -/
def State.writeIrqEn (s : State) (v : Word) : State := { s with doneEn := v.getLsbD 0, erriEn := v.getLsbD 1 }

/-- The BUSERR event (60_exceptions.md R304). -/
def State.setBusErr (s : State) : State := { s with buserr := true, irqErri := true }

/-- The OVERRUN event (60_exceptions.md R304). -/
def State.setOverrun (s : State) : State := { s with overrun := true, irqErri := true }

/-- The interrupt output, a level (60_exceptions.md R306), immediate as 70_reset_and_hazards.md R361 allows. -/
def State.irq (s : State) : Bool := (s.irqDone && s.doneEn) || (s.irqErri && s.erriEn)

/-- What a host interrupt input sees: `irq` on the input `IRQ_LINE` names (00_scope.md R8). -/
def State.irqAt (s : State) (line : Nat) : Bool := s.irq && line == s.params.irqLine

end Sys2Proof.Machine
end

