-- ==== Sys2Proof/Machine/Bus.lean ====
section
/-! DEFINITION. Host bus accesses: the offset map (20_memory.md R71 to R75), admission (R76), register and RAM reads and
writes, the command gate (60_exceptions.md R300, R301), and accesses while a command is in flight
(70_reset_and_hazards.md R350, R351). -/

namespace Sys2Proof.Machine

/-- The registers of the control page (10_state.md R31 to R46). -/
inductive Reg where
  | id | status | ctrl | cmd | arg0 | result | errinfo | irqStatus | irqEn
  | bsLen | bsPos | pxStride | pxLen | audCtrl | params | reserved
deriving DecidableEq, Repr

/-- What a mapped, aligned offset names (20_memory.md R71). -/
inductive Target where
  | reg (r : Reg)
  /-- Word `w` of the four words of `TREE[t]` (20_memory.md R72). -/
  | tree (t : BitVec 5) (w : BitVec 2)
  /-- A word of `CBLK`, `AC`, `OW`, `BSM`, `CUR` or `PREV`, at this offset: readable and writable. -/
  | ram (offset : Nat)
  /-- A word of `OBLK`, at this offset: read-only to the host. -/
  | oblk (offset : Nat)
deriving DecidableEq, Repr

/-- The register at a word index of the control page (10_state.md R31 to R46). -/
def Reg.ofIndex : Nat → Option Reg
  | 0 => some .id
  | 1 => some .status
  | 2 => some .ctrl
  | 3 => some .cmd
  | 4 => some .arg0
  | 5 => some .result
  | 6 => some .errinfo
  | 7 => some .irqStatus
  | 8 => some .irqEn
  | 9 => some .bsLen
  | 10 => some .bsPos
  | 11 => some .pxStride
  | 12 => some .pxLen
  | 13 => some .audCtrl
  | 14 => some .params
  | 15 => some .reserved
  | _ => none

/-- `off` lies in the `size` bytes from `base`. -/
abbrev inWindow (base size off : Nat) : Prop := base ≤ off ∧ off < base + size

/-- The offsets of the RAM windows the host may write (20_memory.md R71): CBLK, the two AC and the two OW, BSM, CUR,
PREV, with the sizes the parameters give. -/
abbrev ramWindow (p : Params) (off : Nat) : Prop :=
  inWindow cblkBase 0x100 off ∨ inWindow (acBase 0) 0x8000 off ∨ inWindow (owBase 0) 0x800 off ∨
    inWindow bsmBase p.bsmBytes off ∨ inWindow curBase p.pxmBytes off ∨ inWindow prevBase p.pxmBytes off

/-- The offset map (20_memory.md R71); none where nothing is mapped. -/
def target (p : Params) (off : Nat) : Option Target :=
  if inWindow 0 0x40 off then (Reg.ofIndex (off / 4)).map .reg
  else if inWindow 0x400 0x200 off then
    some (.tree (BitVec.ofNat 5 ((off - 0x400) / 16)) (BitVec.ofNat 2 ((off - 0x400) / 4)))
  else if inWindow oblkBase 0x100 off then some (.oblk off)
  else if ramWindow p off then some (.ram off)
  else none

/-- What an access of this width at this offset reaches, if it is admitted: a 32-bit access, aligned, to a mapped offset
(20_memory.md R76). -/
def admitted (p : Params) (off width : Nat) : Option Target := if width = 4 ∧ off % 4 = 0 then target p off else none

/-! ### Reads -/

/-- The eight `MAP` entries from `k` as a word, entry `k + j` in bits 4j+3:4j (20_memory.md R72). -/
def mapWord (m : Vector (BitVec 4) 16) (k : Nat) : Word :=
  let e := fun j => m.toList.getD (k + j) 0
  e 7 ++ e 6 ++ e 5 ++ e 4 ++ e 3 ++ e 2 ++ e 1 ++ e 0

/-- Word `w` of a tree's four words (20_memory.md R72). -/
def treeWord (tr : SymbolTree) (w : BitVec 2) : Word :=
  match w.toNat with
  | 0 => tr.table.setWidth 32
  | 1 => mapWord tr.map 0
  | 2 => mapWord tr.map 8
  | _ => 0

/-- A register as the host reads it (10_state.md R31 to R46); CMD, CTRL and the reserved word read as 0. -/
def State.readReg (s : State) : Reg → Word
  | .id => Config.idWord
  | .status => s.statusWord
  | .ctrl => 0
  | .cmd => 0
  | .arg0 => s.arg0
  | .result => s.result
  | .errinfo => s.errinfo
  | .irqStatus => s.irqStatusWord
  | .irqEn => s.irqEnWord
  | .bsLen => s.bsLen
  | .bsPos => s.bsPos
  | .pxStride => s.pxStrideWord
  | .pxLen => s.pxLen
  | .audCtrl => s.audCtrlWord
  | .params => paramsWord s.params
  | .reserved => 0

/-- What a read of a target returns while no command is in flight. -/
def State.readTarget (s : State) : Target → Word
  | .reg r => s.readReg r
  | .tree t w => treeWord (s.tree t) w
  | .ram off => s.readWord 0 off
  | .oblk off => s.readWord 0 off

/-- The targets whose reads are defined while a command is in flight (70_reset_and_hazards.md R351): no command writes
them. -/
def Target.steady : Target → Bool
  | .reg .result | .reg .errinfo | .reg .bsPos | .reg .audCtrl => false
  | .reg _ => true
  | .tree _ _ | .ram _ | .oblk _ => false

/-- An admitted read (20_memory.md R77): while a command is in flight, a read of what a command may write is a fresh
draw, a word of its own whatever the width of the item. -/
def State.busRead (s : State) (off : Nat) (t : Target) : Word :=
  if s.busy && !t.steady then Config.busyRead s.draws off else s.readTarget t

/-! ### Writes -/

/-- A write to CMD that is not dropped as an overrun (60_exceptions.md R300): dropped by the command gate while ERR = 1
(R301), else accepted. The number of host accesses before the completion is drawn at acceptance (20_memory.md R84). -/
def State.acceptCmd (s : State) (w : Word) : State :=
  if s.err then s else { s with cmdl := w, busy := true, latency := Config.latency s.draws }

/-- A host write to CTRL (10_state.md R33, 70_reset_and_hazards.md R341): bit 0 requests the soft reset, at once when no
command is in flight, else held until its completion. -/
def State.writeCtrl (s : State) (v : Word) : State :=
  if v.getLsbD 0 then (if s.busy then { s with srstPend := true } else s.softReset) else s

/-- The entries `k`, `k + 1`, … of a `MAP` word (20_memory.md R72). -/
def mapNibbles (v : Word) : List (BitVec 4) := (List.range 8).map fun j => v.extractLsb' (4 * j) 4

/-- A write of eight `MAP` entries from `k`. -/
def setNibbles (m : Vector (BitVec 4) 16) (k : Nat) (v : Word) : Vector (BitVec 4) 16 :=
  let n := m.toList.take k ++ mapNibbles v ++ m.toList.drop (k + 8)
  #v[n.getD 0 0, n.getD 1 0, n.getD 2 0, n.getD 3 0, n.getD 4 0, n.getD 5 0, n.getD 6 0, n.getD 7 0,
    n.getD 8 0, n.getD 9 0, n.getD 10 0, n.getD 11 0, n.getD 12 0, n.getD 13 0, n.getD 14 0, n.getD 15 0]

/-- A write of word `w` of a tree's four words (20_memory.md R72); the fourth is reserved and ignores writes. -/
def setTreeWord (tr : SymbolTree) (w : BitVec 2) (v : Word) : SymbolTree :=
  match w.toNat with
  | 0 => { tr with table := v.extractLsb' 0 4 }
  | 1 => { tr with map := setNibbles tr.map 0 v }
  | 2 => { tr with map := setNibbles tr.map 8 v }
  | _ => tr

/-- A WARL length register stores `min(v, size)` (10_state.md R40, R43). -/
def warlMin (v : Word) (size : Nat) : Word := BitVec.ofNat 32 (min v.toNat size)

/-- A host write to a register while no command is in flight (10_state.md R31 to R46); the read-only registers and the
reserved word ignore it. -/
def State.writeReg (s : State) (r : Reg) (v : Word) : State :=
  match r with
  | .id => s
  | .status => s.writeStatus v
  | .ctrl => s.writeCtrl v
  | .cmd => s.acceptCmd v
  | .arg0 => { s with arg0 := v }
  | .result => s
  | .errinfo => s
  | .irqStatus => s.writeIrqStatus v
  | .irqEn => s.writeIrqEn v
  | .bsLen => { s with bsLen := warlMin v s.params.bsmBytes }
  | .bsPos => { s with bsPos := v }
  | .pxStride => { s with pxStride := v.setWidth 24 }
  | .pxLen => { s with pxLen := warlMin v s.params.pxmBytes }
  | .audCtrl => { s with audFirst := v.getLsbD 0 }
  | .params => s
  | .reserved => s

/-- A host write to a target while no command is in flight; OBLK ignores it (20_memory.md R73). -/
def State.writeTarget (s : State) (t : Target) (v : Word) : State :=
  match t with
  | .reg r => s.writeReg r v
  | .tree t w => s.setTree t (setTreeWord (s.tree t) w v)
  | .ram off => s.writeWords off [v]
  | .oblk _ => s

/-- What a write meets while a command is in flight (70_reset_and_hazards.md R350). -/
inductive BusyWrite where
  /-- It takes effect as usual. -/
  | lands
  /-- It is ignored as always. -/
  | ignored
  /-- It is dropped, and OVERRUN is set. -/
  | dropped
deriving DecidableEq, Repr

/-- The three cases of 70_reset_and_hazards.md R350. -/
def Target.busyWrite : Target → BusyWrite
  | .reg .status | .reg .ctrl | .reg .irqStatus | .reg .irqEn => .lands
  | .reg .id | .reg .params | .reg .result | .reg .errinfo | .oblk _ => .ignored
  | .reg .cmd | .reg .arg0 | .reg .bsLen | .reg .bsPos | .reg .pxStride | .reg .pxLen | .reg .audCtrl => .dropped
  | .reg .reserved => .dropped
  | .tree _ _ | .ram _ => .dropped

/-- An admitted write (20_memory.md R77). -/
def State.busWrite (s : State) (t : Target) (v : Word) : State :=
  if s.busy then
    match t.busyWrite with
    | .lands => s.writeTarget t v
    | .ignored => s
    | .dropped => s.setOverrun
  else s.writeTarget t v

/-! ### Accesses -/

/-- The reply to a host read. -/
def State.reply (s : State) (v : Word) : State := { s with replies := v :: s.replies }

/-- A host access at an offset of the window: admitted, or a bus error that reads 0 or ignores the write
(20_memory.md R76). -/
def State.access (s : State) (off width : Nat) (op : HostOp) : State :=
  match admitted s.params off width, op with
  | some t, .read => s.reply (s.busRead off t)
  | some t, .write v => s.busWrite t v
  | none, .read => s.setBusErr.reply 0
  | none, .write _ => s.setBusErr

/-- The offset of a bus address in the block's window (20_memory.md R70); none where the address is not the block's. -/
def busOffset (p : Params) (addr : Nat) : Option Nat :=
  if inWindow p.base windowBytes addr then some (addr - p.base) else none

/-- One host access taken (20_memory.md R84). The count of steps goes on, so that the next draw is fresh. -/
def State.hostAccess (s : State) (a : HostAccess) : Host.Outcome State Fault Refusal :=
  match busOffset s.params a.addr with
  | some off =>
    let s1 := s.access off a.width a.op
    .next { s1 with draws := s.draws + 1 }
  | none => .fault (.outsideWindow a.addr)

end Sys2Proof.Machine
end

