-- ==== Sys2Proof/Machine/Operands.lean ====
section
/-! DEFINITION. The operand forms: stream bits (40_bitstream.md R130 to R134), the 8×8 pixel block (43_motion_copy.md
R220, R222) and the destination offset ARG0 (42_idct8x8.md R195). -/

namespace Sys2Proof.Machine

/-! ### Stream bits -/

/-- The greatest stream position, at which `BS_POS` saturates (40_bitstream.md R133). -/
def posMax : Nat := 0xFFFFFFFF

/-- `Bit(p)` (40_bitstream.md R130): bit `p mod 8` of byte `p / 8` below `BS_LEN`, else 0. Each bit is a read of its own
(10_state.md R58), so an unwritten byte draws once for each bit read. -/
def State.streamBit (s : State) (p : Nat) : Bool :=
  if p / 8 < s.bsLen.toNat then (s.readByte (p % 8) (bsmBase + p / 8)).getLsbD (p % 8) else false

/-- The `n` stream bits from position `p` as an unsigned number, the first the least significant (40_bitstream.md R131). -/
def State.bitsFrom (s : State) (p : Nat) : Nat → Nat
  | 0 => 0
  | n + 1 => (s.streamBit p).toNat + 2 * s.bitsFrom (p + 1) n

/-- `PeekBits(n)` (40_bitstream.md R131). -/
def State.peekBits (s : State) (n : Nat) : Nat := s.bitsFrom s.bsPos.toNat n

/-- `Advance(n)` (40_bitstream.md R133): saturating, without wrap. -/
def State.advance (s : State) (n : Nat) : State := { s with bsPos := BitVec.ofNat 32 (min (s.bsPos.toNat + n) posMax) }

/-- `ReadBits(n)` (40_bitstream.md R132): the value, and the state with the position advanced. -/
def State.readBits (s : State) (n : Nat) : Nat × State := (s.peekBits n, s.advance n)

/-- `BitsLeft` (40_bitstream.md R134): truncated subtraction of natural numbers is the `max(0, …)` of the rule. -/
def State.bitsLeft (s : State) : Nat := 8 * s.bsLen.toNat - s.bsPos.toNat

/-! ### Pixel blocks -/

/-- `PX_STRIDE` as a number. -/
def State.stride (s : State) : Nat := s.pxStride.toNat

/-- The destination offset `zext_32(ARG0)` (42_idct8x8.md R195, 43_motion_copy.md R224). -/
def State.dst (s : State) : Nat := s.arg0.toNat

/-- `InBlock(a)` on an integer offset, without wrap (43_motion_copy.md R222). -/
def State.inBlock (s : State) (a : Int) : Bool := decide (0 ≤ a ∧ a + 7 * (s.stride : Int) + 7 < (s.pxLen.toNat : Int))

/-- The window offset of row `r` of the block of `CUR` at byte offset `a`: its 8 bytes are consecutive. -/
def State.curRow (s : State) (a r : Nat) : Nat := curBase + a + r * s.stride

/-- The window offset of row `r` of the block of `PREV` at byte offset `a`. -/
def State.prevRow (s : State) (a r : Nat) : Nat := prevBase + a + r * s.stride

/-- Visit the rows 0 to 7 of an 8×8 block in order (20_memory.md R89). Within a row the eight bytes are distinct, so
visiting the row at once is visiting its columns in order. -/
def State.forRows (s : State) (row : Nat → State → State) : State :=
  row 7 (row 6 (row 5 (row 4 (row 3 (row 2 (row 1 (row 0 s)))))))

end Sys2Proof.Machine
end

