-- ==== Sys2Proof/Machine/Float32.lean ====
section
/-! DEFINITION. AUD arithmetic: the reference instantiation of AFP (44_audio_transform.md R242), and the evaluation of a
line of pseudocode under either instantiation. The definitions of IEEE 754 binary32 are named but not restated by the
spec (93_implementation_defined.md, section 4): PRESUMED from the standard. -/

namespace Sys2Proof.Machine

/-- What a binary32 pattern stands for. -/
inductive FValue where
  | nan
  | inf (sign : Bool)
  /-- ± m·2^e, zeros and subnormals among them. -/
  | fin (sign : Bool) (m : Nat) (e : Int)
deriving DecidableEq, Repr

/-- The sign bit of a pattern. -/
def f32Sign (x : F32) : Bool := x.getLsbD 31

/-- The value of a pattern: exponent field 255 is infinite or NaN, 0 is zero or subnormal (kept: R242 item 2). -/
def f32Value (x : F32) : FValue :=
  let ex := (x.extractLsb' 23 8).toNat
  let frac := (x.extractLsb' 0 23).toNat
  if ex = 255 then (if frac = 0 then .inf (f32Sign x) else .nan)
  else if ex = 0 then .fin (f32Sign x) frac (-149)
  else .fin (f32Sign x) (2 ^ 23 + frac) ((ex : Int) - 150)

/-- The canonical NaN (R242 item 3). -/
def f32Nan : F32 := 0x7FC00000

/-- The pattern with the given sign bit and the given 31 bits below it. -/
def f32Pack (sign : Bool) (magnitude : Nat) : F32 := BitVec.ofBool sign ++ BitVec.ofNat 31 magnitude

/-- The 31 bits of an infinity: exponent field 255, fraction 0. -/
def f32InfBits : Nat := 255 * 2 ^ 23

/-- `m / 2^k` to the nearest integer, ties to even. -/
def roundShift (m k : Nat) : Nat :=
  let q := m / 2 ^ k
  let r := m % 2 ^ k
  if 2 ^ k < 2 * r ∨ (2 * r = 2 ^ k ∧ q % 2 = 1) then q + 1 else q

/-- The exponent of the last place of the binary32 numbers around `m·2^e` for positive `m`; never below −149. -/
def f32Ulp (m : Nat) (e : Int) : Int := max ((Nat.log2 m : Int) + e - 23) (-149)

/-- `± m·2^e` to the nearest binary32, ties to even; too large gives an infinity (R242 item 1). Adding the rounded
significand to the exponent field's place carries into the exponent where rounding reaches the next power of two. -/
def f32Round (sign : Bool) (m : Nat) (e : Int) : F32 :=
  if m = 0 then f32Pack sign 0
  else
    let u := f32Ulp m e
    let q := if u ≤ e then m * 2 ^ (e - u).toNat else roundShift m (u - e).toNat
    f32Pack sign (min ((u + 149).toNat * 2 ^ 23 + q) f32InfBits)

/-- The integer `± m·2^k`. -/
def signedScaled (sign : Bool) (m k : Nat) : Int := if sign then -((m * 2 ^ k : Nat) : Int) else ((m * 2 ^ k : Nat) : Int)

/-- The IEEE sum: exact, then one rounding. An exact zero is +0 unless both operands are negative. -/
def f32Add (a b : F32) : F32 :=
  match f32Value a, f32Value b with
  | .nan, _ => f32Nan
  | _, .nan => f32Nan
  | .inf s, .inf t => if s = t then f32Pack s f32InfBits else f32Nan
  | .inf s, .fin _ _ _ => f32Pack s f32InfBits
  | .fin _ _ _, .inf t => f32Pack t f32InfBits
  | .fin s m e, .fin t n f =>
    let g := min e f
    let sum := signedScaled s m (e - g).toNat + signedScaled t n (f - g).toNat
    if sum = 0 then f32Pack (s && t) 0 else f32Round (decide (sum < 0)) sum.natAbs g

/-- `⊖a`: bit 31 flipped, for every a (R242 item 4). -/
def f32Neg (a : F32) : F32 := a ^^^ 0x80000000

/-- The IEEE difference. -/
def f32Sub (a b : F32) : F32 := f32Add a (f32Neg b)

/-- The IEEE product. -/
def f32Mul (a b : F32) : F32 :=
  match f32Value a, f32Value b with
  | .nan, _ => f32Nan
  | _, .nan => f32Nan
  | .inf s, .inf t => f32Pack (s ^^ t) f32InfBits
  | .inf s, .fin t n _ => if n = 0 then f32Nan else f32Pack (s ^^ t) f32InfBits
  | .fin s m _, .inf t => if m = 0 then f32Nan else f32Pack (s ^^ t) f32InfBits
  | .fin s m e, .fin t n f => f32Round (s ^^ t) (m * n) (e + f)

/-- The quotient of positive integers to 64 extra bits with a last bit that is 1 when the division is not exact, so
that rounding it is rounding the exact quotient. -/
def stickyQuotient (m n : Nat) : Nat :=
  2 * (m * 2 ^ 64 / n) + (if m * 2 ^ 64 % n = 0 then 0 else 1)

/-- The IEEE quotient; a nonzero number divided by zero is an infinity, and nothing faults (R242 item 5). -/
def f32Div (a b : F32) : F32 :=
  match f32Value a, f32Value b with
  | .nan, _ => f32Nan
  | _, .nan => f32Nan
  | .inf _, .inf _ => f32Nan
  | .inf s, .fin t _ _ => f32Pack (s ^^ t) f32InfBits
  | .fin s _ _, .inf t => f32Pack (s ^^ t) 0
  | .fin s m e, .fin t n f =>
    if n = 0 then (if m = 0 then f32Nan else f32Pack (s ^^ t) f32InfBits)
    else f32Round (s ^^ t) (stickyQuotient m n) (e - f - 65)

/-- `f32(q)` of a small non-negative integer: exact (00_scope.md R14, 44_audio_transform.md R243). -/
def f32OfNat (q : Nat) : F32 := f32Round false q 0

/-- A line under the reference instantiation: operator by operator, one rounding each, nothing fused. -/
def evalReference : FExpr → F32
  | .val x => x
  | .add a b => f32Add (evalReference a) (evalReference b)
  | .sub a b => f32Sub (evalReference a) (evalReference b)
  | .mul a b => f32Mul (evalReference a) (evalReference b)
  | .div a b => f32Div (evalReference a) (evalReference b)
  | .neg a => f32Neg (evalReference a)

/-- The binary32 value that a line stores, under the parameter AFP (44_audio_transform.md R242). -/
def evalLine (afp : Afp) (line : FExpr) : F32 :=
  match afp with
  | .reference => evalReference line
  | .other => Config.afpLine line

end Sys2Proof.Machine
end

