-- ==== Sys2Proof/Machine/Rom.lean ====
section
/-! DEFINITION. The constant ROMs of AUD (44_audio_transform.md R247): each entry the binary32 nearest its real value.
The real values are computed in fixed point with 128 fraction bits, far more than the rounding to 24 bits needs
(DEDUCED: every entry was compared with a 400-bit evaluation outside Lean; notes/assumptions/11.md). -/

namespace Sys2Proof.Machine

/-- 1 with 128 fraction bits. -/
def fixOne : Nat := 2 ^ 128

/-- π with 128 fraction bits, rounded down. -/
def fixPi : Nat := 1069028584064966747859680373161870783300

/-- The angle 2π·p/q with 128 fraction bits. -/
def fixAngle (p q : Nat) : Nat := 2 * fixPi * p / q

/-- The product of two fixed-point numbers. -/
def fixMul (a b : Nat) : Nat := a * b / fixOne

/-- `1 − a²/((d+1)(d+2)) · (1 − a²/((d+3)(d+4)) · (…))` to `terms` factors, for `sq = a²`: with d = 0 the cosine's series,
with d = 1 the sine's without its first factor a. -/
def fixSeries (sq : Nat) : (terms d : Nat) → Nat
  | 0, _ => fixOne
  | terms + 1, d => fixOne - fixMul sq (fixSeries sq terms (d + 2)) / ((d + 1) * (d + 2))

/-- The cosine of a fixed-point angle of at most π/4. -/
def fixCosSmall (a : Nat) : Nat := fixSeries (fixMul a a) 20 0

/-- The sine of a fixed-point angle of at most π/4. -/
def fixSinSmall (a : Nat) : Nat := fixMul a (fixSeries (fixMul a a) 20 1)

/-- `cos(2π·p/q)` for p/q at most a quarter turn. -/
def fixCos (p q : Nat) : Nat :=
  if 8 * p ≤ q then fixCosSmall (fixAngle p q) else fixSinSmall (fixAngle (q - 4 * p) (4 * q))

/-- `sin(2π·p/q)` for p/q at most a quarter turn. -/
def fixSin (p q : Nat) : Nat :=
  if 8 * p ≤ q then fixSinSmall (fixAngle p q) else fixCosSmall (fixAngle (q - 4 * p) (4 * q))

/-- The binary32 nearest a fixed-point number; a value of exactly 0 is +0 (R247). -/
def fixRound (sign : Bool) (v : Nat) : F32 := if v = 0 then 0 else f32Round sign v (-128)

/-- `WR[size][k] = cos(2πk/size)`, k below size/2 (R247). -/
def romWr (size k : Nat) : F32 :=
  if 4 * k ≤ size then fixRound false (fixCos k size) else fixRound true (fixCos (size - 2 * k) (2 * size))

/-- `WI[size][k] = −sin(2πk/size)`, k below size/2 (R247). -/
def romWi (size k : Nat) : F32 :=
  if 4 * k ≤ size then fixRound true (fixSin k size) else fixRound true (fixSin (size - 2 * k) (2 * size))

/-- `ICOS[n][i] = cos(2πi/n)`, i below n/4 (R247). -/
def romIcos (n i : Nat) : F32 := fixRound false (fixCos i n)

/-- `ISIN[n][i] = IRDFT_SIN_SIGN · sin(2πi/n)`, i below n/4 (R247). -/
def romIsin (sign : SinSign) (n i : Nat) : F32 := fixRound (decide (sign = .minus)) (fixSin i n)

/-- `RC[m][i] = 1 / (2·cos((i + 0.5)π/m))`, i below m/2 (R247): the angle is (2i + 1)/(4m) of a turn. -/
def romRc (m i : Nat) : F32 := fixRound false (2 ^ 255 / fixCos (2 * i + 1) (4 * m))

end Sys2Proof.Machine
end

