-- ==== Sys2Proof/Machine/Audio.lean ====
section
/-! DEFINITION. The audio transform core (44_audio_transform.md): the procedures of R252 to R254 on lists of binary32
values, and the meanings of the audio commands. A list stands for the consecutive entries the procedure works on; each
entry a procedure reads from a RAM is read as often as the pseudocode reads it (10_state.md R58). -/

namespace Sys2Proof.Machine

/-- A complex value `(re, im)`. -/
structure Cx where
  re : F32
  im : F32
deriving DecidableEq, Repr

/-! ### The FFT -/

/-- `BitRev_m(k)`: the m low bits of k in reverse order (44_audio_transform.md R248). -/
def bitRev : Nat → Nat → Nat
  | 0, _ => 0
  | m + 1, k => k % 2 * 2 ^ m + bitRev m (k / 2)

/-- Consecutive pairs of entries as complex values: `z[k] = (D[2k], D[2k+1])` (44_audio_transform.md R252). -/
def toComplex : List F32 → List Cx
  | x :: y :: rest => ⟨x, y⟩ :: toComplex rest
  | _ => []

/-- The complex values as consecutive entries. -/
def ofComplex (z : List Cx) : List F32 := z.flatMap fun c => [c.re, c.im]

/-- `tr` of a butterfly. -/
def twiddleRe (w o : Cx) : FExpr := .sub (.mul (.val w.re) (.val o.re)) (.mul (.val w.im) (.val o.im))

/-- `ti` of a butterfly. -/
def twiddleIm (w o : Cx) : FExpr := .add (.mul (.val w.re) (.val o.im)) (.mul (.val w.im) (.val o.re))

/-- The new `z[base + k]` of a butterfly (44_audio_transform.md R252). Its two assignments count as lines that store:
`z` is a view of `D`, so each component is rounded at every butterfly, not only at "write z back" (DESIGN CHOICE, log
27; it makes no difference under the reference AFP). -/
def butterflyLow (afp : Afp) (w e o : Cx) : Cx :=
  ⟨evalLine afp (.add (.val e.re) (twiddleRe w o)), evalLine afp (.add (.val e.im) (twiddleIm w o))⟩

/-- The new `z[base + k + h]` of a butterfly, rounded at every butterfly as above (log 27). -/
def butterflyHigh (afp : Afp) (w e o : Cx) : Cx :=
  ⟨evalLine afp (.sub (.val e.re) (twiddleRe w o)), evalLine afp (.sub (.val e.im) (twiddleIm w o))⟩

/-- The twiddle `(WR[size][k], WI[size][k])`. -/
def twiddle (size k : Nat) : Cx := ⟨romWr size k, romWi size k⟩

/-- The butterflies of one group of `2·h` values. They read and write disjoint pairs, so their order does not matter. -/
def butterflies (afp : Afp) (h : Nat) (z : List Cx) : List Cx :=
  (List.range h).map (fun k => butterflyLow afp (twiddle (2 * h) k) (z.getD k ⟨0, 0⟩) (z.getD (k + h) ⟨0, 0⟩)) ++
    (List.range h).map (fun k => butterflyHigh afp (twiddle (2 * h) k) (z.getD k ⟨0, 0⟩) (z.getD (k + h) ⟨0, 0⟩))

/-- One stage: the groups of `2·h` values from base 0 up, `groups` of them. -/
def fftStage (afp : Afp) (h : Nat) : Nat → List Cx → List Cx
  | 0, z => z
  | groups + 1, z => butterflies afp h (z.take (2 * h)) ++ fftStage afp h groups (z.drop (2 * h))

/-- The stages with `size = 2·2^j` for j = from, from + 1, …, `n` of them, on `2^m` values. -/
def fftStages (afp : Afp) (m : Nat) : (n from_ : Nat) → List Cx → List Cx
  | 0, _, z => z
  | n + 1, j, z => fftStages afp m n (j + 1) (fftStage afp (2 ^ j) (2 ^ (m - (j + 1))) z)

/-- `z'[k] = z[BitRev_m(k)]` on `2^m` values. -/
def bitReverse (m : Nat) (z : List Cx) : List Cx := (List.range (2 ^ m)).map fun k => z.getD (bitRev m k) ⟨0, 0⟩

/-- `FFT(D, m)` on the `2^(m+1)` entries of D (44_audio_transform.md R252). With m = 0 nothing changes. -/
def fft (afp : Afp) (m : Nat) (d : List F32) : List F32 :=
  if m = 0 then d else ofComplex (fftStages afp m m 0 (bitReverse m (toComplex d)))

/-! ### The DCT-III -/

/-- The first half of the scratch after INV's first loop: `T[off + i] = D[off + 2i]` (44_audio_transform.md R253). -/
def invEvens (half : Nat) (d : List F32) : List F32 := (List.range half).map fun i => d.getD (2 * i) 0

/-- The second half: `T[off + half] = D[off + 1]` and `T[off + i + half] = D[off + 2i − 1] ⊕ D[off + 2i + 1]`. The odd
entries are read twice; `again` holds the second reads, those of the left operands. -/
def invOdds (afp : Afp) (half : Nat) (d again : List F32) : List F32 :=
  (List.range half).map fun i =>
    if i = 0 then d.getD 1 0 else evalLine afp (.add (.val (again.getD (2 * i - 1) 0)) (.val (d.getD (2 * i + 1) 0)))

/-- `y` of INV's last loop: `T[off + i + half] ⊗ RC[m][i]`. -/
def invTerm (m i : Nat) (t : F32) : FExpr := .mul (.val t) (.val (romRc m i))

/-- INV's last loop on the transformed halves: `D[off + i] = x ⊕ y` and `D[off + m − 1 − i] = x ⊖ y`, for m = 2·half. -/
def invCombine (afp : Afp) (half : Nat) (xs ts : List F32) : List F32 :=
  (List.range half).map (fun i => evalLine afp (.add (.val (xs.getD i 0)) (invTerm (2 * half) i (ts.getD i 0)))) ++
    ((List.range half).map
      (fun i => evalLine afp (.sub (.val (xs.getD i 0)) (invTerm (2 * half) i (ts.getD i 0))))).reverse

/-- `INV(D, T, off, m)` for m = 2^bits on the m entries of D (44_audio_transform.md R253). The two recursive calls work
on disjoint halves of the scratch and leave their results there; below the first level every entry is one the command
has written, so both reads of it agree. -/
def inv (afp : Afp) : Nat → (d again : List F32) → List F32
  | 0, d, _ => d
  | bits + 1, d, again =>
    let evens := invEvens (2 ^ bits) d
    let odds := invOdds afp (2 ^ bits) d again
    invCombine afp (2 ^ bits) (inv afp bits evens evens) (inv afp bits odds odds)

/-! ### The IRDFT's input stage -/

/-- `a ⊘ f32(2)`. -/
def halved (a : FExpr) : FExpr := .div a (.val (f32OfNat 2))

/-- One iteration of IRDFT_PRE's loop (44_audio_transform.md R254): it reads its four inputs, then writes. -/
def irdftStep (afp : Afp) (sign : SinSign) (n : Nat) (d : List F32) (i : Nat) : List F32 :=
  let i1 := 2 * i
  let i2 := n - i1
  let c := FExpr.val (romIcos n i)
  let s := FExpr.val (romIsin sign n i)
  let a := FExpr.val (d.getD i1 0)
  let b := FExpr.val (d.getD i2 0)
  let cc := FExpr.val (d.getD (i1 + 1) 0)
  let e := FExpr.val (d.getD (i2 + 1) 0)
  let evenRe := halved (.add a b)
  let oddIm := halved (.sub a b)
  let evenIm := halved (.sub cc e)
  let oddRe := FExpr.neg (halved (.add cc e))
  (((d.set i1 (evalLine afp (.sub (.add evenRe (.mul oddRe c)) (.mul oddIm s)))).set
    (i1 + 1) (evalLine afp (.add (.add evenIm (.mul oddIm c)) (.mul oddRe s)))).set
    i2 (evalLine afp (.add (.sub evenRe (.mul oddRe c)) (.mul oddIm s)))).set
    (i2 + 1) (evalLine afp (.add (.add (.neg evenIm) (.mul oddIm c)) (.mul oddRe s)))

/-- IRDFT_PRE's first lines: `D[0] = (d0 ⊕ d1) ⊘ f32(2)` and `D[1] = (d0 ⊖ d1) ⊘ f32(2)`. -/
def irdftFirst (afp : Afp) (d : List F32) : List F32 :=
  let d0 := FExpr.val (d.getD 0 0)
  let d1 := FExpr.val (d.getD 1 0)
  (d.set 0 (evalLine afp (halved (.add d0 d1)))).set 1 (evalLine afp (halved (.sub d0 d1)))

/-- `IRDFT_PRE(D, n)` (44_audio_transform.md R254): i runs from 1 up to n/4 − 1. -/
def irdftPre (afp : Afp) (sign : SinSign) (n : Nat) (d : List F32) : List F32 :=
  (List.range' 1 (n / 4 - 1)).foldl (irdftStep afp sign n) (irdftFirst afp d)

/-! ### The overlap -/

/-- The mixed entry i of channel ch (44_audio_transform.md R264), with `count = ovl·ICH` and `j = ch + i·ICH`. -/
def mixLine (ich count ch i : Nat) (ow ac : F32) : FExpr :=
  let j := ch + i * ich
  .div (.add (.mul (.val ow) (.val (f32OfNat (count - j)))) (.mul (.val ac) (.val (f32OfNat j)))) (.val (f32OfNat count))

/-- The mixing of the first `ovl` entries of channel ch, when `FIRST` = 0. -/
def State.olaMix (ich ovl ch : Nat) (s : State) : State :=
  s.writeWords (acBase ch) ((List.range ovl).map fun i =>
    evalLine s.params.afp
      (mixLine ich (ovl * ich) ch i (s.readWord 0 (owBase ch + 4 * i)) (s.readWord 0 (acBase ch + 4 * i))))

/-- The saving of the last `ovl` of the `n` entries of channel ch as its window. -/
def State.olaSave (n ovl ch : Nat) (s : State) : State :=
  s.writeWords (owBase ch) (s.readWords 0 (acBase ch + 4 * (n - ovl)) ovl)

/-- AUD_OLA's work on one channel: the mixing unless `FIRST` = 1, then the saving. -/
def State.olaChannel (n ich ch : Nat) (s : State) : State :=
  (if s.audFirst then s else s.olaMix ich (n / 16) ch).olaSave n (n / 16) ch

/-! ### Commands -/

/-- The first `count` entries of `AC[ch]`. -/
def State.channel (s : State) (tag : Nat) (ch : BitVec 1) (count : Nat) : List F32 :=
  s.readWords tag (acBase ch.toNat) count

/-- Write the first entries of `AC[ch]`. -/
def State.setChannel (s : State) (ch : BitVec 1) (d : List F32) : State := s.writeWords (acBase ch.toNat) d

/-- AUD_IDCT3 chCH, NBITS (44_audio_transform.md R260); NBITS = 0 changes nothing. -/
def execAudIdct3 (ch : BitVec 1) (nbits : BitVec 4) (s : State) : Host.Outcome State Fault Refusal :=
  if nbitsLegal 0 12 nbits then
    let n := 2 ^ nbits.toNat
    if nbits.toNat = 0 then .next s.complete
    else .next (s.setChannel ch (inv s.params.afp nbits.toNat (s.channel 0 ch n) (s.channel 1 ch n))).complete
  else .next (s.raise .illegal)

/-- AUD_IRDFT chCH, NBITS (44_audio_transform.md R261). -/
def execAudIrdft (ch : BitVec 1) (nbits : BitVec 4) (s : State) : Host.Outcome State Fault Refusal :=
  if nbitsLegal 1 12 nbits then
    let n := 2 ^ nbits.toNat
    .next (s.setChannel ch
      (fft s.params.afp (nbits.toNat - 1) (irdftPre s.params.afp s.params.sinSign n (s.channel 0 ch n)))).complete
  else .next (s.raise .illegal)

/-- AUD_FFT chCH, NBITS (44_audio_transform.md R262); NBITS = 0 changes nothing. -/
def execAudFft (ch : BitVec 1) (nbits : BitVec 4) (s : State) : Host.Outcome State Fault Refusal :=
  if nbitsLegal 0 11 nbits then
    if nbits.toNat = 0 then .next s.complete
    else .next (s.setChannel ch (fft s.params.afp nbits.toNat (s.channel 0 ch (2 ^ (nbits.toNat + 1))))).complete
  else .next (s.raise .illegal)

/-- AUD_SCALE chCH, NBITS (44_audio_transform.md R263): the factor is the pattern in ARG0. -/
def execAudScale (ch : BitVec 1) (nbits : BitVec 4) (s : State) : Host.Outcome State Fault Refusal :=
  if nbitsLegal 0 12 nbits then
    .next (s.setChannel ch ((s.channel 0 ch (2 ^ nbits.toNat)).map fun x =>
      evalLine s.params.afp (.mul (.val x) (.val s.arg0)))).complete
  else .next (s.raise .illegal)

/-- AUD_OLA ichICH, NBITS (44_audio_transform.md R264): channel 0 is finished before channel 1, then FIRST ← 0. -/
def execAudOla (i2 : BitVec 1) (nbits : BitVec 4) (s : State) : Host.Outcome State Fault Refusal :=
  if nbitsLegal 4 12 nbits then
    let n := 2 ^ nbits.toNat
    let s0 := s.olaChannel n (1 + i2.toNat) 0
    let s1 := if i2 = 0 then s0 else s0.olaChannel n (1 + i2.toNat) 1
    .next { s1 with audFirst := false }.complete
  else .next (s.raise .illegal)

end Sys2Proof.Machine
end

