-- ==== Sys2Proof/Machine/BitStream.lean ====
section
/-! DEFINITION. The meanings of the bit-stream extractor's commands (40_bitstream.md R140 to R146). -/

namespace Sys2Proof.Machine

/-- A command that ends with a value in RESULT. -/
def State.withResult (s : State) (v : Word) : State := { s with result := v }

/-- BS_READ N (R140); N > 32 is ILLEGAL before any state change. -/
def execBsRead (n : BitVec 6) (s : State) : Host.Outcome State Fault Refusal :=
  if countLegal n then
    let r := s.readBits n.toNat
    .next (r.2.withResult (BitVec.ofNat 32 r.1)).complete
  else .next (s.raise .illegal)

/-- BS_PEEK N (R141); N > 32 is ILLEGAL. -/
def execBsPeek (n : BitVec 6) (s : State) : Host.Outcome State Fault Refusal :=
  if countLegal n then .next (s.withResult (BitVec.ofNat 32 (s.peekBits n.toNat))).complete
  else .next (s.raise .illegal)

/-- BS_READ1 (R142). -/
def execBsRead1 (s : State) : Host.Outcome State Fault Refusal :=
  let r := s.readBits 1
  .next (r.2.withResult (BitVec.ofNat 32 r.1)).complete

/-- BS_SKIP K (R143). -/
def execBsSkip (k : BitVec 24) (s : State) : Host.Outcome State Fault Refusal :=
  .next (s.advance k.toNat).complete

/-- BS_ALIGN32 (R144): `min(32·⌈BS_POS / 32⌉, 0xFFFFFFFF)`. -/
def execBsAlign32 (s : State) : Host.Outcome State Fault Refusal :=
  .next { s with bsPos := BitVec.ofNat 32 (min (32 * ((s.bsPos.toNat + 31) / 32)) posMax) }.complete

/-- BS_LEFT (R145). -/
def execBsLeft (s : State) : Host.Outcome State Fault Refusal :=
  .next (s.withResult (BitVec.ofNat 32 s.bitsLeft)).complete

/-- BS_SIGN (R146): the bit is read even when ARG0 is 0; the negation wraps. -/
def execBsSign (s : State) : Host.Outcome State Fault Refusal :=
  let r := s.readBits 1
  .next (r.2.withResult (if r.1 = 1 then -s.arg0 else s.arg0)).complete

end Sys2Proof.Machine
end

