-- ==== Sys2Proof/Machine/Huffman.lean ====
section
/-! DEFINITION. The Huffman symbol tree decoder (41_huffman.md): the code tables, tree building, and the meanings of
HUF_DECODE and TREE_READ. -/

namespace Sys2Proof.Machine

/-! ### Code tables -/

/-- Symbol `s` matches the peeked value `p` (41_huffman.md R163). -/
abbrev codeMatches (e : CodeEntry) (p : Nat) : Prop := p % 2 ^ e.len = e.code

/-- The greatest code length of a table, `HUFF_LEN[tb][15]` (41_huffman.md R160). -/
def maxLen (tb : CodeTable) : Nat := tb[15].len

/-- One table is well formed: items 1, 2 and 3 of 41_huffman.md R161. -/
def tableWf (tb : CodeTable) : Bool :=
  decide (maxLen tb ≤ 16) &&
  ((List.finRange 16).all fun s =>
    decide (1 ≤ tb[s].len ∧ tb[s].len ≤ maxLen tb ∧ tb[s].code < 2 ^ tb[s].len) &&
    ((List.finRange 16).all fun t =>
      decide (s ≠ t ∧ tb[s].len ≤ tb[t].len → tb[t].code % 2 ^ tb[s].len ≠ tb[s].code)))

/-- The parameter set is one a model may be built on (41_huffman.md R161): every table is well formed. -/
def tablesWf (ts : CodeTables) : Bool := (List.finRange 16).all fun tb => tableWf ts[tb]

/-- `Lookup(tb, p)` (41_huffman.md R163): the symbol that matches `p`, with its length. In a well-formed table at most
one matches, so taking the first takes the only one. -/
def lookup (tb : CodeTable) (p : Nat) : Option (Fin 16 × Nat) :=
  match (List.finRange 16).find? fun s => decide (codeMatches tb[s] p) with
  | some s => some (s, tb[s].len)
  | none => none

/-- The code table that `TREE[t].TABLE` names. -/
def State.codeTable (s : State) (t : BitVec 5) : CodeTable :=
  s.params.huff[(s.tree t).table.toNat]'(s.tree t).table.isLt

/-! ### Tree building -/

/-- Sixteen 4-bit values as a symbol map. -/
def toMap (m : List (BitVec 4)) : Vector (BitVec 4) 16 :=
  #v[m.getD 0 0, m.getD 1 0, m.getD 2 0, m.getD 3 0, m.getD 4 0, m.getD 5 0, m.getD 6 0, m.getD 7 0,
    m.getD 8 0, m.getD 9 0, m.getD 10 0, m.getD 11 0, m.getD 12 0, m.getD 13 0, m.getD 14 0, m.getD 15 0]

/-- The values 0 to 15 in ascending order. -/
def nibbles : List (BitVec 4) := [0, 1, 2, 3, 4, 5, 6, 7, 8, 9, 10, 11, 12, 13, 14, 15]

/-- Read `n` 4-bit symbols in stream order. -/
def readSymbols : Nat → State → List (BitVec 4) × State
  | 0, s => ([], s)
  | n + 1, s =>
    let r := s.readBits 4
    let rest := readSymbols n r.2
    (BitVec.ofNat 4 r.1 :: rest.1, rest.2)

/-- The map of order mode for the symbols read (41_huffman.md R172): the absent values in ascending order fill the
positions up to 15, and the rest are dropped. -/
def orderMap (syms : List (BitVec 4)) : List (BitVec 4) :=
  (syms ++ nibbles.filter fun v => !syms.contains v).take 16

/-- `OrderMode()` (41_huffman.md R172). -/
def orderMode (s : State) : List (BitVec 4) × State :=
  let len := s.readBits 3
  let r := readSymbols (len.1 + 1) len.2
  (orderMap r.1, r.2)

/-- `Merge(out, A, B)` (41_huffman.md R174), for blocks of together at most `fuel` entries: while neither is exhausted, a
bit 0 takes the next of the first block and a bit 1 the next of the second; then the remainder is copied. -/
def merge : Nat → List (BitVec 4) → List (BitVec 4) → State → List (BitVec 4) × State
  | fuel + 1, a :: as, b :: bs, s =>
    let r := s.readBits 1
    if r.1 = 0 then
      let rest := merge fuel as (b :: bs) r.2
      (a :: rest.1, rest.2)
    else
      let rest := merge fuel (a :: as) bs r.2
      (b :: rest.1, rest.2)
  | _, as, bs, s => (as ++ bs, s)

/-- One pass of shuffle mode with block size `size` over the blocks that remain (41_huffman.md R173), from base 0 up. -/
def mergePass (size : Nat) : Nat → List (BitVec 4) → State → List (BitVec 4) × State
  | 0, rest, s => (rest, s)
  | blocks + 1, l, s =>
    let r := merge (2 * size) (l.take size) ((l.drop size).take size) s
    let rest := mergePass size blocks (l.drop (2 * size)) r.2
    (r.1 ++ rest.1, rest.2)

/-- The passes `d`, `d + 1`, … of shuffle mode, `n` of them: pass `d` merges the `8 / 2^d` pairs of adjacent blocks of
size `2^d` (41_huffman.md R173). -/
def mergePasses : Nat → Nat → List (BitVec 4) → State → List (BitVec 4) × State
  | 0, _, l, s => (l, s)
  | n + 1, d, l, s =>
    let r := mergePass (2 ^ d) (8 / 2 ^ d) l s
    mergePasses n (d + 1) r.1 r.2

/-- `ShuffleMode()` (41_huffman.md R173). -/
def shuffleMode (s : State) : List (BitVec 4) × State :=
  let depth := s.readBits 2
  mergePasses (depth.1 + 1) 0 nibbles depth.2

/-- The tree that TREE_READ reads from the stream (41_huffman.md R171): mode bit 1 is order mode, 0 shuffle mode. -/
def readTree (s : State) : SymbolTree × State :=
  let tb := s.readBits 4
  if tb.1 = 0 then (⟨0, toMap nibbles⟩, tb.2)
  else
    let mode := tb.2.readBits 1
    let m := if mode.1 = 1 then orderMode mode.2 else shuffleMode mode.2
    (⟨BitVec.ofNat 4 tb.1, toMap m.1⟩, m.2)

/-! ### Commands -/

/-- HUF_DECODE tT (41_huffman.md R170). Code tables that are not well formed are refused, not interpreted (R161). -/
def execHufDecode (t : BitVec 5) (s : State) : Host.Outcome State Fault Refusal :=
  if tablesWf s.params.huff then
    match lookup (s.codeTable t) (s.peekBits (maxLen (s.codeTable t))) with
    | none => .next (s.raise .hufNoMatch)
    | some (sym, len) => .next { s.advance len with result := (s.tree t).map[sym].setWidth 32 }.complete
  else .refused .illFormedCodeTables

/-- TREE_READ tT (41_huffman.md R171): the stream is read first, then TABLE and MAP are written together. -/
def execTreeRead (t : BitVec 5) (s : State) : Host.Outcome State Fault Refusal :=
  let r := readTree s
  .next (r.2.setTree t r.1).complete

end Sys2Proof.Machine
end

