-- ==== Sys2Proof/Machine/Idct.lean ====
section
/-! DEFINITION. The AAN integer 8×8 IDCT (42_idct8x8.md). Addition, subtraction and multiplication of 32-bit vectors are
the `wrap32` of the exact result, and `sshiftRight` is `asr` (R191). -/

namespace Sys2Proof.Machine

/-- Eight values in a line: a row or a column of a block. -/
structure Line (α : Type) where
  x0 : α
  x1 : α
  x2 : α
  x3 : α
  x4 : α
  x5 : α
  x6 : α
  x7 : α
deriving DecidableEq, Repr

/-- Apply a function to each of the eight values. -/
def Line.map {α β : Type} (f : α → β) (l : Line α) : Line β :=
  ⟨f l.x0, f l.x1, f l.x2, f l.x3, f l.x4, f l.x5, f l.x6, f l.x7⟩

/-- The eight values in order. -/
def Line.toList {α : Type} (l : Line α) : List α := [l.x0, l.x1, l.x2, l.x3, l.x4, l.x5, l.x6, l.x7]

/-- The line of the values at indices 0 to 7. -/
def Line.ofFn {α : Type} (f : Nat → α) : Line α := ⟨f 0, f 1, f 2, f 3, f 4, f 5, f 6, f 7⟩

/-- An 8×8 block of 32-bit values, a line of rows. -/
abbrev Block := Line (Line Word)

/-- The block whose rows are this block's columns. -/
def Line.columns {α : Type} (b : Line (Line α)) : Line (Line α) :=
  ⟨b.map Line.x0, b.map Line.x1, b.map Line.x2, b.map Line.x3, b.map Line.x4, b.map Line.x5, b.map Line.x6, b.map Line.x7⟩

/-- `mul(C, v) = asr(wrap32(C·v), 11)` (42_idct8x8.md R191). -/
def mulShift (c v : Word) : Word := (c * v).sshiftRight 11

/-- `AAN1D(x0..x7, k, r)` (42_idct8x8.md R192). -/
def aan1d (k : Word) (r : Nat) (x : Line Word) : Line Word :=
  let a0 := x.x0 + x.x4
  let a1 := x.x0 - x.x4
  let a2 := x.x2 + x.x6
  let a3 := mulShift Config.c0 (x.x2 - x.x6)
  let a4 := x.x5 + x.x3
  let a5 := x.x5 - x.x3
  let a6 := x.x1 + x.x7
  let a7 := x.x1 - x.x7
  let b0 := a4 + a6
  let b1 := mulShift Config.c2 (a5 + a7)
  let b2 := mulShift Config.c3 a5 - b0 + b1
  let b3 := mulShift Config.c0 (a6 - a4) - b2
  let b4 := mulShift Config.c1 a7 + b3 - b1
  ⟨(a0 + k + a2 + b0).sshiftRight r,
    (a1 + k + a3 - a2 + b2).sshiftRight r,
    (a1 + k - a3 + a2 + b3).sshiftRight r,
    (a0 + k - a2 - b4).sshiftRight r,
    (a0 + k - a2 + b4).sshiftRight r,
    (a1 + k - a3 + a2 - b3).sshiftRight r,
    (a1 + k + a3 - a2 - b2).sshiftRight r,
    (a0 + k + a2 - b0).sshiftRight r⟩

/-- `IDCT2D` (42_idct8x8.md R193): the column pass with k = 0 and r = 0 into the scratch, then the row pass with k = 127
and r = 8. -/
def idct2d (cblk : Block) : Block :=
  let scratch := (cblk.columns.map (aan1d 0 0)).columns
  scratch.map (aan1d 127 8)

/-- The block `CBLK[0..63]`, entry `8·r + c` in row r and column c (10_state.md R48); each entry is read once. -/
def State.cblk (s : State) : Block := Line.ofFn fun r => Line.ofFn fun c => s.readWord 0 (cblkBase + 4 * (8 * r + c))

/-- Row `r` of a block. -/
def blockRow (b : Block) (r : Nat) : Line Word := b.toList.getD r (Line.ofFn fun _ => 0)

/-- `u8` of each value of a row: the wrapping byte store (42_idct8x8.md R196). -/
def rowBytes (y : Line Word) : List Byte := y.toList.map fun v => v.setWidth 8

/-- Add a row of outputs to 8 bytes, each `u8(CUR[a] + Y)` (42_idct8x8.md R196). -/
def addBytes (old : List Byte) (y : Line Word) : List Byte := List.zipWith (· + ·) old (rowBytes y)

/-- IDCT_PUT's store of one row. -/
def putRow (y : Block) (a r : Nat) (s : State) : State := s.writeBytes (s.curRow a r) (rowBytes (blockRow y r))

/-- IDCT_ADD's read, add and store of one row. -/
def addRow (y : Block) (a r : Nat) (s : State) : State :=
  s.writeBytes (s.curRow a r) (addBytes (s.readBytes 0 (s.curRow a r) 8) (blockRow y r))

/-- IDCT_PUT (42_idct8x8.md R197). -/
def execIdctPut (s : State) : Host.Outcome State Fault Refusal :=
  if s.inBlock s.dst then .next (s.forRows (putRow (idct2d s.cblk) s.dst)).complete
  else .next (s.raise .range)

/-- IDCT_ADD (42_idct8x8.md R198). -/
def execIdctAdd (s : State) : Host.Outcome State Fault Refusal :=
  if s.inBlock s.dst then .next (s.forRows (addRow (idct2d s.cblk) s.dst)).complete
  else .next (s.raise .range)

/-- IDCT_INT (42_idct8x8.md R199): the 64 outputs row-major into OBLK, without a range check. -/
def execIdctInt (s : State) : Host.Outcome State Fault Refusal :=
  .next (s.writeWords oblkBase ((idct2d s.cblk).toList.flatMap Line.toList)).complete

end Sys2Proof.Machine
end

