-- ==== Sys2Proof/Machine/Motion.lean ====
section
/-! DEFINITION. The motion-compensation unit and NOP (43_motion_copy.md). -/

namespace Sys2Proof.Machine

/-- NOP (43_motion_copy.md R230): only the completion. -/
def execNop (s : State) : Host.Outcome State Fault Refusal := .next s.complete

/-- The source offset of MC_COPY8, an integer without wrap: `dst + XOFF + YOFF·st`, both offsets signed
(30_encoding.md R103, 43_motion_copy.md R224). -/
def State.mcSrc (s : State) (xoff yoff : BitVec 8) : Int := (s.dst : Int) + xoff.toInt + yoff.toInt * (s.stride : Int)

/-- MC_COPY8's copy of one row. The rows of a block may read one byte of PREV more than once; the row number tells
those reads apart (10_state.md R58). -/
def copyRow (src dst r : Nat) (s : State) : State := s.writeBytes (s.curRow dst r) (s.readBytes r (s.prevRow src r) 8)

/-- MC_COPY8 XOFF, YOFF (43_motion_copy.md R224): the range check of both blocks comes before the zero-vector case. -/
def execMcCopy8 (xoff yoff : BitVec 8) (s : State) : Host.Outcome State Fault Refusal :=
  if s.inBlock s.dst && s.inBlock (s.mcSrc xoff yoff) then
    if s.mcSrc xoff yoff = s.dst then .next s.complete
    else .next (s.forRows (copyRow (s.mcSrc xoff yoff).toNat s.dst)).complete
  else .next (s.raise .range)

/-- FRAME_COPY (43_motion_copy.md R225): `PX_LEN` bytes from one pixel buffer to the other. -/
def execFrameCopy (dir : CopyDir) (s : State) : Host.Outcome State Fault Refusal :=
  match dir with
  | .prevToCur => .next (s.writeBytes curBase (s.readBytes 0 prevBase s.pxLen.toNat)).complete
  | .curToPrev => .next (s.writeBytes prevBase (s.readBytes 0 curBase s.pxLen.toNat)).complete

end Sys2Proof.Machine
end

