-- ==== Sys2Proof/Machine/Dispatch.lean ====
section
/-! DEFINITION. One arm per command: its meaning (60_exceptions.md R300, "run the rule of opcode w[7:0]"). -/

namespace Sys2Proof.Machine

def exec (i : Instr) (s : State) : Host.Outcome State Fault Refusal :=
  match i with
  | .nop => Sys2Proof.Machine.execNop s
  | .bsRead n => Sys2Proof.Machine.execBsRead n s
  | .bsPeek n => Sys2Proof.Machine.execBsPeek n s
  | .bsRead1 => Sys2Proof.Machine.execBsRead1 s
  | .bsSkip k => Sys2Proof.Machine.execBsSkip k s
  | .bsAlign32 => Sys2Proof.Machine.execBsAlign32 s
  | .bsLeft => Sys2Proof.Machine.execBsLeft s
  | .bsSign => Sys2Proof.Machine.execBsSign s
  | .hufDecode t => Sys2Proof.Machine.execHufDecode t s
  | .treeRead t => Sys2Proof.Machine.execTreeRead t s
  | .mcCopy8 xoff yoff => Sys2Proof.Machine.execMcCopy8 xoff yoff s
  | .frameCopy dir => Sys2Proof.Machine.execFrameCopy dir s
  | .idctPut => Sys2Proof.Machine.execIdctPut s
  | .idctAdd => Sys2Proof.Machine.execIdctAdd s
  | .idctInt => Sys2Proof.Machine.execIdctInt s
  | .audIdct3 ch nbits => Sys2Proof.Machine.execAudIdct3 ch nbits s
  | .audIrdft ch nbits => Sys2Proof.Machine.execAudIrdft ch nbits s
  | .audFft ch nbits => Sys2Proof.Machine.execAudFft ch nbits s
  | .audScale ch nbits => Sys2Proof.Machine.execAudScale ch nbits s
  | .audOla i2 nbits => Sys2Proof.Machine.execAudOla i2 nbits s

end Sys2Proof.Machine
end

