-- ==== Sys2Proof/Machine/Engine.lean ====
section
/-! DEFINITION. The two agents' steps and which of them moves (20_memory.md R84, 60_exceptions.md R300). -/

namespace Sys2Proof.Machine

/-- The engine's step on the accepted word (60_exceptions.md R300): an illegal word fails with ILLEGAL, a legal one runs
its command's rule. -/
def engineStep (s : State) : Host.Outcome State Fault Refusal :=
  match decode s.cmdl with
  | .ok i => exec i s
  | .error _ => .next (s.raise .illegal)

/-- It is the engine's turn: a command is in flight, and the host accesses that come before its completion are over. A
step may happen at any point after the CMD write that started it (20_memory.md R84); once the host is silent, the
command completes (70_reset_and_hazards.md R360: it eventually does). -/
def State.engineTurn (s : State) : Bool := s.busy && (s.hostq.isEmpty || s.latency == 0)

/-- The host's step: its next access, in the order it issues them (20_memory.md R84). With no access and no command in
flight the block is idle (60_exceptions.md R327), and nothing changes. -/
def hostStep (s : State) : Host.Outcome State Fault Refusal :=
  match s.hostq with
  | [] => .next s
  | a :: rest => { s with hostq := rest, latency := s.latency - 1 }.hostAccess a

/-- The word in CMDL, the command accepted and its completion next: what the step runs as its next command. -/
def State.withCommand (s : State) (w : Word) : State := { s with cmdl := w, busy := true, latency := 0 }

end Sys2Proof.Machine
end

