-- ==== Sys2Proof/Machine/Step.lean ====
section
/-! DEFINITION. One step of the block: a whole command, or one host access (20_memory.md R84). -/

namespace Sys2Proof.Machine

/-- One step of the sequential interleaving of host accesses and engine steps (20_memory.md R84). -/
def step (s : State) : Host.Outcome State Fault Refusal := if s.engineTurn then engineStep s else hostStep s

/-- `s` with the instruction whose low `nbits` bits are `w` where the step takes its next command from: a command is not
fetched (20_memory.md R87) but stands in the latch CMDL while BUSY = 1, so this is `s` after the accepted CMD write. -/
def State.withFetchWord (s : State) (nbits w : Nat) : State := s.withCommand (tableWord nbits w)

end Sys2Proof.Machine
end

