-- ==== Sys2Proof/Safety.lean ====
section
/-! DEFINITION. The terms that statements about the block use: what a run keeps (the invariant), what a byte or a word of
the RAMs holds, the rules of 30_encoding.md R105 and 20_memory.md R71 in plain arithmetic, and the reference forms of
the procedures of 42_idct8x8.md and 44_audio_transform.md that the model's functions are compared with. -/

namespace Sys2Proof.Machine

/-! ### The contents of the RAMs -/

/-- The four bytes of word `w` are held at offset `a`, little-endian (20_memory.md R74). -/
def Memory.holdsWord (m : Memory) (a : Nat) (w : Word) : Prop :=
  m.held a = some (w.extractLsb' 0 8) ∧ m.held (a + 1) = some (w.extractLsb' 8 8) ∧
    m.held (a + 2) = some (w.extractLsb' 16 8) ∧ m.held (a + 3) = some (w.extractLsb' 24 8)

/-- Every byte outside a region holds what it held. -/
def Memory.sameOutside (region : Nat → Prop) (m m' : Memory) : Prop := ∀ a, ¬ region a → m'.held a = m.held a

/-- The offset lies in the 8×8 block of `CUR` at byte offset `dst` with stride `st` (43_motion_copy.md R220). -/
def inCurBlock (dst st a : Nat) : Prop := ∃ r c, r < 8 ∧ c < 8 ∧ a = curBase + dst + r * st + c

/-- Row `r`, column `c` is the last pixel of a block with stride `st` that lies on its byte: no later row covers it
(20_memory.md R89). With a stride of 8 or more every pixel is. -/
def lastVisit (st r c : Nat) : Prop := ∀ r' c', r < r' → r' < 8 → c' < 8 → r' * st + c' ≠ r * st + c

/-- Output `Y[8r + c]` of a block. -/
def blockAt (y : Block) (r c : Nat) : Word := (blockRow y r).toList.getD c 0

/-- What IDCT_ADD adds to the byte at distance `k` from the block's first: the outputs of every pixel that lies on it,
one for each visit (42_idct8x8.md R198, 20_memory.md R89). -/
def visitSum (y : Block) (st k : Nat) : Byte :=
  ((List.range 8).map fun r =>
    ((List.range 8).map fun c => if r * st + c = k then (blockAt y r c).setWidth 8 else 0).sum).sum

/-- A command that ended with the error of this code: the report of 60_exceptions.md R303, then the completion. -/
def State.failedWith (s : State) (code : BitVec 4) : State :=
  ({ s with err := true, errcode := code, errinfo := s.cmdl, irqErri := true } : State).complete

/-- The commands that write RESULT (10_state.md R36). -/
def writesResult : Instr → Bool
  | .bsRead _ | .bsPeek _ | .bsRead1 | .bsLeft | .bsSign | .hufDecode _ => true
  | _ => false

/-! ### The invariant -/

/-- The offset is a byte of one of the RAMs (20_memory.md R71). -/
def ramByte (p : Params) (a : Nat) : Prop := ramWindow p a ∨ inWindow oblkBase 0x100 a

/-- The memory is in its canonical form and lists only bytes of the RAMs. -/
def State.MemoryLegal (s : State) : Prop := s.mem.wf ∧ ∀ c ∈ s.mem, ramByte s.params c.1

/-- The WARL length registers hold legal values (10_state.md R40, R43). -/
def State.LengthsLegal (s : State) : Prop := s.bsLen.toNat ≤ s.params.bsmBytes ∧ s.pxLen.toNat ≤ s.params.pxmBytes

/-- `ERRCODE` and `ERRINFO` are 0 whenever `ERR` = 0 (10_state.md R32, R37); a held error has one of the three codes that
are ever reported (60_exceptions.md R302). -/
def State.ErrorRecordLegal (s : State) : Prop :=
  (s.err = false → s.errcode = 0 ∧ s.errinfo = 0) ∧ (s.err = true → s.errcode = 1 ∨ s.errcode = 2 ∨ s.errcode = 3)

/-- "`BUSY` = 1 implies `ERR` = 0" (60_exceptions.md R300), and a soft reset is pending only while a command is in
flight (70_reset_and_hazards.md R341). -/
def State.LifecycleLegal (s : State) : Prop := (s.busy = true → s.err = false) ∧ (s.srstPend = true → s.busy = true)

/-- What every step keeps. -/
def State.Inv (s : State) : Prop := s.MemoryLegal ∧ s.LengthsLegal ∧ s.ErrorRecordLegal ∧ s.LifecycleLegal

/-- A host access addressed to the block. -/
def HostAccess.toBlock (p : Params) (a : HostAccess) : Prop := p.base ≤ a.addr ∧ a.addr < p.base + windowBytes

/-! ### The rules in plain arithmetic -/

/-- The opcodes of format FN (30_encoding.md R104). -/
def fnOpcode (opc : Nat) : Prop :=
  opc = 0 ∨ opc = 3 ∨ opc = 5 ∨ opc = 6 ∨ opc = 7 ∨ opc = 0x30 ∨ opc = 0x31 ∨ opc = 0x32

/-- Case 1 of 30_encoding.md R105: the ranges of `w[7:0]` that are no opcode. -/
def unknownOpcode (w : Nat) : Prop :=
  (0x08 ≤ w % 256 ∧ w % 256 ≤ 0x0F) ∨ (0x12 ≤ w % 256 ∧ w % 256 ≤ 0x1F) ∨ (0x22 ≤ w % 256 ∧ w % 256 ≤ 0x2F) ∨
    (0x33 ≤ w % 256 ∧ w % 256 ≤ 0x3F) ∨ 0x45 ≤ w % 256

/-- Case 2 of 30_encoding.md R105: a reserved bit of the format is 1 (30_encoding.md R102), or a fixed field differs. -/
def reservedSet (w : Nat) : Prop :=
  (fnOpcode (w % 256) ∧ w / 2 ^ 8 ≠ 0) ∨
  ((w % 256 = 1 ∨ w % 256 = 2) ∧ w / 2 ^ 14 ≠ 0) ∨
  ((w % 256 = 0x10 ∨ w % 256 = 0x11) ∧ w / 2 ^ 13 ≠ 0) ∨
  (w % 256 = 0x20 ∧ w / 2 ^ 24 ≠ 0) ∨
  (w % 256 = 0x21 ∧ w / 2 ^ 9 ≠ 0) ∨
  (0x40 ≤ w % 256 ∧ w % 256 ≤ 0x44 ∧ (w / 2 ^ 10 % 4 ≠ 0 ∨ w / 2 ^ 16 ≠ 0)) ∨
  (0x40 ≤ w % 256 ∧ w % 256 ≤ 0x43 ∧ w / 2 ^ 9 % 2 ≠ 0) ∨
  (w % 256 = 0x44 ∧ w / 2 ^ 8 % 2 ≠ 0)

/-- Case 3 of 30_encoding.md R105: `N` or `NBITS` out of the range of 30_encoding.md R104. -/
def fieldOutOfRange (w : Nat) : Prop :=
  ((w % 256 = 1 ∨ w % 256 = 2) ∧ 32 < w / 2 ^ 8 % 64) ∨
  ((w % 256 = 0x40 ∨ w % 256 = 0x43) ∧ 12 < w / 2 ^ 12 % 16) ∨
  (w % 256 = 0x41 ∧ (w / 2 ^ 12 % 16 < 1 ∨ 12 < w / 2 ^ 12 % 16)) ∨
  (w % 256 = 0x42 ∧ 11 < w / 2 ^ 12 % 16) ∨
  (w % 256 = 0x44 ∧ (w / 2 ^ 12 % 16 < 4 ∨ 12 < w / 2 ^ 12 % 16))

/-- The word is illegal (30_encoding.md R105). -/
def illegalWord (w : Nat) : Prop := unknownOpcode w ∨ reservedSet w ∨ fieldOutOfRange w

/-- The three items of 41_huffman.md R161, for every table: the lengths, the ranges of the codes, and the codes
prefix-free in stream order. -/
def codeTablesLegal (ts : CodeTables) : Prop :=
  ∀ tb : Fin 16, ∀ a : Fin 16,
    1 ≤ ts[tb][a].len ∧ ts[tb][a].len ≤ ts[tb][15].len ∧ ts[tb][15].len ≤ 16 ∧
    ts[tb][a].code < 2 ^ ts[tb][a].len ∧
    ∀ b : Fin 16, a ≠ b → ts[tb][a].len ≤ ts[tb][b].len → ts[tb][b].code % 2 ^ ts[tb][a].len ≠ ts[tb][a].code

/-- The rows of 20_memory.md R71 that are mapped, with the sizes the parameters give. -/
def mappedOffset (p : Params) (off : Nat) : Prop :=
  off < 0x40 ∨ (0x400 ≤ off ∧ off < 0x600) ∨ (0x800 ≤ off ∧ off < 0xA00) ∨ (0x10000 ≤ off ∧ off < 0x18800) ∨
    (0x100000 ≤ off ∧ off < 0x100000 + p.bsmBytes) ∨ (0x1000000 ≤ off ∧ off < 0x1000000 + p.pxmBytes) ∨
    (0x2000000 ≤ off ∧ off < 0x2000000 + p.pxmBytes)

/-! ### Reference forms -/

/-- How many of the `n` stream bits from position `p` are 0: the entries that a merge has taken from its first block
after `n` bits (41_huffman.md R174). -/
def State.zerosFrom (s : State) (p n : Nat) : Nat := (List.range n).countP fun k => !s.streamBit (p + k)

/-- Pass `d` of `ShuffleMode()` over the sixteen entries `x.1` (41_huffman.md R173): for base = 0, 2s, 4s, … below 16
with s = 2^d, the blocks at base and at base + s are merged into the output. -/
def shufflePass (x : List (BitVec 4) × State) (d : Nat) : List (BitVec 4) × State :=
  (List.range (8 / 2 ^ d)).foldl
    (fun out j =>
      let base := j * (2 * 2 ^ d)
      let m := merge (2 * 2 ^ d) ((x.1.drop base).take (2 ^ d)) ((x.1.drop (base + 2 ^ d)).take (2 ^ d)) out.2
      (out.1 ++ m.1, m.2))
    ([], x.2)

/-- Output `Y[8r + c]` of `IDCT2D` on the 64 entries `x`, as 42_idct8x8.md R193 writes it: the column pass with k = 0 and
r = 0 gives the scratch, then the row pass with k = 127 and r = 8 gives row r. -/
def idctEntry (x : Nat → Word) (r c : Nat) : Word :=
  let scratch := fun i j => (aan1d 0 0 (Line.ofFn fun k => x (8 * k + j))).toList.getD i 0
  (aan1d 127 8 (Line.ofFn fun j => scratch r j)).toList.getD c 0

/-- `d'` is what `IRDFT_PRE(D, n)` leaves of `d`, entry by entry (44_audio_transform.md R254): the iterations of its loop
work on disjoint entries, and `D[n/2]` and `D[n/2 + 1]` pass through. -/
def isIrdftPre (afp : Afp) (sign : SinSign) (n : Nat) (d d' : List F32) : Prop :=
  let x := fun j => FExpr.val (d.getD j 0)
  let half := fun e => FExpr.div e (.val (f32OfNat 2))
  d'.length = d.length ∧
  d'.getD 0 0 = evalLine afp (half (.add (x 0) (x 1))) ∧
  d'.getD 1 0 = evalLine afp (half (.sub (x 0) (x 1))) ∧
  (∀ i, 1 ≤ i → i < n / 4 →
    let c := FExpr.val (romIcos n i)
    let s := FExpr.val (romIsin sign n i)
    let evenRe := half (.add (x (2 * i)) (x (n - 2 * i)))
    let oddIm := half (.sub (x (2 * i)) (x (n - 2 * i)))
    let evenIm := half (.sub (x (2 * i + 1)) (x (n - 2 * i + 1)))
    let oddRe := FExpr.neg (half (.add (x (2 * i + 1)) (x (n - 2 * i + 1))))
    d'.getD (2 * i) 0 = evalLine afp (.sub (.add evenRe (.mul oddRe c)) (.mul oddIm s)) ∧
    d'.getD (2 * i + 1) 0 = evalLine afp (.add (.add evenIm (.mul oddIm c)) (.mul oddRe s)) ∧
    d'.getD (n - 2 * i) 0 = evalLine afp (.add (.sub evenRe (.mul oddRe c)) (.mul oddIm s)) ∧
    d'.getD (n - 2 * i + 1) 0 = evalLine afp (.add (.add (.neg evenIm) (.mul oddIm c)) (.mul oddRe s))) ∧
  (4 ≤ n → d'.getD (n / 2) 0 = d.getD (n / 2) 0 ∧ d'.getD (n / 2 + 1) 0 = d.getD (n / 2 + 1) 0)

/-- `wrap32` on integers (00_scope.md R11). -/
def wrap32 (v : Int) : Int := (v + 2 ^ 31) % 2 ^ 32 - 2 ^ 31

/-- `mul(C, v) = asr(wrap32(C·v), 11)` on integers (42_idct8x8.md R191). -/
def mulExact (c v : Int) : Int := wrap32 (c * v) / 2 ^ 11

/-- `AAN1D` on integers, wrapping only at each `mul` and at the end (42_idct8x8.md R192, its last paragraph). -/
def aanExact (k : Int) (r : Nat) (x : Line Int) : Line Int :=
  let a0 := x.x0 + x.x4
  let a1 := x.x0 - x.x4
  let a2 := x.x2 + x.x6
  let a3 := mulExact 2896 (x.x2 - x.x6)
  let a4 := x.x5 + x.x3
  let a5 := x.x5 - x.x3
  let a6 := x.x1 + x.x7
  let a7 := x.x1 - x.x7
  let b0 := a4 + a6
  let b1 := mulExact 3784 (a5 + a7)
  let b2 := mulExact (-5352) a5 - b0 + b1
  let b3 := mulExact 2896 (a6 - a4) - b2
  let b4 := mulExact 2217 a7 + b3 - b1
  Line.map (fun v => wrap32 v / 2 ^ r)
    ⟨a0 + k + a2 + b0, a1 + k + a3 - a2 + b2, a1 + k - a3 + a2 + b3, a0 + k - a2 - b4,
      a0 + k - a2 + b4, a1 + k - a3 + a2 - b3, a1 + k + a3 - a2 - b2, a0 + k + a2 - b0⟩

/-- The first loop of INV in place: the scratch T after it (44_audio_transform.md R253). -/
def inPlaceSplit (afp : Afp) (half off : Nat) (d t : List F32) : List F32 :=
  (List.range' 1 (half - 1)).foldl
    (fun t i => (t.set (off + i) (d.getD (off + 2 * i) 0)).set (off + i + half)
      (evalLine afp (.add (.val (d.getD (off + 2 * i - 1) 0)) (.val (d.getD (off + 2 * i + 1) 0)))))
    ((t.set off (d.getD off 0)).set (off + half) (d.getD (off + 1) 0))

/-- The last loop of INV in place: the data D after it (44_audio_transform.md R253). -/
def inPlaceCombine (afp : Afp) (half off : Nat) (d t : List F32) : List F32 :=
  (List.range half).foldl
    (fun d i =>
      let x := FExpr.val (t.getD (off + i) 0)
      let y := FExpr.mul (.val (t.getD (off + i + half) 0)) (.val (romRc (2 * half) i))
      (d.set (off + i) (evalLine afp (.add x y))).set (off + 2 * half - 1 - i) (evalLine afp (.sub x y)))
    d

/-- `INV(D, T, off, 2^bits)` with the two buffers as the rule has them, the second the scratch, and their roles swapped
in the recursive calls (44_audio_transform.md R253); it gives D and T after the call. -/
def inPlaceInv (afp : Afp) : (bits off : Nat) → (d t : List F32) → List F32 × List F32
  | 0, _, d, t => (d, t)
  | bits + 1, off, d, t =>
    let t1 := inPlaceSplit afp (2 ^ bits) off d t
    let first := inPlaceInv afp bits off t1 d
    let second := inPlaceInv afp bits (off + 2 ^ bits) first.1 first.2
    (inPlaceCombine afp (2 ^ bits) off second.2 second.1, second.1)

/-- The butterfly at `base + k` in place, its lines as 44_audio_transform.md R252 writes them. -/
def inPlaceButterfly (afp : Afp) (h base : Nat) (z : List Cx) (k : Nat) : List Cx :=
  let wr := FExpr.val (romWr (2 * h) k)
  let wi := FExpr.val (romWi (2 * h) k)
  let er := FExpr.val (z.getD (base + k) ⟨0, 0⟩).re
  let ei := FExpr.val (z.getD (base + k) ⟨0, 0⟩).im
  let or' := FExpr.val (z.getD (base + k + h) ⟨0, 0⟩).re
  let oi := FExpr.val (z.getD (base + k + h) ⟨0, 0⟩).im
  let tr := FExpr.sub (.mul wr or') (.mul wi oi)
  let ti := FExpr.add (.mul wr oi) (.mul wi or')
  (z.set (base + k) ⟨evalLine afp (.add er tr), evalLine afp (.add ei ti)⟩).set (base + k + h)
    ⟨evalLine afp (.sub er tr), evalLine afp (.sub ei ti)⟩

/-- The three loops of `FFT(D, m)` in place on `2^m` complex values, after the permutation (44_audio_transform.md R252):
size = 2·2^j, base = 0, size, 2·size, …, and k below size/2. -/
def inPlaceFft (afp : Afp) (m : Nat) (z : List Cx) : List Cx :=
  (List.range m).foldl
    (fun z j =>
      (List.range (2 ^ (m - (j + 1)))).foldl
        (fun z g => (List.range (2 ^ j)).foldl (inPlaceButterfly afp (2 ^ j) (g * (2 * 2 ^ j))) z) z)
    z

/-- The permuted input of `FFT(D, m)`: `z'[k] = z[BitRev_m(k)]` with `z[k] = (D[2k], D[2k+1])`
(44_audio_transform.md R252). -/
def fftInput (m : Nat) (d : List F32) : List Cx :=
  (List.range (2 ^ m)).map fun k => ⟨d.getD (2 * bitRev m k) 0, d.getD (2 * bitRev m k + 1) 0⟩

/-- The rational number a finite binary32 pattern stands for; none for infinities and NaNs. -/
def f32Rat (x : F32) : Option Rat :=
  match f32Value x with
  | .fin sign m e => some ((if sign then -1 else 1) * (m : Rat) * (2 : Rat) ^ e)
  | _ => none

/-- The pattern is a NaN. -/
def f32IsNan (x : F32) : Prop := f32Value x = .nan

/-- `x` is the binary32 number nearest `v`, ties to even; an infinity exactly where rounding reaches 2^128
(44_audio_transform.md R242 item 1). -/
def roundsTo (v : Rat) (x : F32) : Prop :=
  ((2 ^ 25 - 1) * 2 ^ 103 ≤ |v| → f32Value x = .inf (decide (v < 0))) ∧
  (|v| < (2 ^ 25 - 1) * 2 ^ 103 → ∃ vx, f32Rat x = some vx ∧
    ∀ y vy, f32Rat y = some vy → |vx - v| ≤ |vy - v| ∧ (|vx - v| = |vy - v| → vx = vy ∨ x.getLsbD 0 = false))

end Sys2Proof.Machine
end

