-- ==== Sys2Proof/Certificates/Slice0/Obligations.lean ====
section
/-! DEFINITION. The statements for the provers. A completion `.complete` is the one of 60_exceptions.md R300, which
CompletionOfEveryCommand states field by field; `failedWith` is the report of R303 before that completion. -/

open Sys2Proof Sys2Proof.Machine

/-! ### Encoding (30_encoding.md) -/

/-- 30_encoding.md R102 to R104: decoding the word of a well-formed command gives the command back. -/
def Obligations.DecodeOfEncode : Prop := ∀ i : Instr, i.wf = true → decode (encode i) = .ok i

/-- 30_encoding.md R104, R106: a word with the verdict "this command" is that command's word, and the command is well
formed: every legal word has one meaning and every bit of it is determined. -/
def Obligations.EncodeOfDecode : Prop := ∀ (w : Word) (i : Instr), decode w = .ok i → i.wf = true ∧ encode i = w

/-- 30_encoding.md R111, all its worked encodings, and the illegal ones among them. -/
def Obligations.WorkedEncodings : Prop :=
  decode 0x00002001 = .ok (.bsRead 32) ∧
  decode 0x00002101 = .error (.fieldRange 0x00002101) ∧
  decode 0x00000204 = .ok (.bsSkip 2) ∧
  decode 0x00001F11 = .ok (.treeRead 31) ∧
  decode 0x00000020 = .ok (.mcCopy8 0 0) ∧
  decode 0x00807F20 = .ok (.mcCopy8 127 (-128)) ∧
  decode 0x00000021 = .ok (.frameCopy .prevToCur) ∧
  decode 0x00000031 = .ok .idctAdd ∧
  decode 0x0000C041 = .ok (.audIrdft 0 12) ∧
  decode 0x0000C042 = .error (.fieldRange 0x0000C042) ∧
  decode 0x0000B044 = .ok (.audOla 0 11) ∧
  decode 0x0000B043 = .ok (.audScale 0 11)

/-- 30_encoding.md R105: a word is illegal in exactly its cases, and the command then ends with ILLEGAL and the word in
ERRINFO, without any other effect. -/
def Obligations.IllegalWords : Prop :=
  (∀ w : Word, (∀ i, decode w ≠ .ok i) ↔ illegalWord w.toNat) ∧
  (∀ s : State, illegalWord s.cmdl.toNat → engineStep s = .next (s.failedWith 1))

/-! ### Steps (20_memory.md R84, 60_exceptions.md R300) -/

/-- A step runs the decoded command: when a command is in flight and it is the engine's turn, the step is the meaning of
the command whose word is in CMDL (60_exceptions.md R300); nothing is added around it. That it is the engine's turn
exactly when no host access waits or `latency` is 0 is the model's choice (log 3): 20_memory.md R84 lets the engine's
step come at any point. -/
def Obligations.StepRunsTheCommand : Prop :=
  ∀ (s : State) (i : Instr), s.busy = true → (s.hostq = [] ∨ s.latency = 0) → decode s.cmdl = .ok i → step s = exec i s

/-- 60_exceptions.md R300: every completion clears BUSY and sets DONE, keeps everything else when no soft reset is
pending, and takes the pending soft reset when there is one. The count `draws` is the model's own field (log 5). -/
def Obligations.CompletionOfEveryCommand : Prop :=
  ∀ s : State,
    (s.srstPend = false → s.complete = { s with busy := false, irqDone := true, draws := s.draws + 1 }) ∧
    (s.srstPend = true →
      s.complete = ({ s with busy := false, irqDone := true, draws := s.draws + 1 } : State).softReset)

/-- 60_exceptions.md R303 and R302: the errors are precise. A command that ends with an error has one of the three codes,
reports its word, and leaves everything else as it was but for the completion. -/
def Obligations.ErrorsArePrecise : Prop :=
  ∀ (i : Instr) (s t : State), s.err = false → s.srstPend = false → exec i s = .next t → t.err = true →
    (t.errcode = 1 ∨ t.errcode = 2 ∨ t.errcode = 3) ∧
    t = { s with
      err := true
      errcode := t.errcode
      errinfo := s.cmdl
      irqErri := true
      busy := false
      irqDone := true
      draws := s.draws + 1 }

/-- 70_reset_and_hazards.md R341: a soft reset pending at a command's completion follows it in the same step, and the
command keeps its effects on the RAMs: the result is the soft reset of what the command leaves without the request. -/
def Obligations.PendingResetFollowsCommand : Prop :=
  ∀ (i : Instr) (s t : State), s.srstPend = false → exec i s = .next t →
    exec i { s with srstPend := true } = .next t.softReset

/-- 70_reset_and_hazards.md R360: an accepted command's step comes after finitely many steps, no later than the host
accesses that the free value `latency` lets by, whatever those accesses are; until then the command stays in flight. -/
def Obligations.AcceptedCommandIsExecuted : Prop :=
  ∀ s : State, s.busy = true → (∀ a ∈ s.hostq, HostAccess.toBlock s.params a) →
    ∃ (k : Nat) (t : State), k ≤ s.latency ∧ k ≤ s.hostq.length ∧ core.run k s = .next t ∧
      t.busy = true ∧ t.cmdl = s.cmdl ∧ step t = engineStep t

/-! ### Invariants -/

/-- Every step keeps the invariant: the memory stays in its canonical form and within the RAMs, the length registers
stay legal, the error record and the lifecycle flags stay consistent. -/
def Obligations.StepKeepsInvariant : Prop := ∀ s t : State, s.Inv → step s = .next t → t.Inv

/-- The invariant holds after power-on reset. -/
def Obligations.ResetHasInvariant : Prop := State.reset.Inv

/-- 10_state.md R57: the values of both columns of the reset table; a RAM location holds nothing at power-on and keeps
what it holds at a soft reset; the parameters, the code tables among them, are constant. -/
def Obligations.ResetValues : Prop :=
  (∀ s : State, s = State.reset ∨ (∃ t : State, s = t.softReset) →
    s.statusWord = 0 ∧ s.readReg .ctrl = 0 ∧ s.arg0 = 0 ∧ s.result = 0 ∧ s.errinfo = 0 ∧ s.irqStatusWord = 0 ∧
    s.irqEnWord = 0 ∧ s.bsLen = 0 ∧ s.bsPos = 0 ∧ s.pxStride = 0 ∧ s.pxLen = 0 ∧ s.audFirst = true ∧
    (∀ t, (s.tree t).table = 0 ∧ ∀ k : Fin 16, (s.tree t).map[k] = BitVec.ofNat 4 k.val) ∧
    s.cmdl = 0 ∧ s.srstPend = false ∧ s.readReg .id = 0x314B4255 ∧ s.readReg .params = paramsWord s.params) ∧
  (∀ a, State.reset.held a = none) ∧
  (∀ (s : State) (a : Nat), s.softReset.held a = s.held a ∧ s.softReset.params = s.params)

/-! ### What the commands leave alone -/

/-- 10_state.md R35, R40, R42, R43 and R56: no command writes ARG0, BS_LEN, PX_STRIDE, PX_LEN, the interrupt enables, the
bus flags or the parameters, and every completed command leaves BUSY = 0 and DONE = 1. That CMDL keeps its word after
the completion is the model's choice (log 15): R54 fixes it only while BUSY = 1. `latency`, `hostq` and `replies` are
the model's own fields (logs 3 and 4). With a reset pending, see PendingResetFollowsCommand. -/
def Obligations.CommandsLeaveTheHostsRegisters : Prop :=
  ∀ (i : Instr) (s t : State), s.srstPend = false → exec i s = .next t →
    t.params = s.params ∧ t.arg0 = s.arg0 ∧ t.bsLen = s.bsLen ∧ t.pxStride = s.pxStride ∧ t.pxLen = s.pxLen ∧
    t.doneEn = s.doneEn ∧ t.erriEn = s.erriEn ∧ t.overrun = s.overrun ∧ t.buserr = s.buserr ∧ t.cmdl = s.cmdl ∧
    t.srstPend = false ∧ t.latency = s.latency ∧ t.hostq = s.hostq ∧ t.replies = s.replies ∧
    t.busy = false ∧ t.irqDone = true

/-- 10_state.md R36: only the six named commands write RESULT, and a command that ends with an error leaves it. -/
def Obligations.ResultIsWrittenBySixCommands : Prop :=
  ∀ (i : Instr) (s t : State), s.srstPend = false → exec i s = .next t →
    (writesResult i = false ∨ (s.err = false ∧ t.err = true)) → t.result = s.result

/-- 41_huffman.md R165 and 10_state.md R57: a step changes a tree only by a TREE_READ into it, by a host write into its
window, or by a soft reset (one that was pending, or one that the step's CTRL write asks for), which leaves its reset
value. The host's write is the first access of `hostq`, the model's input list (log 4). -/
def Obligations.TreesChangeOnlyAsListed : Prop :=
  ∀ (s t : State) (k : BitVec 5), step s = .next t → t.tree k ≠ s.tree k →
    (s.busy = true ∧ decode s.cmdl = .ok (.treeRead k)) ∨
    (s.busy = false ∧ ∃ a v, s.hostq.head? = some a ∧ a.width = 4 ∧ a.op = .write v ∧
      ((s.params.base + 0x400 + 16 * k.toNat ≤ a.addr ∧ a.addr < s.params.base + 0x400 + 16 * k.toNat + 16) ∨
        (a.addr = s.params.base + 0x008 ∧ v.getLsbD 0 = true ∧ t.tree k = SymbolTree.reset))) ∨
    (s.busy = true ∧ s.srstPend = true ∧ t.tree k = SymbolTree.reset)

/-- 10_state.md R48 and R50, 42_idct8x8.md R194: no command writes CBLK or BSM. The premise is the invariant that PX_LEN
is legal. -/
def Obligations.CommandsLeaveCblkAndBsm : Prop :=
  ∀ (i : Instr) (s t : State) (a : Nat), s.LengthsLegal → exec i s = .next t →
    (inWindow cblkBase 0x100 a ∨ inWindow bsmBase s.params.bsmBytes a) → t.held a = s.held a

/-! ### NOP and the bit-stream extractor -/

/-- 43_motion_copy.md R230: NOP does only the completion. -/
def Obligations.NopOnlyCompletes : Prop :=
  ∀ s : State, s.srstPend = false →
    exec .nop s = .next { s with busy := false, irqDone := true, draws := s.draws + 1 }

/-- 40_bitstream.md R140 and R141: RESULT is the N stream bits from BS_POS, the first the least significant; BS_READ
advances BS_POS by N, saturating (R133), and BS_PEEK leaves it; N above 32 is ILLEGAL. Stream bit p, which every
statement about the stream is over, is bit p mod 8 of byte p / 8 of BSM below BS_LEN, and 0 from there on (R130); the
bits of a byte never written are free (log 1). -/
def Obligations.BsReadAndPeekResults : Prop :=
  ∀ (n : BitVec 6) (s : State),
    (n.toNat ≤ 32 → ∃ v p : Word,
      (∀ i, i < 32 → v.getLsbD i = (decide (i < n.toNat) && s.streamBit (s.bsPos.toNat + i))) ∧
      p.toNat = min (s.bsPos.toNat + n.toNat) 0xFFFFFFFF ∧
      exec (.bsRead n) s = .next ({ s with result := v, bsPos := p } : State).complete ∧
      exec (.bsPeek n) s = .next ({ s with result := v } : State).complete) ∧
    (32 < n.toNat →
      exec (.bsRead n) s = .next (s.failedWith 1) ∧ exec (.bsPeek n) s = .next (s.failedWith 1)) ∧
    (∀ p : Nat,
      (s.bsLen.toNat ≤ p / 8 → s.streamBit p = false) ∧
      (∀ b : Byte, p / 8 < s.bsLen.toNat → s.held (bsmBase + p / 8) = some b →
        s.streamBit p = b.getLsbD (p % 8)))

/-- 40_bitstream.md R142, R143 and R145, with R133 and R134: BS_READ1, BS_SKIP and BS_LEFT. -/
def Obligations.BsReadOneSkipLeftResults : Prop :=
  ∀ s : State,
    (∃ p : Word, p.toNat = min (s.bsPos.toNat + 1) 0xFFFFFFFF ∧
      exec .bsRead1 s = .next ({ s with
        result := if s.streamBit s.bsPos.toNat then 1 else 0
        bsPos := p } : State).complete) ∧
    (∀ k : BitVec 24, ∃ p : Word, p.toNat = min (s.bsPos.toNat + k.toNat) 0xFFFFFFFF ∧
      exec (.bsSkip k) s = .next ({ s with bsPos := p } : State).complete) ∧
    (s.LengthsLegal → ∃ v : Word, (v.toNat : Int) = max 0 (8 * (s.bsLen.toNat : Int) - s.bsPos.toNat) ∧
      exec .bsLeft s = .next ({ s with result := v } : State).complete)

/-- 40_bitstream.md R144: BS_POS becomes the least multiple of 32 that is not below it, or saturates. -/
def Obligations.BsAlignResult : Prop :=
  ∀ s : State, ∃ (p : Word) (m : Nat),
    s.bsPos.toNat ≤ 32 * m ∧ 32 * m < s.bsPos.toNat + 32 ∧ p.toNat = min (32 * m) 0xFFFFFFFF ∧
    exec .bsAlign32 s = .next ({ s with bsPos := p } : State).complete

/-- 40_bitstream.md R146: BS_SIGN always reads one bit, and negates ARG0 modulo 2^32 when it is 1. -/
def Obligations.BsSignResult : Prop :=
  ∀ s : State, ∃ v p : Word,
    exec .bsSign s = .next ({ s with result := v, bsPos := p } : State).complete ∧
    v.toNat = (if s.streamBit s.bsPos.toNat then (2 ^ 32 - s.arg0.toNat) % 2 ^ 32 else s.arg0.toNat) ∧
    p.toNat = min (s.bsPos.toNat + 1) 0xFFFFFFFF

/-- 40_bitstream.md R147, for bytes the host has written: BS_PEEK N and then BS_READ N give the same RESULT, and BS_POS
then is `min(BS_POS + N, 0xFFFFFFFF)`. Over bytes never written 10_state.md R58 lets two reads differ (log 23). -/
def Obligations.PeekThenReadAgree : Prop :=
  ∀ (n : BitVec 6) (s t u : State), n.toNat ≤ 32 → s.srstPend = false →
    (∀ b, b < s.bsLen.toNat → s.bsPos.toNat < 8 * b + 8 → 8 * b < s.bsPos.toNat + n.toNat →
      ∃ x, s.held (bsmBase + b) = some x) →
    exec (.bsPeek n) s = .next t → exec (.bsRead n) t = .next u →
    u.result = t.result ∧ u.bsPos.toNat = min (s.bsPos.toNat + n.toNat) 0xFFFFFFFF

/-! ### Huffman decoding and trees -/

/-- 41_huffman.md R170 and R163: the symbol whose code is the next stream bits, bit 0 of the code first, gives its MAP
entry in RESULT and is consumed; when no code matches, HUF_NOMATCH. For well-formed tables. -/
def Obligations.HufDecodeResult : Prop :=
  ∀ (t : BitVec 5) (s : State), tablesWf s.params.huff = true →
    (∀ sym : Fin 16,
      (∀ j, j < (s.codeTable t)[sym].len → (s.codeTable t)[sym].code.testBit j = s.streamBit (s.bsPos.toNat + j)) →
      ∃ p : Word, p.toNat = min (s.bsPos.toNat + (s.codeTable t)[sym].len) 0xFFFFFFFF ∧
        exec (.hufDecode t) s =
          .next ({ s with result := (s.tree t).map[sym].setWidth 32, bsPos := p } : State).complete) ∧
    ((∀ sym : Fin 16, ∃ j, j < (s.codeTable t)[sym].len ∧
        (s.codeTable t)[sym].code.testBit j ≠ s.streamBit (s.bsPos.toNat + j)) →
      exec (.hufDecode t) s = .next (s.failedWith 3))

/-- 41_huffman.md R161: the model refuses HUF_DECODE under code tables that break one of the rule's three items, and
under tables that meet them HUF_DECODE completes; `tablesWf`, the premise of the next and the previous statement, is
exactly the three items. That the refusal takes place at HUF_DECODE is the model's choice (log 8). -/
def Obligations.IllFormedTablesAreRefused : Prop :=
  ∀ (t : BitVec 5) (s : State),
    (¬ codeTablesLegal s.params.huff → exec (.hufDecode t) s = .refused .illFormedCodeTables) ∧
    (codeTablesLegal s.params.huff → ∃ u, exec (.hufDecode t) s = .next u) ∧
    (tablesWf s.params.huff = true ↔ codeTablesLegal s.params.huff)

/-- 41_huffman.md R164: on a complete table (the Kraft sum is 1) HUF_DECODE never ends with HUF_NOMATCH. -/
def Obligations.CompleteTableAlwaysMatches : Prop :=
  ∀ (t : BitVec 5) (s u : State), tablesWf s.params.huff = true → s.err = false → s.srstPend = false →
    ((List.finRange 16).map fun a => (2 : Rat)⁻¹ ^ (s.codeTable t)[a].len).sum = 1 →
    exec (.hufDecode t) s = .next u → u.err = false

/-- 41_huffman.md R171 and R175: TREE_READ completes from every state, writes TABLE and MAP of its tree and BS_POS and
nothing else; the table is the first four bits; table 0 is the identity in 4 bits; order mode (mode bit 1) takes 12 to
40 bits, shuffle mode 15 to 56. The premise is the invariant that BS_LEN is legal. -/
def Obligations.TreeReadResult : Prop :=
  ∀ (k : BitVec 5) (s : State), s.LengthsLegal →
    ∃ (tr : SymbolTree) (n : Nat) (p : Word),
      exec (.treeRead k) s =
        .next ({ s with trees := s.trees.set k.toNat tr k.isLt, bsPos := p } : State).complete ∧
      p.toNat = min (s.bsPos.toNat + n) 0xFFFFFFFF ∧
      tr.table.toNat = s.bitsFrom s.bsPos.toNat 4 ∧
      (s.bitsFrom s.bsPos.toNat 4 = 0 → n = 4 ∧ ∀ i : Fin 16, tr.map[i] = BitVec.ofNat 4 i.val) ∧
      (s.bitsFrom s.bsPos.toNat 4 ≠ 0 → s.streamBit (s.bsPos.toNat + 4) = true →
        n = 12 + 4 * s.bitsFrom (s.bsPos.toNat + 5) 3) ∧
      (s.bitsFrom s.bsPos.toNat 4 ≠ 0 → s.streamBit (s.bsPos.toNat + 4) = false → 15 ≤ n ∧ n ≤ 56)

/-- 41_huffman.md R172: in order mode the len+1 symbols read stand first, then the absent values in ascending order with
none left out before the sixteen entries are full; 3 + 4·(len+1) bits follow the mode bit. -/
def Obligations.OrderModeMap : Prop :=
  ∀ (k : BitVec 5) (s : State), s.LengthsLegal →
    s.bitsFrom s.bsPos.toNat 4 ≠ 0 → s.streamBit (s.bsPos.toNat + 4) = true →
    ∃ (tr : SymbolTree) (p : Word),
      exec (.treeRead k) s =
        .next ({ s with trees := s.trees.set k.toNat tr k.isLt, bsPos := p } : State).complete ∧
      p.toNat = min (s.bsPos.toNat + 5 + 3 + 4 * (s.bitsFrom (s.bsPos.toNat + 5) 3 + 1)) 0xFFFFFFFF ∧
      (∀ i : Fin 16, i.val ≤ s.bitsFrom (s.bsPos.toNat + 5) 3 →
        tr.map[i] = BitVec.ofNat 4 (s.bitsFrom (s.bsPos.toNat + 8 + 4 * i.val) 4)) ∧
      (∀ i j : Fin 16, s.bitsFrom (s.bsPos.toNat + 5) 3 < i.val → i < j → tr.map[i] < tr.map[j]) ∧
      (∀ i j : Fin 16, i.val ≤ s.bitsFrom (s.bsPos.toNat + 5) 3 → s.bitsFrom (s.bsPos.toNat + 5) 3 < j.val →
        tr.map[i] ≠ tr.map[j]) ∧
      (∀ (j : Fin 16) (v : BitVec 4), s.bitsFrom (s.bsPos.toNat + 5) 3 < j.val → v < tr.map[j] →
        ∃ i : Fin 16, i < j ∧ tr.map[i] = v)

/-- 41_huffman.md R173: shuffle mode runs the passes d = 0 to depth, pass d merging adjacent blocks of 2^d entries from
base 0 up, over the identity; its map is always a permutation of 0..15. Which block a bit takes from is in
MergeKeepsOrder. -/
def Obligations.ShuffleModePermutes : Prop :=
  ∀ (k : BitVec 5) (s : State), s.LengthsLegal →
    s.bitsFrom s.bsPos.toNat 4 ≠ 0 → s.streamBit (s.bsPos.toNat + 4) = false →
    ∃ (tr : SymbolTree) (p q : Word),
      exec (.treeRead k) s =
        .next ({ s with trees := s.trees.set k.toNat tr k.isLt, bsPos := p } : State).complete ∧
      q.toNat = min (s.bsPos.toNat + 7) 0xFFFFFFFF ∧
      (tr.map.toList, { s with bsPos := p }) = (List.range (s.bitsFrom (s.bsPos.toNat + 5) 2 + 1)).foldl shufflePass
        ((List.range 16).map (BitVec.ofNat 4), { s with bsPos := q }) ∧
      ∀ v : BitVec 4, ∃ i : Fin 16, tr.map[i] = v ∧ ∀ j : Fin 16, tr.map[j] = v → j = i

/-- 41_huffman.md R174: a merge of two blocks of s entries keeps the order of each block, loses nothing, and reads
between s and 2s − 1 bits: each bit 0 takes the next entry of the first block and each bit 1 the next of the second,
until one block is exhausted, and the rest follows. The premise of the last part is the invariant that BS_LEN is
legal. -/
def Obligations.MergeKeepsOrder : Prop :=
  ∀ (size : Nat) (as bs : List (BitVec 4)) (s : State), 1 ≤ size → as.length = size → bs.length = size →
    (merge (2 * size) as bs s).1.Perm (as ++ bs) ∧
    as.Sublist (merge (2 * size) as bs s).1 ∧ bs.Sublist (merge (2 * size) as bs s).1 ∧
    ∃ (n : Nat) (p : Word), size ≤ n ∧ n ≤ 2 * size - 1 ∧ p.toNat = min (s.bsPos.toNat + n) 0xFFFFFFFF ∧
      (merge (2 * size) as bs s).2 = { s with bsPos := p } ∧
      (s.LengthsLegal →
        let zeros := s.zerosFrom s.bsPos.toNat
        (∀ k, k < n → zeros k < size ∧ k - zeros k < size ∧
          (merge (2 * size) as bs s).1[k]? =
            if s.streamBit (s.bsPos.toNat + k) then bs[k - zeros k]? else as[zeros k]?) ∧
        (zeros n = size ∨ n - zeros n = size) ∧
        (merge (2 * size) as bs s).1.drop n = as.drop (zeros n) ++ bs.drop (n - zeros n))

/-! ### Motion compensation and pixel copies -/

/-- 43_motion_copy.md R224 and R222: the range check of both blocks comes first; equal offsets copy nothing; else each
pixel that no later row covers receives the byte of PREV at its place in the source block, and nothing else changes. The
premise is the invariant that PX_LEN is legal. -/
def Obligations.McCopyResult : Prop :=
  ∀ (xoff yoff : BitVec 8) (s : State) (src : Int), s.LengthsLegal →
    src = (s.arg0.toNat : Int) + xoff.toInt + yoff.toInt * s.pxStride.toNat →
    (¬ (s.arg0.toNat + 7 * s.pxStride.toNat + 7 < s.pxLen.toNat ∧ 0 ≤ src ∧
        src + 7 * s.pxStride.toNat + 7 < s.pxLen.toNat) →
      exec (.mcCopy8 xoff yoff) s = .next (s.failedWith 2)) ∧
    (s.arg0.toNat + 7 * s.pxStride.toNat + 7 < s.pxLen.toNat → 0 ≤ src →
        src + 7 * s.pxStride.toNat + 7 < s.pxLen.toNat →
      (src = s.arg0.toNat → exec (.mcCopy8 xoff yoff) s = .next s.complete) ∧
      (src ≠ s.arg0.toNat → ∃ m : Memory,
        exec (.mcCopy8 xoff yoff) s = .next ({ s with mem := m } : State).complete ∧
        Memory.sameOutside (inCurBlock s.arg0.toNat s.pxStride.toNat) s.mem m ∧
        ∀ r c, r < 8 → c < 8 → lastVisit s.pxStride.toNat r c →
          m.held (curBase + s.arg0.toNat + r * s.pxStride.toNat + c) =
            some (s.readByte r (prevBase + src.toNat + r * s.pxStride.toNat + c))))

/-- 43_motion_copy.md R225: FRAME_COPY copies the PX_LEN bytes of one buffer over the other's and changes nothing else. -/
def Obligations.FrameCopyResult : Prop :=
  ∀ (dir : CopyDir) (s : State), ∃ (src dst : Nat) (m : Memory),
    (dir = .prevToCur → src = prevBase ∧ dst = curBase) ∧ (dir = .curToPrev → src = curBase ∧ dst = prevBase) ∧
    exec (.frameCopy dir) s = .next ({ s with mem := m } : State).complete ∧
    Memory.sameOutside (inWindow dst s.pxLen.toNat) s.mem m ∧
    ∀ a, a < s.pxLen.toNat → m.held (dst + a) = some (s.readByte 0 (src + a))

/-! ### The IDCT -/

/-- 42_idct8x8.md R191 and R192: the 1-D pass on 32-bit vectors is the pass on exact integers that wraps only at each
`mul` and at the end, with arithmetic shifts. -/
def Obligations.Aan1dIsTheExactPass : Prop :=
  ∀ (k : Word) (r : Nat) (x : Line Word), (aan1d k r x).map BitVec.toInt = aanExact k.toInt r (x.map BitVec.toInt)

/-- 42_idct8x8.md R201: a block with only its DC entry gives `asr(CBLK[0] + 127, 8)` everywhere, which is v for
`CBLK[0]` = 256·v in range. -/
def Obligations.DcOnlyBlock : Prop :=
  ∀ (dc : Word) (b : Block), blockAt b 0 0 = dc →
    (∀ r c, r < 8 → c < 8 → (r ≠ 0 ∨ c ≠ 0) → blockAt b r c = 0) →
    ∀ r c, r < 8 → c < 8 →
      blockAt (idct2d b) r c = (dc + 127).sshiftRight 8 ∧
      ∀ v : Int, dc.toInt = 256 * v → 256 * v + 127 < 2 ^ 31 → (blockAt (idct2d b) r c).toInt = v

/-- 42_idct8x8.md R197 and R195: IDCT_PUT stores `u8` of each output at the pixels of the block, the later row winning,
and nothing else changes; a block outside PX_LEN is RANGE. -/
def Obligations.IdctPutResult : Prop :=
  ∀ s : State,
    (s.arg0.toNat + 7 * s.pxStride.toNat + 7 < s.pxLen.toNat → ∃ m : Memory,
      exec .idctPut s = .next ({ s with mem := m } : State).complete ∧
      Memory.sameOutside (inCurBlock s.arg0.toNat s.pxStride.toNat) s.mem m ∧
      ∀ r c, r < 8 → c < 8 → lastVisit s.pxStride.toNat r c →
        m.held (curBase + s.arg0.toNat + r * s.pxStride.toNat + c) =
          some ((blockAt (idct2d s.cblk) r c).setWidth 8)) ∧
    (s.pxLen.toNat ≤ s.arg0.toNat + 7 * s.pxStride.toNat + 7 → exec .idctPut s = .next (s.failedWith 2))

/-- 42_idct8x8.md R198: IDCT_ADD adds to each byte of the block, modulo 256, the outputs of every pixel that lies on it,
and nothing else changes; a block outside PX_LEN is RANGE. -/
def Obligations.IdctAddResult : Prop :=
  ∀ s : State,
    (s.arg0.toNat + 7 * s.pxStride.toNat + 7 < s.pxLen.toNat → ∃ m : Memory,
      exec .idctAdd s = .next ({ s with mem := m } : State).complete ∧
      Memory.sameOutside (inCurBlock s.arg0.toNat s.pxStride.toNat) s.mem m ∧
      ∀ r c, r < 8 → c < 8 →
        m.held (curBase + s.arg0.toNat + r * s.pxStride.toNat + c) =
          some (s.readByte 0 (curBase + s.arg0.toNat + r * s.pxStride.toNat + c) +
            visitSum (idct2d s.cblk) s.pxStride.toNat (r * s.pxStride.toNat + c))) ∧
    (s.pxLen.toNat ≤ s.arg0.toNat + 7 * s.pxStride.toNat + 7 → exec .idctAdd s = .next (s.failedWith 2))

/-- 42_idct8x8.md R199 and R193: IDCT_INT writes the 64 outputs to OBLK, row-major, from every state, and nothing else;
the outputs, which IDCT_PUT and IDCT_ADD use too, are those of the column pass with k = 0 and r = 0 and then the row
pass with k = 127 and r = 8, on CBLK row-major (10_state.md R48). -/
def Obligations.IdctIntResult : Prop :=
  ∀ s : State, ∃ m : Memory,
    exec .idctInt s = .next ({ s with mem := m } : State).complete ∧
    Memory.sameOutside (inWindow oblkBase 256) s.mem m ∧
    ∀ r c, r < 8 → c < 8 →
      m.holdsWord (oblkBase + 4 * (8 * r + c)) (blockAt (idct2d s.cblk) r c) ∧
      blockAt (idct2d s.cblk) r c = idctEntry (fun i => s.readWord 0 (cblkBase + 4 * i)) r c

/-! ### The audio transform core -/

/-- 44_audio_transform.md R263: AUD_SCALE multiplies the first 2^NBITS entries of AC[CH] by the pattern in ARG0, and
nothing else changes; NBITS above 12 is ILLEGAL. -/
def Obligations.AudScaleResult : Prop :=
  ∀ (ch : BitVec 1) (nbits : BitVec 4) (s : State),
    (nbits.toNat ≤ 12 → ∃ m : Memory,
      exec (.audScale ch nbits) s = .next ({ s with mem := m } : State).complete ∧
      Memory.sameOutside (inWindow (acBase ch.toNat) (4 * 2 ^ nbits.toNat)) s.mem m ∧
      ∀ i, i < 2 ^ nbits.toNat → m.holdsWord (acBase ch.toNat + 4 * i)
        (evalLine s.params.afp (.mul (.val (s.readWord 0 (acBase ch.toNat + 4 * i))) (.val s.arg0)))) ∧
    (12 < nbits.toNat → exec (.audScale ch nbits) s = .next (s.failedWith 1))

/-- 44_audio_transform.md R264: AUD_OLA mixes the first n/16 entries of each channel with its window unless FIRST = 1,
saves the last n/16 entries as the window, clears FIRST, and changes nothing else; NBITS outside 4..12 is ILLEGAL. -/
def Obligations.AudOlaResult : Prop :=
  ∀ (i2 : BitVec 1) (nbits : BitVec 4) (s : State) (n ovl ich : Nat),
    n = 2 ^ nbits.toNat → ovl = n / 16 → ich = 1 + i2.toNat →
    (4 ≤ nbits.toNat → nbits.toNat ≤ 12 → ∃ m : Memory,
      exec (.audOla i2 nbits) s = .next ({ s with mem := m, audFirst := false } : State).complete ∧
      Memory.sameOutside
        (fun a => ∃ ch, ch < ich ∧
          (inWindow (owBase ch) (4 * ovl) a ∨ (s.audFirst = false ∧ inWindow (acBase ch) (4 * ovl) a))) s.mem m ∧
      ∀ ch i, ch < ich → i < ovl →
        m.holdsWord (owBase ch + 4 * i) (s.readWord 0 (acBase ch + 4 * (n - ovl + i))) ∧
        (s.audFirst = false → m.holdsWord (acBase ch + 4 * i) (evalLine s.params.afp
          (.div (.add (.mul (.val (s.readWord 0 (owBase ch + 4 * i))) (.val (f32OfNat (ovl * ich - (ch + i * ich)))))
              (.mul (.val (s.readWord 0 (acBase ch + 4 * i))) (.val (f32OfNat (ch + i * ich)))))
            (.val (f32OfNat (ovl * ich))))))) ∧
    (nbits.toNat < 4 ∨ 12 < nbits.toNat → exec (.audOla i2 nbits) s = .next (s.failedWith 1))

/-- 44_audio_transform.md R260 to R262: the transforms complete from every state, change only their entries of AC[CH],
and leave there what their procedures compute from the entries read; NBITS = 0 changes nothing for AUD_IDCT3 and
AUD_FFT; NBITS out of range is ILLEGAL. The entries the IRDFT's FFT starts from are those of IRDFT_PRE (R254). Under
another AFP which lines round is the model's choice (logs 9, 10 and 27); what an unwritten entry reads as is log 1. -/
def Obligations.AudTransformResults : Prop :=
  ∀ (ch : BitVec 1) (nbits : BitVec 4) (s : State),
    (nbits.toNat = 0 → exec (.audIdct3 ch nbits) s = .next s.complete ∧ exec (.audFft ch nbits) s = .next s.complete ∧
      exec (.audIrdft ch nbits) s = .next (s.failedWith 1)) ∧
    (1 ≤ nbits.toNat → nbits.toNat ≤ 12 → ∃ m : Memory,
      exec (.audIdct3 ch nbits) s = .next ({ s with mem := m } : State).complete ∧
      Memory.sameOutside (inWindow (acBase ch.toNat) (4 * 2 ^ nbits.toNat)) s.mem m ∧
      ∀ i, i < 2 ^ nbits.toNat → m.holdsWord (acBase ch.toNat + 4 * i)
        ((inv s.params.afp nbits.toNat (s.readWords 0 (acBase ch.toNat) (2 ^ nbits.toNat))
          (s.readWords 1 (acBase ch.toNat) (2 ^ nbits.toNat))).getD i 0)) ∧
    (1 ≤ nbits.toNat → nbits.toNat ≤ 12 → ∃ m : Memory,
      exec (.audIrdft ch nbits) s = .next ({ s with mem := m } : State).complete ∧
      Memory.sameOutside (inWindow (acBase ch.toNat) (4 * 2 ^ nbits.toNat)) s.mem m ∧
      ∀ i, i < 2 ^ nbits.toNat → m.holdsWord (acBase ch.toNat + 4 * i)
        ((fft s.params.afp (nbits.toNat - 1) (irdftPre s.params.afp s.params.sinSign (2 ^ nbits.toNat)
          (s.readWords 0 (acBase ch.toNat) (2 ^ nbits.toNat)))).getD i 0)) ∧
    (1 ≤ nbits.toNat → ∀ (afp : Afp) (sign : SinSign) (d : List F32), d.length = 2 ^ nbits.toNat →
      isIrdftPre afp sign (2 ^ nbits.toNat) d (irdftPre afp sign (2 ^ nbits.toNat) d)) ∧
    (1 ≤ nbits.toNat → nbits.toNat ≤ 11 → ∃ m : Memory,
      exec (.audFft ch nbits) s = .next ({ s with mem := m } : State).complete ∧
      Memory.sameOutside (inWindow (acBase ch.toNat) (8 * 2 ^ nbits.toNat)) s.mem m ∧
      ∀ i, i < 2 * 2 ^ nbits.toNat → m.holdsWord (acBase ch.toNat + 4 * i)
        ((fft s.params.afp nbits.toNat (s.readWords 0 (acBase ch.toNat) (2 * 2 ^ nbits.toNat))).getD i 0)) ∧
    (12 < nbits.toNat → exec (.audIdct3 ch nbits) s = .next (s.failedWith 1) ∧
      exec (.audIrdft ch nbits) s = .next (s.failedWith 1)) ∧
    (11 < nbits.toNat → exec (.audFft ch nbits) s = .next (s.failedWith 1))

/-- 44_audio_transform.md R253: INV as the rule writes it, in place on two buffers whose roles the recursive calls swap,
leaves in D exactly the values of the model's function of the m entries, and changes no other entry of D. That the
local y stands inside the lines that store is the model's reading under another AFP (log 10). -/
def Obligations.InvIsTheInPlaceProcedure : Prop :=
  ∀ (afp : Afp) (bits off : Nat) (d t : List F32), off + 2 ^ bits ≤ d.length → off + 2 ^ bits ≤ t.length →
    (inPlaceInv afp bits off d t).1 =
      d.take off ++ inv afp bits ((d.drop off).take (2 ^ bits)) ((d.drop off).take (2 ^ bits)) ++
        d.drop (off + 2 ^ bits)

/-- 44_audio_transform.md R252: the FFT is the rule's three in-place loops, with its butterfly written out, on the pairs
of entries of D in bit-reversed order, and writes the values back as pairs; the model's stages compute the loops on any
values. The exact twiddles that R247 names are as it says. Under another
AFP, that tr and ti stand inside the lines that store (log 10) and that z is rounded at every butterfly (log 27) is the
model's choice. -/
def Obligations.FftIsTheInPlaceProcedure : Prop :=
  (∀ (afp : Afp) (m : Nat) (z : List Cx), z.length = 2 ^ m → inPlaceFft afp m z = fftStages afp m m 0 z) ∧
  (∀ (afp : Afp) (m : Nat) (d : List F32), d.length = 2 ^ (m + 1) →
    (fft afp m d).length = 2 ^ (m + 1) ∧
    ∀ k, k < 2 ^ m →
      (fft afp m d).getD (2 * k) 0 = ((inPlaceFft afp m (fftInput m d)).getD k ⟨0, 0⟩).re ∧
      (fft afp m d).getD (2 * k + 1) 0 = ((inPlaceFft afp m (fftInput m d)).getD k ⟨0, 0⟩).im) ∧
  (∀ j, 1 ≤ j → j ≤ 11 → romWr (2 ^ j) 0 = 0x3F800000 ∧ romWi (2 ^ j) 0 = 0 ∧
    (2 ≤ j → romWr (2 ^ j) (2 ^ j / 4) = 0))

/-- 44_audio_transform.md R248: `BitRev_m(k)` is k with its m low bits in reverse order, below 2^m. -/
def Obligations.BitReversal : Prop :=
  ∀ m k : Nat, k < 2 ^ m → bitRev m k < 2 ^ m ∧ ∀ j, j < m → (bitRev m k).testBit j = k.testBit (m - 1 - j)

/-- 44_audio_transform.md R242 item 1: on finite operands each operator of the reference instantiation gives the nearest
binary32 number to the exact result, ties to even. A line is evaluated operator by operator, nothing fused; `⊖` flips bit 31 of
every pattern (item 4); `f32(q)` is exact for q ≤ 2^24 (R243). The layout of a pattern and the overflow to an infinity where
rounding reaches 2^128 are IEEE 754's, which the spec names and does not restate (log 19). -/
def Obligations.ReferenceOperatorsRoundToNearest : Prop :=
  (∀ (a b : F32) (va vb : Rat), f32Rat a = some va → f32Rat b = some vb →
    roundsTo (va + vb) (f32Add a b) ∧ roundsTo (va - vb) (f32Sub a b) ∧ roundsTo (va * vb) (f32Mul a b) ∧
    (vb ≠ 0 → roundsTo (va / vb) (f32Div a b))) ∧
  (∀ (x : F32) (e f : FExpr),
    let value := evalLine .reference
    value (.val x) = x ∧ value (.add e f) = f32Add (value e) (value f) ∧
    value (.sub e f) = f32Sub (value e) (value f) ∧ value (.mul e f) = f32Mul (value e) (value f) ∧
    value (.div e f) = f32Div (value e) (value f) ∧ value (.neg e) = f32Neg (value e)) ∧
  (∀ (a : F32) (i : Nat), i < 32 → (f32Neg a).getLsbD i = if i = 31 then !a.getLsbD 31 else a.getLsbD i) ∧
  (∀ q : Nat, q ≤ 2 ^ 24 → f32Rat (f32OfNat q) = some (q : Rat))

/-- 44_audio_transform.md R242 item 3: every operator whose result is a NaN returns the canonical pattern, and a NaN
operand gives a NaN; `⊖` is exempt, since it only flips bit 31 (item 4). Which patterns are NaNs is log 19. -/
def Obligations.NanResultsAreCanonical : Prop :=
  ∀ (op : F32 → F32 → F32) (a b : F32), op = f32Add ∨ op = f32Sub ∨ op = f32Mul ∨ op = f32Div →
    (f32IsNan (op a b) → op a b = 0x7FC00000) ∧ (f32IsNan a ∨ f32IsNan b → op a b = 0x7FC00000)

/-- 44_audio_transform.md R243: in the reference instantiation division by 2 equals multiplication by 0.5 (both round, on
odd subnormals; the pattern layout is log 19). -/
def Obligations.DivisionByTwoIsTimesOneHalf : Prop := ∀ a : F32, f32Div a (f32OfNat 2) = f32Mul a 0x3F000000

/-- 44_audio_transform.md R263, its corner case: the factor 1.0 leaves every pattern that is no NaN unchanged and turns
NaN patterns into the canonical one. Which patterns are NaNs is log 19. -/
def Obligations.ScaleByOne : Prop :=
  ∀ x : F32, (¬ f32IsNan x → f32Mul x 0x3F800000 = x) ∧ (f32IsNan x → f32Mul x 0x3F800000 = 0x7FC00000)

/-! ### The host's side -/

/-- 60_exceptions.md R300 and R301: a write to CMD is dropped with OVERRUN while a command is in flight, dropped with no
effect while ERR = 1, and else accepted. The latency of an accepted command is the free value of log 3. -/
def Obligations.CommandWriteHasOneOfThreeEffects : Prop :=
  ∀ (s : State) (w : Word),
    (s.busy = true → s.access 0x00C 4 (.write w) = { s with overrun := true, irqErri := true }) ∧
    (s.busy = false → s.err = true → s.access 0x00C 4 (.write w) = s) ∧
    (s.busy = false → s.err = false →
      s.access 0x00C 4 (.write w) = { s with cmdl := w, busy := true, latency := Config.latency s.draws })

/-- 60_exceptions.md R308: writing 1 to STATUS.ERR clears ERR, ERRCODE and ERRINFO and reopens the command gate; ERRI
stays. -/
def Obligations.AcknowledgementReopensTheGate : Prop :=
  ∀ (s : State) (v w : Word), s.busy = false → v.getLsbD 1 = true →
    ∃ t, s.access 0x004 4 (.write v) = t ∧ t.err = false ∧ t.errcode = 0 ∧ t.errinfo = 0 ∧ t.irqErri = s.irqErri ∧
      t.busy = false ∧ (t.access 0x00C 4 (.write w)).busy = true ∧ (t.access 0x00C 4 (.write w)).cmdl = w

/-- 10_state.md R32: STATUS as read has its fields at their places, and a write clears exactly the write-one-to-clear
flags whose bits are 1. -/
def Obligations.StatusRegister : Prop :=
  ∀ s : State,
    s.statusWord.toNat =
      s.busy.toNat + 2 * s.err.toNat + 4 * s.overrun.toNat + 8 * s.buserr.toNat + 16 * s.errcode.toNat ∧
    (s.access 0x004 4 .read).replies = s.statusWord :: s.replies ∧
    ∀ v : Word, s.access 0x004 4 (.write v) = { s with
      err := if v.getLsbD 1 then false else s.err
      errcode := if v.getLsbD 1 then 0 else s.errcode
      errinfo := if v.getLsbD 1 then 0 else s.errinfo
      overrun := if v.getLsbD 2 then false else s.overrun
      buserr := if v.getLsbD 3 then false else s.buserr }

/-- 60_exceptions.md R306, 10_state.md R38 and R39: the interrupt is the level of its formula; enabling a pending source
raises it at once (without delay: log 20), and writing 1 to a status bit clears that bit alone. -/
def Obligations.InterruptLevel : Prop :=
  ∀ (s : State) (v : Word),
    (s.irq = true ↔ (s.irqDone = true ∧ s.doneEn = true) ∨ (s.irqErri = true ∧ s.erriEn = true)) ∧
    s.access 0x020 4 (.write v) = { s with doneEn := v.getLsbD 0, erriEn := v.getLsbD 1 } ∧
    s.access 0x01C 4 (.write v) = { s with
      irqDone := if v.getLsbD 0 then false else s.irqDone
      irqErri := if v.getLsbD 1 then false else s.irqErri } ∧
    ((s.irqDone = true ∨ s.irqErri = true) → v = 3 → (s.access 0x020 4 (.write v)).irq = true) ∧
    (v = 3 → (s.access 0x01C 4 (.write v)).irq = false)

/-- 10_state.md R35 to R44: with no command in flight, a write of v to a read-write register changes that register
alone, and a read then returns what it holds; RESULT, ERRINFO and IRQ_STATUS read as what the block left there. -/
def Obligations.RegistersReadBack : Prop :=
  ∀ (s : State) (v : Word), s.busy = false →
    let write := fun off => s.access off 4 (.write v)
    let readBack := fun off => ((write off).access off 4 .read).replies
    (write 0x010 = { s with arg0 := v } ∧ readBack 0x010 = v :: s.replies) ∧
    (write 0x020 = { s with doneEn := v.getLsbD 0, erriEn := v.getLsbD 1 } ∧
      readBack 0x020 = BitVec.ofNat 32 (v.toNat % 4) :: s.replies) ∧
    (∃ w : Word, w.toNat = min v.toNat s.params.bsmBytes ∧ write 0x024 = { s with bsLen := w } ∧
      readBack 0x024 = w :: s.replies) ∧
    (write 0x028 = { s with bsPos := v } ∧ readBack 0x028 = v :: s.replies) ∧
    (∃ w : BitVec 24, w.toNat = v.toNat % 2 ^ 24 ∧ write 0x02C = { s with pxStride := w } ∧
      readBack 0x02C = BitVec.ofNat 32 w.toNat :: s.replies) ∧
    (∃ w : Word, w.toNat = min v.toNat s.params.pxmBytes ∧ write 0x030 = { s with pxLen := w } ∧
      readBack 0x030 = w :: s.replies) ∧
    (write 0x034 = { s with audFirst := v.getLsbD 0 } ∧
      readBack 0x034 = BitVec.ofNat 32 (v.toNat % 2) :: s.replies) ∧
    (s.access 0x014 4 .read).replies = s.result :: s.replies ∧
    (s.access 0x018 4 .read).replies = s.errinfo :: s.replies ∧
    (s.access 0x01C 4 .read).replies = BitVec.ofNat 32 (s.irqDone.toNat + 2 * s.irqErri.toNat) :: s.replies

/-- 10_state.md R31 and R45: the constant registers, which ignore writes; R46, R33, R34: CTRL, CMD and the reserved word
as read. -/
def Obligations.ConstantRegisters : Prop :=
  ∀ s : State,
    (s.access 0x000 4 .read).replies = 0x314B4255 :: s.replies ∧
    (∀ v : Word, s.access 0x000 4 (.write v) = s ∧ s.access 0x038 4 (.write v) = s) ∧
    (s.access 0x008 4 .read).replies = 0 :: s.replies ∧
    (s.access 0x00C 4 .read).replies = 0 :: s.replies ∧
    (s.access 0x03C 4 .read).replies = 0 :: s.replies ∧
    ∃ w : Word, (s.access 0x038 4 .read).replies = w :: s.replies ∧
      w.toNat = 12 + 2 ^ 8 * 32 + 2 ^ 16 * s.params.bsmLog + 2 ^ 24 * s.params.pxmLog

/-- 20_memory.md R72: a host write to a word of a tree's window changes that part of that tree alone, and reads back
with the reserved bits 0. -/
def Obligations.TreeWindow : Prop :=
  ∀ (s : State) (k : BitVec 5) (v : Word), s.busy = false →
    let at' := fun j => s.access (0x400 + 16 * k.toNat + 4 * j) 4 (.write v)
    let back := fun j => ((at' j).access (0x400 + 16 * k.toNat + 4 * j) 4 .read).replies.head?
    (back 0 = some (BitVec.ofNat 32 (v.toNat % 16)) ∧ back 1 = some v ∧ back 2 = some v ∧ back 3 = some 0) ∧
    (∀ j, j < 4 → ∃ tr, at' j = { s with trees := s.trees.set k.toNat tr k.isLt } ∧
      (j ≠ 0 → tr.table = (s.tree k).table) ∧
      (∀ i : Fin 16, tr.map[i] =
        if i.val / 8 + 1 = j then v.extractLsb' (4 * (i.val % 8)) 4 else (s.tree k).map[i]))

/-- 20_memory.md R73 to R75: with no command in flight, a host write of a word into a RAM window stores its four bytes,
little-endian, changes no other byte, and reads back; a write into the OBLK window is ignored. A read of any RAM window,
OBLK among them, replies a word with every byte the RAM holds at its place; a byte never written is free (log 1). -/
def Obligations.RamWindows : Prop :=
  ∀ (s : State) (off : Nat) (v : Word), s.busy = false → off % 4 = 0 →
    (ramWindow s.params off → ∃ m : Memory,
      s.access off 4 (.write v) = { s with mem := m } ∧ m.holdsWord off v ∧
      Memory.sameOutside (inWindow off 4) s.mem m ∧
      ((s.access off 4 (.write v)).access off 4 .read).replies = v :: s.replies) ∧
    (inWindow oblkBase 0x100 off → s.access off 4 (.write v) = s) ∧
    (ramWindow s.params off ∨ inWindow oblkBase 0x100 off → ∃ w : Word,
      s.access off 4 .read = { s with replies := w :: s.replies } ∧
      ∀ (j : Nat) (b : Byte), j < 4 → s.held (off + j) = some b → w.extractLsb' (8 * j) 8 = b)

/-- 20_memory.md R76 and R71: an access of another width, a misaligned one or one to an unmapped offset reads 0 or is
ignored, and sets BUSERR and ERRI; nothing else changes. A write to a read-only register or to OBLK is ignored. -/
def Obligations.AccessesNotAdmitted : Prop :=
  ∀ (s : State) (off width : Nat) (v : Word),
    ((width ≠ 4 ∨ off % 4 ≠ 0 ∨ ¬ mappedOffset s.params off) →
      s.access off width .read = { s with buserr := true, irqErri := true, replies := 0 :: s.replies } ∧
      s.access off width (.write v) = { s with buserr := true, irqErri := true }) ∧
    (off = 0x000 ∨ off = 0x014 ∨ off = 0x018 ∨ off = 0x038 ∨ (inWindow oblkBase 0x100 off ∧ off % 4 = 0) →
      s.access off 4 (.write v) = s)

/-- 70_reset_and_hazards.md R350: while a command is in flight a write to STATUS, CTRL, IRQ_STATUS or IRQ_EN has the
effect it always has but for CTRL's deferral, one to a read-only register or OBLK is ignored, and every other admitted
one is dropped with OVERRUN and ERRI. The reserved words are in ReservedWordsWhileBusy. -/
def Obligations.WritesWhileBusy : Prop :=
  ∀ (s : State) (off : Nat) (v : Word), s.busy = true → off % 4 = 0 → mappedOffset s.params off →
    (off = 0x008 → s.access off 4 (.write v) = if v.getLsbD 0 then { s with srstPend := true } else s) ∧
    ((off = 0x000 ∨ off = 0x014 ∨ off = 0x018 ∨ off = 0x038 ∨ inWindow oblkBase 0x100 off) →
      s.access off 4 (.write v) = s) ∧
    ((off = 0x00C ∨ off = 0x010 ∨ (0x024 ≤ off ∧ off ≤ 0x034) ∨ (0x400 ≤ off ∧ off < 0x600 ∧ off % 16 ≠ 12) ∨
        (0x800 ≤ off ∧ off < 0x900) ∨ 0xA00 ≤ off) →
      s.access off 4 (.write v) = { s with overrun := true, irqErri := true })

/-- The model's choice (log 12): a write to the reserved word 0x03C or to the reserved word of a tree while a command is
in flight is one of the "other admitted writes" of 70_reset_and_hazards.md R350, so it sets OVERRUN; with no command in
flight it is ignored (10_state.md R46, 20_memory.md R72). -/
def Obligations.ReservedWordsWhileBusy : Prop :=
  ∀ (s : State) (off : Nat) (v : Word), (off = 0x03C ∨ (0x400 ≤ off ∧ off < 0x600 ∧ off % 16 = 12)) →
    (s.busy = true → s.access off 4 (.write v) = { s with overrun := true, irqErri := true }) ∧
    (s.busy = false → s.access off 4 (.write v) = s)

/-- 20_memory.md R81: no admitted read changes anything but the reply, in any state. 70_reset_and_hazards.md R351: while
a command is in flight the registers that no command writes reply as ever, and a read of anything else replies a free
value, which the model takes as a whole word of `Config.busyRead` for the step and the offset (the model's reading, log
14). -/
def Obligations.ReadsWhileBusy : Prop :=
  ∀ (s : State) (off : Nat), off % 4 = 0 → mappedOffset s.params off →
    (∃ w, s.access off 4 .read = { s with replies := w :: s.replies }) ∧
    (s.busy = true →
      (off < 0x040 → off ≠ 0x004 → off ≠ 0x014 → off ≠ 0x018 → off ≠ 0x028 → off ≠ 0x034 →
        (s.access off 4 .read).replies = (({ s with busy := false } : State).access off 4 .read).replies) ∧
      (off = 0x004 → (s.access off 4 .read).replies = s.statusWord :: s.replies) ∧
      (off = 0x014 ∨ off = 0x018 ∨ off = 0x028 ∨ off = 0x034 ∨ 0x040 ≤ off →
        (s.access off 4 .read).replies = Config.busyRead s.draws off :: s.replies))

/-- 70_reset_and_hazards.md R341: CTRL.SRST with no command in flight is the soft reset at once, with one in flight it
only sets SRST_PEND; other bits of CTRL do nothing (10_state.md R33). -/
def Obligations.SoftResetRequest : Prop :=
  ∀ (s : State) (v : Word),
    (v.getLsbD 0 = true → s.busy = false → s.access 0x008 4 (.write v) = s.softReset) ∧
    (v.getLsbD 0 = true → s.busy = true → s.access 0x008 4 (.write v) = { s with srstPend := true }) ∧
    (v.getLsbD 0 = false → s.access 0x008 4 (.write v) = s)

/-- 20_memory.md R84: the host's accesses take effect one at a time, in the order issued: the step takes the next one and
nothing else; with no access waiting and no command in flight the block is idle (60_exceptions.md R327). Which agent
moves (the host while no command is in flight or `latency` is positive), the countdown of `latency` and the input list
`hostq` are the model's choices (logs 3 and 4), as is the count `draws` (log 5). -/
def Obligations.HostAccessesTakeEffectInOrder : Prop :=
  ∀ s : State,
    (s.busy = false → s.hostq = [] → step s = .next s) ∧
    (∀ (a : HostAccess) (rest : List HostAccess), s.hostq = a :: rest → (s.busy = false ∨ 0 < s.latency) →
      HostAccess.toBlock s.params a →
      ∃ t, t = ({ s with hostq := rest, latency := s.latency - 1 } : State).access (a.addr - s.params.base) a.width a.op ∧
        step s = .next { t with draws := s.draws + 1 })
end

