-- ==== Sys2Proof/Laws/Audio.lean ====
section
/-! SUPPORT. What the operations of the audio core can do: pairs of entries as complex values, and the butterfly. -/

namespace Sys2Proof.Machine

/-- Entries as complex values: value k is the pair of entries 2k and 2k + 1. -/
theorem toComplex_eq (d : List F32) (n : Nat) (h : d.length = 2 * n) :
    toComplex d = (List.range n).map fun k => ⟨d.getD (2 * k) 0, d.getD (2 * k + 1) 0⟩ := by
  induction n generalizing d with
  | zero =>
    obtain rfl : d = [] := List.length_eq_zero_iff.mp (by omega)
    rfl
  | succ n ih =>
    match d, h with
    | x :: y :: rest, h =>
      rw [toComplex, ih rest (by simp only [List.length_cons] at h; omega), List.range_succ_eq_map]
      simp only [List.map_cons, List.map_map]
      rfl

/-- Complex values as entries: entry 2k is the real part of value k, entry 2k + 1 its imaginary part. -/
theorem getD_ofComplex (z : List Cx) (k : Nat) :
    (ofComplex z).getD (2 * k) 0 = (z.getD k ⟨0, 0⟩).re ∧ (ofComplex z).getD (2 * k + 1) 0 = (z.getD k ⟨0, 0⟩).im := by
  induction z generalizing k with
  | nil => simp [ofComplex]
  | cons c z ih =>
    cases k with
    | zero => simp [ofComplex]
    | succ k => simpa [ofComplex, Nat.mul_add] using ih k

/-- The butterfly as the rule writes it stores the model's two values. -/
theorem inPlaceButterfly_eq (afp : Afp) (h base : Nat) (z : List Cx) (k : Nat) :
    inPlaceButterfly afp h base z k =
      (z.set (base + k) (butterflyLow afp (twiddle (2 * h) k) (z.getD (base + k) ⟨0, 0⟩)
        (z.getD (base + k + h) ⟨0, 0⟩))).set (base + k + h)
        (butterflyHigh afp (twiddle (2 * h) k) (z.getD (base + k) ⟨0, 0⟩) (z.getD (base + k + h) ⟨0, 0⟩)) := rfl

end Sys2Proof.Machine
end

