-- ==== Sys2Proof/Laws/State.lean ====
section
/-! SUPPORT. One lemma per field per update of the state, each true by unfolding the update, so that no later proof
unfolds a record update. -/

namespace Sys2Proof.Machine

variable (s : State)

@[simp] theorem State.writeBytes_params (a : Nat) (bs : List Byte) : (s.writeBytes a bs).params = s.params := rfl
@[simp] theorem State.writeBytes_busy (a : Nat) (bs : List Byte) : (s.writeBytes a bs).busy = s.busy := rfl
@[simp] theorem State.writeBytes_err (a : Nat) (bs : List Byte) : (s.writeBytes a bs).err = s.err := rfl
@[simp] theorem State.writeBytes_overrun (a : Nat) (bs : List Byte) : (s.writeBytes a bs).overrun = s.overrun := rfl
@[simp] theorem State.writeBytes_buserr (a : Nat) (bs : List Byte) : (s.writeBytes a bs).buserr = s.buserr := rfl
@[simp] theorem State.writeBytes_errcode (a : Nat) (bs : List Byte) : (s.writeBytes a bs).errcode = s.errcode := rfl
@[simp] theorem State.writeBytes_arg0 (a : Nat) (bs : List Byte) : (s.writeBytes a bs).arg0 = s.arg0 := rfl
@[simp] theorem State.writeBytes_result (a : Nat) (bs : List Byte) : (s.writeBytes a bs).result = s.result := rfl
@[simp] theorem State.writeBytes_errinfo (a : Nat) (bs : List Byte) : (s.writeBytes a bs).errinfo = s.errinfo := rfl
@[simp] theorem State.writeBytes_irqDone (a : Nat) (bs : List Byte) : (s.writeBytes a bs).irqDone = s.irqDone := rfl
@[simp] theorem State.writeBytes_irqErri (a : Nat) (bs : List Byte) : (s.writeBytes a bs).irqErri = s.irqErri := rfl
@[simp] theorem State.writeBytes_doneEn (a : Nat) (bs : List Byte) : (s.writeBytes a bs).doneEn = s.doneEn := rfl
@[simp] theorem State.writeBytes_erriEn (a : Nat) (bs : List Byte) : (s.writeBytes a bs).erriEn = s.erriEn := rfl
@[simp] theorem State.writeBytes_bsLen (a : Nat) (bs : List Byte) : (s.writeBytes a bs).bsLen = s.bsLen := rfl
@[simp] theorem State.writeBytes_bsPos (a : Nat) (bs : List Byte) : (s.writeBytes a bs).bsPos = s.bsPos := rfl
@[simp] theorem State.writeBytes_pxStride (a : Nat) (bs : List Byte) : (s.writeBytes a bs).pxStride = s.pxStride := rfl
@[simp] theorem State.writeBytes_pxLen (a : Nat) (bs : List Byte) : (s.writeBytes a bs).pxLen = s.pxLen := rfl
@[simp] theorem State.writeBytes_audFirst (a : Nat) (bs : List Byte) : (s.writeBytes a bs).audFirst = s.audFirst := rfl
@[simp] theorem State.writeBytes_trees (a : Nat) (bs : List Byte) : (s.writeBytes a bs).trees = s.trees := rfl
@[simp] theorem State.writeBytes_cmdl (a : Nat) (bs : List Byte) : (s.writeBytes a bs).cmdl = s.cmdl := rfl
@[simp] theorem State.writeBytes_srstPend (a : Nat) (bs : List Byte) : (s.writeBytes a bs).srstPend = s.srstPend := rfl
@[simp] theorem State.writeBytes_mem (a : Nat) (bs : List Byte) : (s.writeBytes a bs).mem = s.mem.writeBytes a bs := rfl
@[simp] theorem State.writeBytes_latency (a : Nat) (bs : List Byte) : (s.writeBytes a bs).latency = s.latency := rfl
@[simp] theorem State.writeBytes_draws (a : Nat) (bs : List Byte) : (s.writeBytes a bs).draws = s.draws := rfl
@[simp] theorem State.writeBytes_hostq (a : Nat) (bs : List Byte) : (s.writeBytes a bs).hostq = s.hostq := rfl
@[simp] theorem State.writeBytes_replies (a : Nat) (bs : List Byte) : (s.writeBytes a bs).replies = s.replies := rfl

@[simp] theorem State.writeWords_params (a : Nat) (ws : List Word) : (s.writeWords a ws).params = s.params := rfl
@[simp] theorem State.writeWords_busy (a : Nat) (ws : List Word) : (s.writeWords a ws).busy = s.busy := rfl
@[simp] theorem State.writeWords_err (a : Nat) (ws : List Word) : (s.writeWords a ws).err = s.err := rfl
@[simp] theorem State.writeWords_overrun (a : Nat) (ws : List Word) : (s.writeWords a ws).overrun = s.overrun := rfl
@[simp] theorem State.writeWords_buserr (a : Nat) (ws : List Word) : (s.writeWords a ws).buserr = s.buserr := rfl
@[simp] theorem State.writeWords_errcode (a : Nat) (ws : List Word) : (s.writeWords a ws).errcode = s.errcode := rfl
@[simp] theorem State.writeWords_arg0 (a : Nat) (ws : List Word) : (s.writeWords a ws).arg0 = s.arg0 := rfl
@[simp] theorem State.writeWords_result (a : Nat) (ws : List Word) : (s.writeWords a ws).result = s.result := rfl
@[simp] theorem State.writeWords_errinfo (a : Nat) (ws : List Word) : (s.writeWords a ws).errinfo = s.errinfo := rfl
@[simp] theorem State.writeWords_irqDone (a : Nat) (ws : List Word) : (s.writeWords a ws).irqDone = s.irqDone := rfl
@[simp] theorem State.writeWords_irqErri (a : Nat) (ws : List Word) : (s.writeWords a ws).irqErri = s.irqErri := rfl
@[simp] theorem State.writeWords_doneEn (a : Nat) (ws : List Word) : (s.writeWords a ws).doneEn = s.doneEn := rfl
@[simp] theorem State.writeWords_erriEn (a : Nat) (ws : List Word) : (s.writeWords a ws).erriEn = s.erriEn := rfl
@[simp] theorem State.writeWords_bsLen (a : Nat) (ws : List Word) : (s.writeWords a ws).bsLen = s.bsLen := rfl
@[simp] theorem State.writeWords_bsPos (a : Nat) (ws : List Word) : (s.writeWords a ws).bsPos = s.bsPos := rfl
@[simp] theorem State.writeWords_pxStride (a : Nat) (ws : List Word) : (s.writeWords a ws).pxStride = s.pxStride := rfl
@[simp] theorem State.writeWords_pxLen (a : Nat) (ws : List Word) : (s.writeWords a ws).pxLen = s.pxLen := rfl
@[simp] theorem State.writeWords_audFirst (a : Nat) (ws : List Word) : (s.writeWords a ws).audFirst = s.audFirst := rfl
@[simp] theorem State.writeWords_trees (a : Nat) (ws : List Word) : (s.writeWords a ws).trees = s.trees := rfl
@[simp] theorem State.writeWords_cmdl (a : Nat) (ws : List Word) : (s.writeWords a ws).cmdl = s.cmdl := rfl
@[simp] theorem State.writeWords_srstPend (a : Nat) (ws : List Word) : (s.writeWords a ws).srstPend = s.srstPend := rfl
@[simp] theorem State.writeWords_mem (a : Nat) (ws : List Word) : (s.writeWords a ws).mem = s.mem.writeBytes a (ws.flatMap Word.bytes) := rfl
@[simp] theorem State.writeWords_latency (a : Nat) (ws : List Word) : (s.writeWords a ws).latency = s.latency := rfl
@[simp] theorem State.writeWords_draws (a : Nat) (ws : List Word) : (s.writeWords a ws).draws = s.draws := rfl
@[simp] theorem State.writeWords_hostq (a : Nat) (ws : List Word) : (s.writeWords a ws).hostq = s.hostq := rfl
@[simp] theorem State.writeWords_replies (a : Nat) (ws : List Word) : (s.writeWords a ws).replies = s.replies := rfl

@[simp] theorem State.setTree_params (t : BitVec 5) (v : SymbolTree) : (s.setTree t v).params = s.params := rfl
@[simp] theorem State.setTree_busy (t : BitVec 5) (v : SymbolTree) : (s.setTree t v).busy = s.busy := rfl
@[simp] theorem State.setTree_err (t : BitVec 5) (v : SymbolTree) : (s.setTree t v).err = s.err := rfl
@[simp] theorem State.setTree_overrun (t : BitVec 5) (v : SymbolTree) : (s.setTree t v).overrun = s.overrun := rfl
@[simp] theorem State.setTree_buserr (t : BitVec 5) (v : SymbolTree) : (s.setTree t v).buserr = s.buserr := rfl
@[simp] theorem State.setTree_errcode (t : BitVec 5) (v : SymbolTree) : (s.setTree t v).errcode = s.errcode := rfl
@[simp] theorem State.setTree_arg0 (t : BitVec 5) (v : SymbolTree) : (s.setTree t v).arg0 = s.arg0 := rfl
@[simp] theorem State.setTree_result (t : BitVec 5) (v : SymbolTree) : (s.setTree t v).result = s.result := rfl
@[simp] theorem State.setTree_errinfo (t : BitVec 5) (v : SymbolTree) : (s.setTree t v).errinfo = s.errinfo := rfl
@[simp] theorem State.setTree_irqDone (t : BitVec 5) (v : SymbolTree) : (s.setTree t v).irqDone = s.irqDone := rfl
@[simp] theorem State.setTree_irqErri (t : BitVec 5) (v : SymbolTree) : (s.setTree t v).irqErri = s.irqErri := rfl
@[simp] theorem State.setTree_doneEn (t : BitVec 5) (v : SymbolTree) : (s.setTree t v).doneEn = s.doneEn := rfl
@[simp] theorem State.setTree_erriEn (t : BitVec 5) (v : SymbolTree) : (s.setTree t v).erriEn = s.erriEn := rfl
@[simp] theorem State.setTree_bsLen (t : BitVec 5) (v : SymbolTree) : (s.setTree t v).bsLen = s.bsLen := rfl
@[simp] theorem State.setTree_bsPos (t : BitVec 5) (v : SymbolTree) : (s.setTree t v).bsPos = s.bsPos := rfl
@[simp] theorem State.setTree_pxStride (t : BitVec 5) (v : SymbolTree) : (s.setTree t v).pxStride = s.pxStride := rfl
@[simp] theorem State.setTree_pxLen (t : BitVec 5) (v : SymbolTree) : (s.setTree t v).pxLen = s.pxLen := rfl
@[simp] theorem State.setTree_audFirst (t : BitVec 5) (v : SymbolTree) : (s.setTree t v).audFirst = s.audFirst := rfl
@[simp] theorem State.setTree_trees (t : BitVec 5) (v : SymbolTree) : (s.setTree t v).trees = s.trees.set t.toNat v t.isLt := rfl
@[simp] theorem State.setTree_cmdl (t : BitVec 5) (v : SymbolTree) : (s.setTree t v).cmdl = s.cmdl := rfl
@[simp] theorem State.setTree_srstPend (t : BitVec 5) (v : SymbolTree) : (s.setTree t v).srstPend = s.srstPend := rfl
@[simp] theorem State.setTree_mem (t : BitVec 5) (v : SymbolTree) : (s.setTree t v).mem = s.mem := rfl
@[simp] theorem State.setTree_latency (t : BitVec 5) (v : SymbolTree) : (s.setTree t v).latency = s.latency := rfl
@[simp] theorem State.setTree_draws (t : BitVec 5) (v : SymbolTree) : (s.setTree t v).draws = s.draws := rfl
@[simp] theorem State.setTree_hostq (t : BitVec 5) (v : SymbolTree) : (s.setTree t v).hostq = s.hostq := rfl
@[simp] theorem State.setTree_replies (t : BitVec 5) (v : SymbolTree) : (s.setTree t v).replies = s.replies := rfl

@[simp] theorem State.advance_params (n : Nat) : (s.advance n).params = s.params := rfl
@[simp] theorem State.advance_busy (n : Nat) : (s.advance n).busy = s.busy := rfl
@[simp] theorem State.advance_err (n : Nat) : (s.advance n).err = s.err := rfl
@[simp] theorem State.advance_overrun (n : Nat) : (s.advance n).overrun = s.overrun := rfl
@[simp] theorem State.advance_buserr (n : Nat) : (s.advance n).buserr = s.buserr := rfl
@[simp] theorem State.advance_errcode (n : Nat) : (s.advance n).errcode = s.errcode := rfl
@[simp] theorem State.advance_arg0 (n : Nat) : (s.advance n).arg0 = s.arg0 := rfl
@[simp] theorem State.advance_result (n : Nat) : (s.advance n).result = s.result := rfl
@[simp] theorem State.advance_errinfo (n : Nat) : (s.advance n).errinfo = s.errinfo := rfl
@[simp] theorem State.advance_irqDone (n : Nat) : (s.advance n).irqDone = s.irqDone := rfl
@[simp] theorem State.advance_irqErri (n : Nat) : (s.advance n).irqErri = s.irqErri := rfl
@[simp] theorem State.advance_doneEn (n : Nat) : (s.advance n).doneEn = s.doneEn := rfl
@[simp] theorem State.advance_erriEn (n : Nat) : (s.advance n).erriEn = s.erriEn := rfl
@[simp] theorem State.advance_bsLen (n : Nat) : (s.advance n).bsLen = s.bsLen := rfl
@[simp] theorem State.advance_bsPos (n : Nat) : (s.advance n).bsPos = BitVec.ofNat 32 (min (s.bsPos.toNat + n) posMax) := rfl
@[simp] theorem State.advance_pxStride (n : Nat) : (s.advance n).pxStride = s.pxStride := rfl
@[simp] theorem State.advance_pxLen (n : Nat) : (s.advance n).pxLen = s.pxLen := rfl
@[simp] theorem State.advance_audFirst (n : Nat) : (s.advance n).audFirst = s.audFirst := rfl
@[simp] theorem State.advance_trees (n : Nat) : (s.advance n).trees = s.trees := rfl
@[simp] theorem State.advance_cmdl (n : Nat) : (s.advance n).cmdl = s.cmdl := rfl
@[simp] theorem State.advance_srstPend (n : Nat) : (s.advance n).srstPend = s.srstPend := rfl
@[simp] theorem State.advance_mem (n : Nat) : (s.advance n).mem = s.mem := rfl
@[simp] theorem State.advance_latency (n : Nat) : (s.advance n).latency = s.latency := rfl
@[simp] theorem State.advance_draws (n : Nat) : (s.advance n).draws = s.draws := rfl
@[simp] theorem State.advance_hostq (n : Nat) : (s.advance n).hostq = s.hostq := rfl
@[simp] theorem State.advance_replies (n : Nat) : (s.advance n).replies = s.replies := rfl

@[simp] theorem State.withResult_params (v : Word) : (s.withResult v).params = s.params := rfl
@[simp] theorem State.withResult_busy (v : Word) : (s.withResult v).busy = s.busy := rfl
@[simp] theorem State.withResult_err (v : Word) : (s.withResult v).err = s.err := rfl
@[simp] theorem State.withResult_overrun (v : Word) : (s.withResult v).overrun = s.overrun := rfl
@[simp] theorem State.withResult_buserr (v : Word) : (s.withResult v).buserr = s.buserr := rfl
@[simp] theorem State.withResult_errcode (v : Word) : (s.withResult v).errcode = s.errcode := rfl
@[simp] theorem State.withResult_arg0 (v : Word) : (s.withResult v).arg0 = s.arg0 := rfl
@[simp] theorem State.withResult_result (v : Word) : (s.withResult v).result = v := rfl
@[simp] theorem State.withResult_errinfo (v : Word) : (s.withResult v).errinfo = s.errinfo := rfl
@[simp] theorem State.withResult_irqDone (v : Word) : (s.withResult v).irqDone = s.irqDone := rfl
@[simp] theorem State.withResult_irqErri (v : Word) : (s.withResult v).irqErri = s.irqErri := rfl
@[simp] theorem State.withResult_doneEn (v : Word) : (s.withResult v).doneEn = s.doneEn := rfl
@[simp] theorem State.withResult_erriEn (v : Word) : (s.withResult v).erriEn = s.erriEn := rfl
@[simp] theorem State.withResult_bsLen (v : Word) : (s.withResult v).bsLen = s.bsLen := rfl
@[simp] theorem State.withResult_bsPos (v : Word) : (s.withResult v).bsPos = s.bsPos := rfl
@[simp] theorem State.withResult_pxStride (v : Word) : (s.withResult v).pxStride = s.pxStride := rfl
@[simp] theorem State.withResult_pxLen (v : Word) : (s.withResult v).pxLen = s.pxLen := rfl
@[simp] theorem State.withResult_audFirst (v : Word) : (s.withResult v).audFirst = s.audFirst := rfl
@[simp] theorem State.withResult_trees (v : Word) : (s.withResult v).trees = s.trees := rfl
@[simp] theorem State.withResult_cmdl (v : Word) : (s.withResult v).cmdl = s.cmdl := rfl
@[simp] theorem State.withResult_srstPend (v : Word) : (s.withResult v).srstPend = s.srstPend := rfl
@[simp] theorem State.withResult_mem (v : Word) : (s.withResult v).mem = s.mem := rfl
@[simp] theorem State.withResult_latency (v : Word) : (s.withResult v).latency = s.latency := rfl
@[simp] theorem State.withResult_draws (v : Word) : (s.withResult v).draws = s.draws := rfl
@[simp] theorem State.withResult_hostq (v : Word) : (s.withResult v).hostq = s.hostq := rfl
@[simp] theorem State.withResult_replies (v : Word) : (s.withResult v).replies = s.replies := rfl

@[simp] theorem State.fail_params (c : ErrCode) : (s.fail c).params = s.params := rfl
@[simp] theorem State.fail_busy (c : ErrCode) : (s.fail c).busy = s.busy := rfl
@[simp] theorem State.fail_err (c : ErrCode) : (s.fail c).err = true := rfl
@[simp] theorem State.fail_overrun (c : ErrCode) : (s.fail c).overrun = s.overrun := rfl
@[simp] theorem State.fail_buserr (c : ErrCode) : (s.fail c).buserr = s.buserr := rfl
@[simp] theorem State.fail_errcode (c : ErrCode) : (s.fail c).errcode = c.bits := rfl
@[simp] theorem State.fail_arg0 (c : ErrCode) : (s.fail c).arg0 = s.arg0 := rfl
@[simp] theorem State.fail_result (c : ErrCode) : (s.fail c).result = s.result := rfl
@[simp] theorem State.fail_errinfo (c : ErrCode) : (s.fail c).errinfo = s.cmdl := rfl
@[simp] theorem State.fail_irqDone (c : ErrCode) : (s.fail c).irqDone = s.irqDone := rfl
@[simp] theorem State.fail_irqErri (c : ErrCode) : (s.fail c).irqErri = true := rfl
@[simp] theorem State.fail_doneEn (c : ErrCode) : (s.fail c).doneEn = s.doneEn := rfl
@[simp] theorem State.fail_erriEn (c : ErrCode) : (s.fail c).erriEn = s.erriEn := rfl
@[simp] theorem State.fail_bsLen (c : ErrCode) : (s.fail c).bsLen = s.bsLen := rfl
@[simp] theorem State.fail_bsPos (c : ErrCode) : (s.fail c).bsPos = s.bsPos := rfl
@[simp] theorem State.fail_pxStride (c : ErrCode) : (s.fail c).pxStride = s.pxStride := rfl
@[simp] theorem State.fail_pxLen (c : ErrCode) : (s.fail c).pxLen = s.pxLen := rfl
@[simp] theorem State.fail_audFirst (c : ErrCode) : (s.fail c).audFirst = s.audFirst := rfl
@[simp] theorem State.fail_trees (c : ErrCode) : (s.fail c).trees = s.trees := rfl
@[simp] theorem State.fail_cmdl (c : ErrCode) : (s.fail c).cmdl = s.cmdl := rfl
@[simp] theorem State.fail_srstPend (c : ErrCode) : (s.fail c).srstPend = s.srstPend := rfl
@[simp] theorem State.fail_mem (c : ErrCode) : (s.fail c).mem = s.mem := rfl
@[simp] theorem State.fail_latency (c : ErrCode) : (s.fail c).latency = s.latency := rfl
@[simp] theorem State.fail_draws (c : ErrCode) : (s.fail c).draws = s.draws := rfl
@[simp] theorem State.fail_hostq (c : ErrCode) : (s.fail c).hostq = s.hostq := rfl
@[simp] theorem State.fail_replies (c : ErrCode) : (s.fail c).replies = s.replies := rfl

@[simp] theorem State.ackError_params : s.ackError.params = s.params := rfl
@[simp] theorem State.ackError_busy : s.ackError.busy = s.busy := rfl
@[simp] theorem State.ackError_err : s.ackError.err = false := rfl
@[simp] theorem State.ackError_overrun : s.ackError.overrun = s.overrun := rfl
@[simp] theorem State.ackError_buserr : s.ackError.buserr = s.buserr := rfl
@[simp] theorem State.ackError_errcode : s.ackError.errcode = 0 := rfl
@[simp] theorem State.ackError_arg0 : s.ackError.arg0 = s.arg0 := rfl
@[simp] theorem State.ackError_result : s.ackError.result = s.result := rfl
@[simp] theorem State.ackError_errinfo : s.ackError.errinfo = 0 := rfl
@[simp] theorem State.ackError_irqDone : s.ackError.irqDone = s.irqDone := rfl
@[simp] theorem State.ackError_irqErri : s.ackError.irqErri = s.irqErri := rfl
@[simp] theorem State.ackError_doneEn : s.ackError.doneEn = s.doneEn := rfl
@[simp] theorem State.ackError_erriEn : s.ackError.erriEn = s.erriEn := rfl
@[simp] theorem State.ackError_bsLen : s.ackError.bsLen = s.bsLen := rfl
@[simp] theorem State.ackError_bsPos : s.ackError.bsPos = s.bsPos := rfl
@[simp] theorem State.ackError_pxStride : s.ackError.pxStride = s.pxStride := rfl
@[simp] theorem State.ackError_pxLen : s.ackError.pxLen = s.pxLen := rfl
@[simp] theorem State.ackError_audFirst : s.ackError.audFirst = s.audFirst := rfl
@[simp] theorem State.ackError_trees : s.ackError.trees = s.trees := rfl
@[simp] theorem State.ackError_cmdl : s.ackError.cmdl = s.cmdl := rfl
@[simp] theorem State.ackError_srstPend : s.ackError.srstPend = s.srstPend := rfl
@[simp] theorem State.ackError_mem : s.ackError.mem = s.mem := rfl
@[simp] theorem State.ackError_latency : s.ackError.latency = s.latency := rfl
@[simp] theorem State.ackError_draws : s.ackError.draws = s.draws := rfl
@[simp] theorem State.ackError_hostq : s.ackError.hostq = s.hostq := rfl
@[simp] theorem State.ackError_replies : s.ackError.replies = s.replies := rfl

@[simp] theorem State.setBusErr_params : s.setBusErr.params = s.params := rfl
@[simp] theorem State.setBusErr_busy : s.setBusErr.busy = s.busy := rfl
@[simp] theorem State.setBusErr_err : s.setBusErr.err = s.err := rfl
@[simp] theorem State.setBusErr_overrun : s.setBusErr.overrun = s.overrun := rfl
@[simp] theorem State.setBusErr_buserr : s.setBusErr.buserr = true := rfl
@[simp] theorem State.setBusErr_errcode : s.setBusErr.errcode = s.errcode := rfl
@[simp] theorem State.setBusErr_arg0 : s.setBusErr.arg0 = s.arg0 := rfl
@[simp] theorem State.setBusErr_result : s.setBusErr.result = s.result := rfl
@[simp] theorem State.setBusErr_errinfo : s.setBusErr.errinfo = s.errinfo := rfl
@[simp] theorem State.setBusErr_irqDone : s.setBusErr.irqDone = s.irqDone := rfl
@[simp] theorem State.setBusErr_irqErri : s.setBusErr.irqErri = true := rfl
@[simp] theorem State.setBusErr_doneEn : s.setBusErr.doneEn = s.doneEn := rfl
@[simp] theorem State.setBusErr_erriEn : s.setBusErr.erriEn = s.erriEn := rfl
@[simp] theorem State.setBusErr_bsLen : s.setBusErr.bsLen = s.bsLen := rfl
@[simp] theorem State.setBusErr_bsPos : s.setBusErr.bsPos = s.bsPos := rfl
@[simp] theorem State.setBusErr_pxStride : s.setBusErr.pxStride = s.pxStride := rfl
@[simp] theorem State.setBusErr_pxLen : s.setBusErr.pxLen = s.pxLen := rfl
@[simp] theorem State.setBusErr_audFirst : s.setBusErr.audFirst = s.audFirst := rfl
@[simp] theorem State.setBusErr_trees : s.setBusErr.trees = s.trees := rfl
@[simp] theorem State.setBusErr_cmdl : s.setBusErr.cmdl = s.cmdl := rfl
@[simp] theorem State.setBusErr_srstPend : s.setBusErr.srstPend = s.srstPend := rfl
@[simp] theorem State.setBusErr_mem : s.setBusErr.mem = s.mem := rfl
@[simp] theorem State.setBusErr_latency : s.setBusErr.latency = s.latency := rfl
@[simp] theorem State.setBusErr_draws : s.setBusErr.draws = s.draws := rfl
@[simp] theorem State.setBusErr_hostq : s.setBusErr.hostq = s.hostq := rfl
@[simp] theorem State.setBusErr_replies : s.setBusErr.replies = s.replies := rfl

@[simp] theorem State.setOverrun_params : s.setOverrun.params = s.params := rfl
@[simp] theorem State.setOverrun_busy : s.setOverrun.busy = s.busy := rfl
@[simp] theorem State.setOverrun_err : s.setOverrun.err = s.err := rfl
@[simp] theorem State.setOverrun_overrun : s.setOverrun.overrun = true := rfl
@[simp] theorem State.setOverrun_buserr : s.setOverrun.buserr = s.buserr := rfl
@[simp] theorem State.setOverrun_errcode : s.setOverrun.errcode = s.errcode := rfl
@[simp] theorem State.setOverrun_arg0 : s.setOverrun.arg0 = s.arg0 := rfl
@[simp] theorem State.setOverrun_result : s.setOverrun.result = s.result := rfl
@[simp] theorem State.setOverrun_errinfo : s.setOverrun.errinfo = s.errinfo := rfl
@[simp] theorem State.setOverrun_irqDone : s.setOverrun.irqDone = s.irqDone := rfl
@[simp] theorem State.setOverrun_irqErri : s.setOverrun.irqErri = true := rfl
@[simp] theorem State.setOverrun_doneEn : s.setOverrun.doneEn = s.doneEn := rfl
@[simp] theorem State.setOverrun_erriEn : s.setOverrun.erriEn = s.erriEn := rfl
@[simp] theorem State.setOverrun_bsLen : s.setOverrun.bsLen = s.bsLen := rfl
@[simp] theorem State.setOverrun_bsPos : s.setOverrun.bsPos = s.bsPos := rfl
@[simp] theorem State.setOverrun_pxStride : s.setOverrun.pxStride = s.pxStride := rfl
@[simp] theorem State.setOverrun_pxLen : s.setOverrun.pxLen = s.pxLen := rfl
@[simp] theorem State.setOverrun_audFirst : s.setOverrun.audFirst = s.audFirst := rfl
@[simp] theorem State.setOverrun_trees : s.setOverrun.trees = s.trees := rfl
@[simp] theorem State.setOverrun_cmdl : s.setOverrun.cmdl = s.cmdl := rfl
@[simp] theorem State.setOverrun_srstPend : s.setOverrun.srstPend = s.srstPend := rfl
@[simp] theorem State.setOverrun_mem : s.setOverrun.mem = s.mem := rfl
@[simp] theorem State.setOverrun_latency : s.setOverrun.latency = s.latency := rfl
@[simp] theorem State.setOverrun_draws : s.setOverrun.draws = s.draws := rfl
@[simp] theorem State.setOverrun_hostq : s.setOverrun.hostq = s.hostq := rfl
@[simp] theorem State.setOverrun_replies : s.setOverrun.replies = s.replies := rfl

@[simp] theorem State.writeIrqStatus_params (v : Word) : (s.writeIrqStatus v).params = s.params := rfl
@[simp] theorem State.writeIrqStatus_busy (v : Word) : (s.writeIrqStatus v).busy = s.busy := rfl
@[simp] theorem State.writeIrqStatus_err (v : Word) : (s.writeIrqStatus v).err = s.err := rfl
@[simp] theorem State.writeIrqStatus_overrun (v : Word) : (s.writeIrqStatus v).overrun = s.overrun := rfl
@[simp] theorem State.writeIrqStatus_buserr (v : Word) : (s.writeIrqStatus v).buserr = s.buserr := rfl
@[simp] theorem State.writeIrqStatus_errcode (v : Word) : (s.writeIrqStatus v).errcode = s.errcode := rfl
@[simp] theorem State.writeIrqStatus_arg0 (v : Word) : (s.writeIrqStatus v).arg0 = s.arg0 := rfl
@[simp] theorem State.writeIrqStatus_result (v : Word) : (s.writeIrqStatus v).result = s.result := rfl
@[simp] theorem State.writeIrqStatus_errinfo (v : Word) : (s.writeIrqStatus v).errinfo = s.errinfo := rfl
@[simp] theorem State.writeIrqStatus_irqDone (v : Word) : (s.writeIrqStatus v).irqDone = (s.irqDone && !v.getLsbD 0) := rfl
@[simp] theorem State.writeIrqStatus_irqErri (v : Word) : (s.writeIrqStatus v).irqErri = (s.irqErri && !v.getLsbD 1) := rfl
@[simp] theorem State.writeIrqStatus_doneEn (v : Word) : (s.writeIrqStatus v).doneEn = s.doneEn := rfl
@[simp] theorem State.writeIrqStatus_erriEn (v : Word) : (s.writeIrqStatus v).erriEn = s.erriEn := rfl
@[simp] theorem State.writeIrqStatus_bsLen (v : Word) : (s.writeIrqStatus v).bsLen = s.bsLen := rfl
@[simp] theorem State.writeIrqStatus_bsPos (v : Word) : (s.writeIrqStatus v).bsPos = s.bsPos := rfl
@[simp] theorem State.writeIrqStatus_pxStride (v : Word) : (s.writeIrqStatus v).pxStride = s.pxStride := rfl
@[simp] theorem State.writeIrqStatus_pxLen (v : Word) : (s.writeIrqStatus v).pxLen = s.pxLen := rfl
@[simp] theorem State.writeIrqStatus_audFirst (v : Word) : (s.writeIrqStatus v).audFirst = s.audFirst := rfl
@[simp] theorem State.writeIrqStatus_trees (v : Word) : (s.writeIrqStatus v).trees = s.trees := rfl
@[simp] theorem State.writeIrqStatus_cmdl (v : Word) : (s.writeIrqStatus v).cmdl = s.cmdl := rfl
@[simp] theorem State.writeIrqStatus_srstPend (v : Word) : (s.writeIrqStatus v).srstPend = s.srstPend := rfl
@[simp] theorem State.writeIrqStatus_mem (v : Word) : (s.writeIrqStatus v).mem = s.mem := rfl
@[simp] theorem State.writeIrqStatus_latency (v : Word) : (s.writeIrqStatus v).latency = s.latency := rfl
@[simp] theorem State.writeIrqStatus_draws (v : Word) : (s.writeIrqStatus v).draws = s.draws := rfl
@[simp] theorem State.writeIrqStatus_hostq (v : Word) : (s.writeIrqStatus v).hostq = s.hostq := rfl
@[simp] theorem State.writeIrqStatus_replies (v : Word) : (s.writeIrqStatus v).replies = s.replies := rfl

@[simp] theorem State.writeIrqEn_params (v : Word) : (s.writeIrqEn v).params = s.params := rfl
@[simp] theorem State.writeIrqEn_busy (v : Word) : (s.writeIrqEn v).busy = s.busy := rfl
@[simp] theorem State.writeIrqEn_err (v : Word) : (s.writeIrqEn v).err = s.err := rfl
@[simp] theorem State.writeIrqEn_overrun (v : Word) : (s.writeIrqEn v).overrun = s.overrun := rfl
@[simp] theorem State.writeIrqEn_buserr (v : Word) : (s.writeIrqEn v).buserr = s.buserr := rfl
@[simp] theorem State.writeIrqEn_errcode (v : Word) : (s.writeIrqEn v).errcode = s.errcode := rfl
@[simp] theorem State.writeIrqEn_arg0 (v : Word) : (s.writeIrqEn v).arg0 = s.arg0 := rfl
@[simp] theorem State.writeIrqEn_result (v : Word) : (s.writeIrqEn v).result = s.result := rfl
@[simp] theorem State.writeIrqEn_errinfo (v : Word) : (s.writeIrqEn v).errinfo = s.errinfo := rfl
@[simp] theorem State.writeIrqEn_irqDone (v : Word) : (s.writeIrqEn v).irqDone = s.irqDone := rfl
@[simp] theorem State.writeIrqEn_irqErri (v : Word) : (s.writeIrqEn v).irqErri = s.irqErri := rfl
@[simp] theorem State.writeIrqEn_doneEn (v : Word) : (s.writeIrqEn v).doneEn = v.getLsbD 0 := rfl
@[simp] theorem State.writeIrqEn_erriEn (v : Word) : (s.writeIrqEn v).erriEn = v.getLsbD 1 := rfl
@[simp] theorem State.writeIrqEn_bsLen (v : Word) : (s.writeIrqEn v).bsLen = s.bsLen := rfl
@[simp] theorem State.writeIrqEn_bsPos (v : Word) : (s.writeIrqEn v).bsPos = s.bsPos := rfl
@[simp] theorem State.writeIrqEn_pxStride (v : Word) : (s.writeIrqEn v).pxStride = s.pxStride := rfl
@[simp] theorem State.writeIrqEn_pxLen (v : Word) : (s.writeIrqEn v).pxLen = s.pxLen := rfl
@[simp] theorem State.writeIrqEn_audFirst (v : Word) : (s.writeIrqEn v).audFirst = s.audFirst := rfl
@[simp] theorem State.writeIrqEn_trees (v : Word) : (s.writeIrqEn v).trees = s.trees := rfl
@[simp] theorem State.writeIrqEn_cmdl (v : Word) : (s.writeIrqEn v).cmdl = s.cmdl := rfl
@[simp] theorem State.writeIrqEn_srstPend (v : Word) : (s.writeIrqEn v).srstPend = s.srstPend := rfl
@[simp] theorem State.writeIrqEn_mem (v : Word) : (s.writeIrqEn v).mem = s.mem := rfl
@[simp] theorem State.writeIrqEn_latency (v : Word) : (s.writeIrqEn v).latency = s.latency := rfl
@[simp] theorem State.writeIrqEn_draws (v : Word) : (s.writeIrqEn v).draws = s.draws := rfl
@[simp] theorem State.writeIrqEn_hostq (v : Word) : (s.writeIrqEn v).hostq = s.hostq := rfl
@[simp] theorem State.writeIrqEn_replies (v : Word) : (s.writeIrqEn v).replies = s.replies := rfl

@[simp] theorem State.reply_params (v : Word) : (s.reply v).params = s.params := rfl
@[simp] theorem State.reply_busy (v : Word) : (s.reply v).busy = s.busy := rfl
@[simp] theorem State.reply_err (v : Word) : (s.reply v).err = s.err := rfl
@[simp] theorem State.reply_overrun (v : Word) : (s.reply v).overrun = s.overrun := rfl
@[simp] theorem State.reply_buserr (v : Word) : (s.reply v).buserr = s.buserr := rfl
@[simp] theorem State.reply_errcode (v : Word) : (s.reply v).errcode = s.errcode := rfl
@[simp] theorem State.reply_arg0 (v : Word) : (s.reply v).arg0 = s.arg0 := rfl
@[simp] theorem State.reply_result (v : Word) : (s.reply v).result = s.result := rfl
@[simp] theorem State.reply_errinfo (v : Word) : (s.reply v).errinfo = s.errinfo := rfl
@[simp] theorem State.reply_irqDone (v : Word) : (s.reply v).irqDone = s.irqDone := rfl
@[simp] theorem State.reply_irqErri (v : Word) : (s.reply v).irqErri = s.irqErri := rfl
@[simp] theorem State.reply_doneEn (v : Word) : (s.reply v).doneEn = s.doneEn := rfl
@[simp] theorem State.reply_erriEn (v : Word) : (s.reply v).erriEn = s.erriEn := rfl
@[simp] theorem State.reply_bsLen (v : Word) : (s.reply v).bsLen = s.bsLen := rfl
@[simp] theorem State.reply_bsPos (v : Word) : (s.reply v).bsPos = s.bsPos := rfl
@[simp] theorem State.reply_pxStride (v : Word) : (s.reply v).pxStride = s.pxStride := rfl
@[simp] theorem State.reply_pxLen (v : Word) : (s.reply v).pxLen = s.pxLen := rfl
@[simp] theorem State.reply_audFirst (v : Word) : (s.reply v).audFirst = s.audFirst := rfl
@[simp] theorem State.reply_trees (v : Word) : (s.reply v).trees = s.trees := rfl
@[simp] theorem State.reply_cmdl (v : Word) : (s.reply v).cmdl = s.cmdl := rfl
@[simp] theorem State.reply_srstPend (v : Word) : (s.reply v).srstPend = s.srstPend := rfl
@[simp] theorem State.reply_mem (v : Word) : (s.reply v).mem = s.mem := rfl
@[simp] theorem State.reply_latency (v : Word) : (s.reply v).latency = s.latency := rfl
@[simp] theorem State.reply_draws (v : Word) : (s.reply v).draws = s.draws := rfl
@[simp] theorem State.reply_hostq (v : Word) : (s.reply v).hostq = s.hostq := rfl
@[simp] theorem State.reply_replies (v : Word) : (s.reply v).replies = v :: s.replies := rfl

@[simp] theorem State.withCommand_params (w : Word) : (s.withCommand w).params = s.params := rfl
@[simp] theorem State.withCommand_busy (w : Word) : (s.withCommand w).busy = true := rfl
@[simp] theorem State.withCommand_err (w : Word) : (s.withCommand w).err = s.err := rfl
@[simp] theorem State.withCommand_overrun (w : Word) : (s.withCommand w).overrun = s.overrun := rfl
@[simp] theorem State.withCommand_buserr (w : Word) : (s.withCommand w).buserr = s.buserr := rfl
@[simp] theorem State.withCommand_errcode (w : Word) : (s.withCommand w).errcode = s.errcode := rfl
@[simp] theorem State.withCommand_arg0 (w : Word) : (s.withCommand w).arg0 = s.arg0 := rfl
@[simp] theorem State.withCommand_result (w : Word) : (s.withCommand w).result = s.result := rfl
@[simp] theorem State.withCommand_errinfo (w : Word) : (s.withCommand w).errinfo = s.errinfo := rfl
@[simp] theorem State.withCommand_irqDone (w : Word) : (s.withCommand w).irqDone = s.irqDone := rfl
@[simp] theorem State.withCommand_irqErri (w : Word) : (s.withCommand w).irqErri = s.irqErri := rfl
@[simp] theorem State.withCommand_doneEn (w : Word) : (s.withCommand w).doneEn = s.doneEn := rfl
@[simp] theorem State.withCommand_erriEn (w : Word) : (s.withCommand w).erriEn = s.erriEn := rfl
@[simp] theorem State.withCommand_bsLen (w : Word) : (s.withCommand w).bsLen = s.bsLen := rfl
@[simp] theorem State.withCommand_bsPos (w : Word) : (s.withCommand w).bsPos = s.bsPos := rfl
@[simp] theorem State.withCommand_pxStride (w : Word) : (s.withCommand w).pxStride = s.pxStride := rfl
@[simp] theorem State.withCommand_pxLen (w : Word) : (s.withCommand w).pxLen = s.pxLen := rfl
@[simp] theorem State.withCommand_audFirst (w : Word) : (s.withCommand w).audFirst = s.audFirst := rfl
@[simp] theorem State.withCommand_trees (w : Word) : (s.withCommand w).trees = s.trees := rfl
@[simp] theorem State.withCommand_cmdl (w : Word) : (s.withCommand w).cmdl = w := rfl
@[simp] theorem State.withCommand_srstPend (w : Word) : (s.withCommand w).srstPend = s.srstPend := rfl
@[simp] theorem State.withCommand_mem (w : Word) : (s.withCommand w).mem = s.mem := rfl
@[simp] theorem State.withCommand_latency (w : Word) : (s.withCommand w).latency = 0 := rfl
@[simp] theorem State.withCommand_draws (w : Word) : (s.withCommand w).draws = s.draws := rfl
@[simp] theorem State.withCommand_hostq (w : Word) : (s.withCommand w).hostq = s.hostq := rfl
@[simp] theorem State.withCommand_replies (w : Word) : (s.withCommand w).replies = s.replies := rfl

@[simp] theorem State.softReset_params : s.softReset.params = s.params := rfl
@[simp] theorem State.softReset_busy : s.softReset.busy = false := rfl
@[simp] theorem State.softReset_err : s.softReset.err = false := rfl
@[simp] theorem State.softReset_overrun : s.softReset.overrun = false := rfl
@[simp] theorem State.softReset_buserr : s.softReset.buserr = false := rfl
@[simp] theorem State.softReset_errcode : s.softReset.errcode = 0 := rfl
@[simp] theorem State.softReset_arg0 : s.softReset.arg0 = 0 := rfl
@[simp] theorem State.softReset_result : s.softReset.result = 0 := rfl
@[simp] theorem State.softReset_errinfo : s.softReset.errinfo = 0 := rfl
@[simp] theorem State.softReset_irqDone : s.softReset.irqDone = false := rfl
@[simp] theorem State.softReset_irqErri : s.softReset.irqErri = false := rfl
@[simp] theorem State.softReset_doneEn : s.softReset.doneEn = false := rfl
@[simp] theorem State.softReset_erriEn : s.softReset.erriEn = false := rfl
@[simp] theorem State.softReset_bsLen : s.softReset.bsLen = 0 := rfl
@[simp] theorem State.softReset_bsPos : s.softReset.bsPos = 0 := rfl
@[simp] theorem State.softReset_pxStride : s.softReset.pxStride = 0 := rfl
@[simp] theorem State.softReset_pxLen : s.softReset.pxLen = 0 := rfl
@[simp] theorem State.softReset_audFirst : s.softReset.audFirst = true := rfl
@[simp] theorem State.softReset_trees : s.softReset.trees = Vector.replicate 32 SymbolTree.reset := rfl
@[simp] theorem State.softReset_cmdl : s.softReset.cmdl = 0 := rfl
@[simp] theorem State.softReset_srstPend : s.softReset.srstPend = false := rfl
@[simp] theorem State.softReset_mem : s.softReset.mem = s.mem := rfl
@[simp] theorem State.softReset_latency : s.softReset.latency = s.latency := rfl
@[simp] theorem State.softReset_draws : s.softReset.draws = s.draws := rfl
@[simp] theorem State.softReset_hostq : s.softReset.hostq = s.hostq := rfl
@[simp] theorem State.softReset_replies : s.softReset.replies = s.replies := rfl

end Sys2Proof.Machine
end

