-- ==== Sys2Proof/Laws/Memory.lean ====
section
/-! SUPPORT. What the memory operations do: the byte held after a write, the canonical form, and words. -/

namespace Sys2Proof.Machine

/-! ### One write of consecutive bytes -/

theorem Memory.lookup_cells (bs : List Byte) (a x : Nat) :
    (Memory.cells a bs).lookup x = if a ≤ x then bs[x - a]? else none := by
  induction bs generalizing a with
  | nil => simp [Memory.cells]
  | cons b bs ih =>
    rw [Memory.cells, List.lookup_cons, ih]
    by_cases hx : x = a
    · simp [hx]
    · by_cases hle : a + 1 ≤ x
      · obtain ⟨k, rfl⟩ : ∃ k, x = a + 1 + k := ⟨x - (a + 1), by omega⟩
        have h1 : a + 1 + k - a = (a + 1 + k - (a + 1)) + 1 := by omega
        have h2 : (a + 1 + k == a) = false := by simp; omega
        simp only [h2, h1, List.getElem?_cons_succ]
        simp; omega
      · have h1 : ¬ a ≤ x := by omega
        have h2 : (x == a) = false := by simpa using hx
        simp [h2, hle, h1]

theorem Memory.lookup_filter (m : Memory) (p : Nat → Bool) (x : Nat) :
    (m.filter fun c => p c.1).lookup x = if p x then m.lookup x else none := by
  induction m with
  | nil => simp
  | cons c m ih =>
    obtain ⟨k, v⟩ := c
    by_cases hk : p k
    · rw [List.filter_cons_of_pos (by simpa using hk), List.lookup_cons, List.lookup_cons, ih]
      by_cases hx : x = k
      · simp [hx, hk]
      · have : (x == k) = false := by simpa using hx
        simp [this]
    · rw [List.filter_cons_of_neg (by simpa using hk), ih, List.lookup_cons]
      by_cases hx : x = k
      · simp [hx, hk]
      · have : (x == k) = false := by simpa using hx
        simp [this]

/-- The offsets of consecutive bytes. -/
theorem Memory.mem_cells {bs : List Byte} {a : Nat} {c : Host.Cell} (h : c ∈ Memory.cells a bs) :
    a ≤ c.1 ∧ c.1 < a + bs.length := by
  induction bs generalizing a with
  | nil => simp [Memory.cells] at h
  | cons b bs ih =>
    rcases List.mem_cons.1 h with rfl | h
    · simp
    · have := ih h
      simp only [List.length_cons]; omega

/-- The byte held at an offset after a write of consecutive bytes. -/
theorem Memory.held_writeBytes (m : Memory) (a : Nat) (bs : List Byte) (x : Nat) :
    (m.writeBytes a bs).held x = if a ≤ x ∧ x < a + bs.length then bs[x - a]? else m.held x := by
  unfold Memory.writeBytes Memory.held
  rw [List.lookup_append, List.lookup_append, Memory.lookup_filter m (fun k => decide (k < a)),
    Memory.lookup_filter m (fun k => decide (a + bs.length ≤ k)), Memory.lookup_cells]
  by_cases h1 : x < a
  · have h2 : ¬ a ≤ x := by omega
    have h3 : ¬ a + bs.length ≤ x := by omega
    simp [h1, h2, h3]
  · by_cases h2 : x < a + bs.length
    · have h3 : x - a < bs.length := by omega
      have h4 : a ≤ x := by omega
      simp [h1, h2, h3, h4]
    · have h3 : bs[x - a]? = none := by rw [List.getElem?_eq_none_iff]; omega
      have h4 : a ≤ x := by omega
      simp [h1, h2, h3, h4]

theorem Memory.held_writeBytes_outside {m : Memory} {a : Nat} {bs : List Byte} {x : Nat}
    (h : x < a ∨ a + bs.length ≤ x) : (m.writeBytes a bs).held x = m.held x := by
  rw [Memory.held_writeBytes, if_neg (by omega)]

theorem Memory.held_writeBytes_inside {m : Memory} {a : Nat} {bs : List Byte} {i : Nat} (h : i < bs.length) :
    (m.writeBytes a bs).held (a + i) = some bs[i] := by
  rw [Memory.held_writeBytes, if_pos (by omega)]
  simp [h]

/-- Every entry after a write is one written or one that was there. -/
theorem Memory.mem_writeBytes {m : Memory} {a : Nat} {bs : List Byte} {c : Host.Cell} (h : c ∈ m.writeBytes a bs) :
    (a ≤ c.1 ∧ c.1 < a + bs.length) ∨ c ∈ m := by
  unfold Memory.writeBytes at h
  simp only [List.mem_append, List.mem_filter] at h
  rcases h with h | h | h
  · exact .inr h.1
  · exact .inl (Memory.mem_cells h)
  · exact .inr h.1

theorem Memory.wf_cells (bs : List Byte) (a : Nat) : (Memory.cells a bs).wf := by
  induction bs generalizing a with
  | nil => simp [Memory.cells, Memory.wf]
  | cons b bs ih =>
    refine List.pairwise_cons.2 ⟨fun c h => ?_, ih _⟩
    have := Memory.mem_cells h
    simp only; omega

/-- A write keeps the canonical form. -/
theorem Memory.wf_writeBytes {m : Memory} (h : m.wf) (a : Nat) (bs : List Byte) : (m.writeBytes a bs).wf := by
  unfold Memory.writeBytes Memory.wf
  rw [List.pairwise_append, List.pairwise_append]
  refine ⟨h.filter _, ⟨Memory.wf_cells bs a, h.filter _, ?_⟩, ?_⟩
  · intro c hcm d hd
    simp only [List.mem_filter, decide_eq_true_eq] at hd
    have := Memory.mem_cells hcm; omega
  · intro c hcm d hd
    simp only [List.mem_filter, List.mem_append, decide_eq_true_eq] at hcm hd
    rcases hd with hd | hd
    · have := Memory.mem_cells hd; omega
    · omega

theorem Memory.wf_reset : State.reset.mem.wf := List.Pairwise.nil

/-! ### Through the state -/

theorem State.held_eq (s : State) (a : Nat) : s.held a = s.mem.held a := rfl

theorem State.held_writeBytes (s : State) (a : Nat) (bs : List Byte) (x : Nat) :
    (s.writeBytes a bs).held x = if a ≤ x ∧ x < a + bs.length then bs[x - a]? else s.held x :=
  Memory.held_writeBytes s.mem a bs x

theorem State.readByte_of_held {s : State} {a : Nat} {b : Byte} (h : s.held a = some b) (tag : Nat) :
    s.readByte tag a = b := by
  simp [State.readByte, h]

/-- A read depends on the byte held and on the count of steps alone. -/
theorem State.readByte_congr {s t : State} {a : Nat} (hm : s.held a = t.held a) (hd : s.draws = t.draws) (tag : Nat) :
    s.readByte tag a = t.readByte tag a := by
  simp [State.readByte, hm, hd]

theorem State.readWord_congr {s t : State} {a : Nat} (hm : ∀ i, i < 4 → s.held (a + i) = t.held (a + i))
    (hd : s.draws = t.draws) (tag : Nat) : s.readWord tag a = t.readWord tag a := by
  unfold State.readWord
  rw [State.readByte_congr (show s.held a = t.held a from hm 0 (by omega)) hd, State.readByte_congr (hm 1 (by omega)) hd,
    State.readByte_congr (hm 2 (by omega)) hd, State.readByte_congr (hm 3 (by omega)) hd]

@[simp] theorem State.length_readBytes (s : State) (tag a n : Nat) : (s.readBytes tag a n).length = n := by
  simp [State.readBytes]

@[simp] theorem State.length_readWords (s : State) (tag a n : Nat) : (s.readWords tag a n).length = n := by
  simp [State.readWords]

/-! ### Words -/

@[simp] theorem Word.length_bytes (w : Word) : w.bytes.length = 4 := rfl

theorem Word.ofBytes_bytes (w : Word) :
    Word.ofBytes (w.extractLsb' 0 8) (w.extractLsb' 8 8) (w.extractLsb' 16 8) (w.extractLsb' 24 8) = w := by
  apply BitVec.eq_of_getLsbD_eq
  intro i hi
  simp only [Word.ofBytes, BitVec.getLsbD_append, BitVec.getLsbD_extractLsb']
  rcases (by omega : i < 8 ∨ (8 ≤ i ∧ i < 16) ∨ (16 ≤ i ∧ i < 24) ∨ 24 ≤ i) with h | h | h | h
  · simp [h]
  · have h1 : ¬ i < 8 := by omega
    have h2 : i - 8 < 8 := by omega
    have h3 : 8 + (i - 8) = i := by omega
    simp [h1, h2, h3]
  · have h1 : ¬ i < 8 := by omega
    have h2 : ¬ i - 8 < 8 := by omega
    have h3 : i - 8 - 8 < 8 := by omega
    have h4 : 16 + (i - 8 - 8) = i := by omega
    simp [h1, h2, h3, h4]
  · have h1 : ¬ i < 8 := by omega
    have h2 : ¬ i - 8 < 8 := by omega
    have h3 : ¬ i - 8 - 8 < 8 := by omega
    have h4 : i - 8 - 8 - 8 < 8 := by omega
    have h5 : 24 + (i - 8 - 8 - 8) = i := by omega
    simp [h1, h2, h3, h4, h5]

/-- A word held is the word read, with any tag. -/
theorem State.readWord_of_holdsWord {s : State} {a : Nat} {w : Word} (h : s.mem.holdsWord a w) (tag : Nat) :
    s.readWord tag a = w := by
  obtain ⟨h0, h1, h2, h3⟩ := h
  unfold State.readWord
  rw [State.readByte_of_held h0, State.readByte_of_held h1, State.readByte_of_held h2, State.readByte_of_held h3]
  exact Word.ofBytes_bytes w

@[simp] theorem length_flatMap_bytes (ws : List Word) : (ws.flatMap Word.bytes).length = 4 * ws.length := by
  induction ws with
  | nil => rfl
  | cons w ws ih => rw [List.flatMap_cons, List.length_append, ih]; simp; omega

theorem getElem?_flatMap_bytes (ws : List Word) (i j : Nat) (hi : i < ws.length) (hj : j < 4) :
    (ws.flatMap Word.bytes)[4 * i + j]? = ws[i].bytes[j]? := by
  induction ws generalizing i with
  | nil => simp at hi
  | cons w ws ih =>
    rw [List.flatMap_cons]
    cases i with
    | zero => rw [List.getElem?_append_left (by simpa using hj)]; simp
    | succ i =>
      rw [List.getElem?_append_right (by simp; omega)]
      have h : 4 * (i + 1) + j - w.bytes.length = 4 * i + j := by simp; omega
      rw [h, ih i (by simpa using hi)]
      simp

/-- Each word of a write of consecutive words is held where it was written. -/
theorem Memory.holdsWord_writeWords (m : Memory) (a : Nat) (ws : List Word) (i : Nat) (hi : i < ws.length) :
    (m.writeBytes a (ws.flatMap Word.bytes)).holdsWord (a + 4 * i) ws[i] := by
  have key : ∀ j, (hj : j < 4) →
      (m.writeBytes a (ws.flatMap Word.bytes)).held (a + 4 * i + j) = ws[i].bytes[j]? := by
    intro j hj
    rw [Memory.held_writeBytes, if_pos (by rw [length_flatMap_bytes]; omega)]
    have : a + 4 * i + j - a = 4 * i + j := by omega
    rw [this, getElem?_flatMap_bytes ws i j hi hj]
  refine ⟨?_, ?_, ?_, ?_⟩
  · simpa [Word.bytes] using key 0 (by omega)
  · simpa [Word.bytes] using key 1 (by omega)
  · simpa [Word.bytes] using key 2 (by omega)
  · simpa [Word.bytes] using key 3 (by omega)

/-- A write of consecutive words leaves every byte outside them. -/
theorem Memory.held_writeWords_outside {m : Memory} {a : Nat} {ws : List Word} {x : Nat}
    (h : x < a ∨ a + 4 * ws.length ≤ x) : (m.writeBytes a (ws.flatMap Word.bytes)).held x = m.held x :=
  Memory.held_writeBytes_outside (by rw [length_flatMap_bytes]; exact h)

end Sys2Proof.Machine
end

