-- ==== Sys2Proof/Laws/Stream.lean ====
section
/-! SUPPORT. What the stream operations can do: which bits they give, and that they only advance `BS_POS`. -/

namespace Sys2Proof.Machine

/-! ### The position -/

theorem State.advance_toNat (s : State) (n : Nat) : (s.advance n).bsPos.toNat = min (s.bsPos.toNat + n) posMax := by
  have : min (s.bsPos.toNat + n) posMax < 2 ^ 32 := by unfold posMax; omega
  rw [State.advance_bsPos, BitVec.toNat_ofNat, Nat.mod_eq_of_lt this]

@[simp] theorem State.advance_zero (s : State) : s.advance 0 = s := by
  have h1 := s.bsPos.isLt
  have h2 : min s.bsPos.toNat posMax = s.bsPos.toNat := by unfold posMax; omega
  simp [State.advance, h2]

/-- Two advances are one: the saturation does not depend on how the distance is cut. -/
@[simp] theorem State.advance_advance (s : State) (m n : Nat) : (s.advance m).advance n = s.advance (m + n) := by
  have h : min ((s.advance m).bsPos.toNat + n) posMax = min (s.bsPos.toNat + (m + n)) posMax := by
    rw [State.advance_toNat]; omega
  have e : (s.advance m).advance n = { s with bsPos := BitVec.ofNat 32 (min ((s.advance m).bsPos.toNat + n) posMax) } :=
    rfl
  rw [e, h]; rfl

@[simp] theorem State.readBits_fst (s : State) (n : Nat) : (s.readBits n).1 = s.peekBits n := rfl

@[simp] theorem State.readBits_snd (s : State) (n : Nat) : (s.readBits n).2 = s.advance n := rfl

/-! ### Bits -/

@[simp] theorem State.streamBit_advance (s : State) (n p : Nat) : (s.advance n).streamBit p = s.streamBit p := rfl

@[simp] theorem State.bitsFrom_advance (s : State) (k p n : Nat) : (s.advance k).bitsFrom p n = s.bitsFrom p n := by
  induction n generalizing p with
  | zero => rfl
  | succ n ih => simp only [State.bitsFrom, State.streamBit_advance, ih]

theorem State.bitsFrom_lt (s : State) (p n : Nat) : s.bitsFrom p n < 2 ^ n := by
  induction n generalizing p with
  | zero => simp [State.bitsFrom]
  | succ n ih =>
    have h1 := ih (p + 1)
    have h2 : (s.streamBit p).toNat ≤ 1 := Bool.toNat_le _
    rw [State.bitsFrom, Nat.pow_succ]; omega

/-- The bits of a field: bit i is the stream bit i places on. -/
theorem State.testBit_bitsFrom (s : State) (p n i : Nat) :
    (s.bitsFrom p n).testBit i = (decide (i < n) && s.streamBit (p + i)) := by
  induction n generalizing p i with
  | zero => simp [State.bitsFrom]
  | succ n ih =>
    rw [State.bitsFrom]
    cases i with
    | zero => cases s.streamBit p <;> simp [Nat.testBit_zero]
    | succ i =>
      rw [Nat.testBit_succ]
      have h2 : ((s.streamBit p).toNat + 2 * s.bitsFrom (p + 1) n) / 2 = s.bitsFrom (p + 1) n := by
        have : (s.streamBit p).toNat ≤ 1 := Bool.toNat_le _
        omega
      rw [h2, ih]
      have h3 : p + 1 + i = p + (i + 1) := by omega
      simp [h3]

theorem State.bitsFrom_one (s : State) (p : Nat) : s.bitsFrom p 1 = (s.streamBit p).toNat := rfl

/-- Past the valid bytes the stream is 0 (40_bitstream.md R130). -/
theorem State.bitsFrom_past {s : State} {p : Nat} (h : 8 * s.bsLen.toNat ≤ p) (n : Nat) : s.bitsFrom p n = 0 := by
  induction n generalizing p with
  | zero => rfl
  | succ n ih =>
    have h1 : s.streamBit p = false := by
      have : ¬ p / 8 < s.bsLen.toNat := by omega
      simp [State.streamBit, this]
    rw [State.bitsFrom, h1, ih (by omega)]; rfl

/-- With a legal `BS_LEN` the stream ends long before the position saturates. -/
theorem State.LengthsLegal.stream_end {s : State} (h : s.LengthsLegal) : 8 * s.bsLen.toNat ≤ 2 ^ 23 := by
  have h1 := h.1
  have h2 : s.params.bsmBytes ≤ 2 ^ 20 := Nat.pow_le_pow_right (by omega) (by have := s.params.bsm.isLt; simp only [Params.bsmLog]; omega)
  omega

@[simp] theorem State.lengthsLegal_advance (s : State) (n : Nat) : (s.advance n).LengthsLegal ↔ s.LengthsLegal := Iff.rfl

/-- After an advance the next bits are those that many places on, saturated or not. -/
theorem State.peekBits_advance {s : State} (h : s.LengthsLegal) (m n : Nat) :
    (s.advance m).peekBits n = s.bitsFrom (s.bsPos.toNat + m) n := by
  have he := h.stream_end
  rw [State.peekBits, State.bitsFrom_advance, State.advance_toNat]
  by_cases hs : s.bsPos.toNat + m ≤ posMax
  · rw [Nat.min_eq_left hs]
  · have : 2 ^ 23 ≤ posMax := by decide
    rw [State.bitsFrom_past (by omega), State.bitsFrom_past (by omega)]

/-! ### The tree reader -/

theorem readSymbols_state (n : Nat) (s : State) : (readSymbols n s).2 = s.advance (4 * n) := by
  induction n generalizing s with
  | zero => simp [readSymbols]
  | succ n ih =>
    simp only [readSymbols, State.readBits, ih, State.advance_advance]
    congr 1; omega

@[simp] theorem length_readSymbols (n : Nat) (s : State) : (readSymbols n s).1.length = n := by
  induction n generalizing s with
  | zero => rfl
  | succ n ih => simp [readSymbols, ih]

/-- Symbol i of the symbols read is the four bits at its place. -/
theorem readSymbols_get {s : State} (h : s.LengthsLegal) (n i : Nat) (hi : i < n) :
    (readSymbols n s).1[i]? = some (BitVec.ofNat 4 (s.bitsFrom (s.bsPos.toNat + 4 * i) 4)) := by
  suffices key : ∀ m, (readSymbols n (s.advance m)).1[i]? =
      some (BitVec.ofNat 4 (s.bitsFrom (s.bsPos.toNat + m + 4 * i) 4)) by simpa using key 0
  induction n generalizing i with
  | zero => omega
  | succ n ih =>
    intro m
    simp only [readSymbols, State.readBits, State.advance_advance]
    cases i with
    | zero => simp [State.peekBits_advance h]
    | succ i =>
      rw [List.getElem?_cons_succ, ih i (by omega)]
      congr 3; omega

theorem orderMode_state (s : State) :
    ∃ len, len < 8 ∧ len = s.peekBits 3 ∧ (orderMode s).2 = s.advance (3 + 4 * (len + 1)) := by
  refine ⟨s.peekBits 3, ?_, rfl, ?_⟩
  · exact State.bitsFrom_lt _ _ 3
  · simp [orderMode, State.readBits, readSymbols_state]

/-! ### Merges -/

@[simp] theorem State.zerosFrom_zero (s : State) (p : Nat) : s.zerosFrom p 0 = 0 := rfl

/-- The count of zero bits, one bit at a time from the front, as a merge reads them. -/
theorem State.zerosFrom_succ (s : State) (p k : Nat) :
    s.zerosFrom p (k + 1) = (if s.streamBit p then 0 else 1) + s.zerosFrom (p + 1) k := by
  have shift : ((fun k => !s.streamBit (p + k)) ∘ Nat.succ) = fun k => !s.streamBit (p + 1 + k) := by
    funext k
    simp only [Function.comp_apply, Nat.succ_eq_add_one]
    congr 2
    omega
  simp only [State.zerosFrom, List.range_succ_eq_map, List.countP_cons, List.countP_map, Nat.add_zero, shift]
  cases s.streamBit p <;> simp; omega

theorem State.zerosFrom_le (s : State) (p k : Nat) : s.zerosFrom p k ≤ k :=
  List.countP_le_length.trans (by simp)

/-- A merge of two blocks that are not exhausted takes the entry its next bit names. -/
theorem merge_cons {s : State} (h : s.LengthsLegal) (fuel m : Nat) (a b : BitVec 4) (as bs : List (BitVec 4)) :
    merge (fuel + 1) (a :: as) (b :: bs) (s.advance m) =
      if s.streamBit (s.bsPos.toNat + m) then
        let rest := merge fuel (a :: as) bs (s.advance (m + 1))
        (b :: rest.1, rest.2)
      else
        let rest := merge fuel as (b :: bs) (s.advance (m + 1))
        (a :: rest.1, rest.2) := by
  have bit : (s.advance m).peekBits 1 = (s.streamBit (s.bsPos.toNat + m)).toNat := by
    rw [State.peekBits_advance h, State.bitsFrom_one]
  cases hb : s.streamBit (s.bsPos.toNat + m) <;> simp [merge, bit, hb]

theorem merge_nil_left (fuel : Nat) (bs : List (BitVec 4)) (s : State) : merge fuel [] bs s = (bs, s) := by
  cases fuel <;> simp [merge]

theorem merge_nil_right (fuel : Nat) (as : List (BitVec 4)) (s : State) : merge fuel as [] s = (as, s) := by
  cases fuel <;> cases as <;> simp [merge]

/-- A merge loses nothing. -/
theorem merge_perm (fuel : Nat) (as bs : List (BitVec 4)) (s : State) : (merge fuel as bs s).1.Perm (as ++ bs) := by
  induction fuel generalizing as bs s with
  | zero => simp [merge]
  | succ fuel ih =>
    cases as with
    | nil => simp [merge]
    | cons a as =>
      cases bs with
      | nil => simp [merge]
      | cons b bs =>
        simp only [merge]
        split
        · simpa using ih as (b :: bs) _
        · refine ((ih (a :: as) bs _).cons b).trans ?_
          exact List.perm_middle.symm

theorem merge_advance (fuel : Nat) (as bs : List (BitVec 4)) (s : State) (hf : as.length + bs.length ≤ fuel) :
    ∃ n, (as ≠ [] → bs ≠ [] → min as.length bs.length ≤ n ∧ n + 1 ≤ as.length + bs.length) ∧
      (as = [] ∨ bs = [] → n = 0) ∧ (merge fuel as bs s).2 = s.advance n := by
  induction fuel generalizing as bs s with
  | zero =>
    refine ⟨0, ?_, fun _ => rfl, by simp [merge]⟩
    intro h1; cases as <;> simp_all
  | succ fuel ih =>
    cases as with
    | nil => exact ⟨0, by simp, fun _ => rfl, by simp [merge]⟩
    | cons a as =>
      cases bs with
      | nil => exact ⟨0, by simp, fun _ => rfl, by simp [merge]⟩
      | cons b bs =>
        simp only [merge]
        simp only [List.length_cons] at hf
        split
        · obtain ⟨n, h1, h2, h3⟩ := ih as (b :: bs) (s.readBits 1).2 (by simp only [List.length_cons]; omega)
          refine ⟨1 + n, ?_, by simp, h3.trans (State.advance_advance s 1 n)⟩
          intro _ _
          by_cases ha : as = []
          · subst ha; have := h2 (.inl rfl); simp only [List.length_cons, List.length_nil]; omega
          · have := h1 ha (by simp); simp only [List.length_cons] at this ⊢; omega
        · obtain ⟨n, h1, h2, h3⟩ := ih (a :: as) bs (s.readBits 1).2 (by simp only [List.length_cons]; omega)
          refine ⟨1 + n, ?_, by simp, h3.trans (State.advance_advance s 1 n)⟩
          intro _ _
          by_cases hb : bs = []
          · subst hb; have := h2 (.inr rfl); simp only [List.length_cons, List.length_nil]; omega
          · have := h1 (by simp) hb; simp only [List.length_cons] at this ⊢; omega

/-- One pass over `blocks` pairs of full blocks: a permutation, and between `size` and `2·size − 1` bits a pair. -/
theorem mergePass_spec (size blocks : Nat) (l : List (BitVec 4)) (s : State) (hs : 1 ≤ size)
    (hl : 2 * size * blocks ≤ l.length) :
    (mergePass size blocks l s).1.Perm l ∧
      ∃ n, size * blocks ≤ n ∧ n ≤ (2 * size - 1) * blocks ∧ (mergePass size blocks l s).2 = s.advance n := by
  induction blocks generalizing l s with
  | zero => exact ⟨List.Perm.refl _, 0, by simp, by simp, by simp [mergePass]⟩
  | succ blocks ih =>
    simp only [Nat.mul_succ] at hl
    have ha : (l.take size).length = size := by rw [List.length_take]; omega
    have hb : ((l.drop size).take size).length = size := by rw [List.length_take, List.length_drop]; omega
    obtain ⟨n, h1, -, h3⟩ := merge_advance (2 * size) (l.take size) ((l.drop size).take size) s (by omega)
    have h1 := h1 (by rw [← List.length_pos_iff]; omega) (by rw [← List.length_pos_iff]; omega)
    rw [ha, hb] at h1
    obtain ⟨hp, k, k1, k2, k3⟩ := ih (l.drop (2 * size))
      (merge (2 * size) (l.take size) ((l.drop size).take size) s).2 (by rw [List.length_drop]; omega)
    simp only [mergePass]
    refine ⟨?_, n + k, ?_, ?_, ?_⟩
    · have hcut : l.take size ++ (l.drop size).take size ++ l.drop (2 * size) = l := by
        rw [List.append_assoc]
        have : l.drop (2 * size) = (l.drop size).drop size := by rw [List.drop_drop]; congr 1; omega
        rw [this, List.take_append_drop, List.take_append_drop]
      exact ((merge_perm _ _ _ s).append hp).trans (by rw [hcut])
    · rw [Nat.mul_succ]; omega
    · rw [Nat.mul_succ]; omega
    · rw [k3, h3, State.advance_advance]

/-- Shuffle mode permutes 0 to 15 and takes 10 to 51 bits (41_huffman.md R173, R175). -/
theorem shuffleMode_spec (s : State) :
    (shuffleMode s).1.Perm nibbles ∧ ∃ n, 10 ≤ n ∧ n ≤ 51 ∧ (shuffleMode s).2 = s.advance n := by
  have hd : s.peekBits 2 < 4 := State.bitsFrom_lt _ _ 2
  have pass : ∀ (d : Nat), d < 4 → ∀ (l : List (BitVec 4)) (t : State), l.Perm nibbles →
      (mergePass (2 ^ d) (8 / 2 ^ d) l t).1.Perm nibbles ∧
        ∃ n, 8 ≤ n ∧ n ≤ 16 - 8 / 2 ^ d ∧ (mergePass (2 ^ d) (8 / 2 ^ d) l t).2 = t.advance n := by
    intro d hd l t hl
    have hlen : l.length = 16 := hl.length_eq
    have h := mergePass_spec (2 ^ d) (8 / 2 ^ d) l t (Nat.one_le_two_pow)
      (by rw [hlen]; rcases (by omega : d = 0 ∨ d = 1 ∨ d = 2 ∨ d = 3) with rfl | rfl | rfl | rfl <;> decide)
    obtain ⟨h1, n, h2, h3, h4⟩ := h
    refine ⟨h1.trans hl, n, ?_, ?_, h4⟩ <;>
      rcases (by omega : d = 0 ∨ d = 1 ∨ d = 2 ∨ d = 3) with rfl | rfl | rfl | rfl <;> norm_num at h2 h3 ⊢ <;> omega
  simp only [shuffleMode, State.readBits]
  generalize s.peekBits 2 = depth at hd
  obtain ⟨p0, n0, a0, b0, e0⟩ := pass 0 (by omega) nibbles (s.advance 2) (List.Perm.refl _)
  obtain ⟨p1, n1, a1, b1, e1⟩ := pass 1 (by omega) _ (s.advance (2 + n0)) p0
  obtain ⟨p2, n2, a2, b2, e2⟩ := pass 2 (by omega) _ (s.advance (2 + n0 + n1)) p1
  obtain ⟨p3, n3, a3, b3, e3⟩ := pass 3 (by omega) _ (s.advance (2 + n0 + n1 + n2)) p2
  simp only [State.advance_advance] at e0 e1 e2 e3
  norm_num at b0 b1 b2 b3
  rcases (by omega : depth = 0 ∨ depth = 1 ∨ depth = 2 ∨ depth = 3) with rfl | rfl | rfl | rfl
  · exact ⟨p0, 2 + n0, by omega, by omega, by simp only [mergePasses, e0]⟩
  · exact ⟨by simpa only [mergePasses, e0] using p1, 2 + n0 + n1, by omega, by omega, by simp only [mergePasses, e0, e1]⟩
  · exact ⟨by simpa only [mergePasses, e0, e1] using p2, 2 + n0 + n1 + n2, by omega, by omega,
      by simp only [mergePasses, e0, e1, e2]⟩
  · exact ⟨by simpa only [mergePasses, e0, e1, e2] using p3, 2 + n0 + n1 + n2 + n3, by omega, by omega,
      by simp only [mergePasses, e0, e1, e2, e3]⟩

end Sys2Proof.Machine
end

