-- ==== Sys2Proof/Laws/Exec.lean ====
section
/-! SUPPORT. What the shared operations of the commands can do, and what any command can do: an error report, or new
values of RESULT, BS_POS, TREE, the RAMs and AUD_CTRL.FIRST, then the completion. -/

namespace Sys2Proof.Machine

/-! ### The completion -/

@[simp] theorem State.complete_params (s : State) : s.complete.params = s.params := by
  unfold State.complete; split <;> rfl

@[simp] theorem State.complete_mem (s : State) : s.complete.mem = s.mem := by unfold State.complete; split <;> rfl

@[simp] theorem State.complete_draws (s : State) : s.complete.draws = s.draws + 1 := by
  unfold State.complete; split <;> rfl

@[simp] theorem State.complete_latency (s : State) : s.complete.latency = s.latency := by
  unfold State.complete; split <;> rfl

@[simp] theorem State.complete_hostq (s : State) : s.complete.hostq = s.hostq := by unfold State.complete; split <;> rfl

@[simp] theorem State.complete_replies (s : State) : s.complete.replies = s.replies := by
  unfold State.complete; split <;> rfl

@[simp] theorem State.complete_busy (s : State) : s.complete.busy = false := by unfold State.complete; split <;> rfl

@[simp] theorem State.complete_srstPend (s : State) : s.complete.srstPend = false := by
  unfold State.complete
  split
  · rfl
  · rename_i h; simpa using h

/-! A completion without a pending soft reset. -/

section

variable {s : State} (h : s.srstPend = false)

include h

@[simp] theorem State.complete_err : s.complete.err = s.err := by simp [State.complete, h]

@[simp] theorem State.complete_errcode : s.complete.errcode = s.errcode := by simp [State.complete, h]

@[simp] theorem State.complete_errinfo : s.complete.errinfo = s.errinfo := by simp [State.complete, h]

@[simp] theorem State.complete_overrun : s.complete.overrun = s.overrun := by simp [State.complete, h]

@[simp] theorem State.complete_buserr : s.complete.buserr = s.buserr := by simp [State.complete, h]

@[simp] theorem State.complete_arg0 : s.complete.arg0 = s.arg0 := by simp [State.complete, h]

@[simp] theorem State.complete_result : s.complete.result = s.result := by simp [State.complete, h]

@[simp] theorem State.complete_irqErri : s.complete.irqErri = s.irqErri := by simp [State.complete, h]

@[simp] theorem State.complete_doneEn : s.complete.doneEn = s.doneEn := by simp [State.complete, h]

@[simp] theorem State.complete_erriEn : s.complete.erriEn = s.erriEn := by simp [State.complete, h]

@[simp] theorem State.complete_bsLen : s.complete.bsLen = s.bsLen := by simp [State.complete, h]

@[simp] theorem State.complete_bsPos : s.complete.bsPos = s.bsPos := by simp [State.complete, h]

@[simp] theorem State.complete_pxStride : s.complete.pxStride = s.pxStride := by simp [State.complete, h]

@[simp] theorem State.complete_pxLen : s.complete.pxLen = s.pxLen := by simp [State.complete, h]

@[simp] theorem State.complete_audFirst : s.complete.audFirst = s.audFirst := by simp [State.complete, h]

@[simp] theorem State.complete_trees : s.complete.trees = s.trees := by simp [State.complete, h]

@[simp] theorem State.complete_cmdl : s.complete.cmdl = s.cmdl := by simp [State.complete, h]

@[simp] theorem State.complete_irqDone : s.complete.irqDone = true := by simp [State.complete, h]

end

/-! ### The tree reader -/

/-- What reading a tree does: it only advances the position, by the bit counts of 41_huffman.md R175. -/
theorem readTree_state (s : State) : ∃ n, 4 ≤ n ∧ n ≤ 56 ∧ (readTree s).2 = s.advance n := by
  by_cases h0 : s.peekBits 4 = 0
  · exact ⟨4, by omega, by omega, by simp [readTree, h0]⟩
  · by_cases h1 : (s.advance 4).peekBits 1 = 1
    · obtain ⟨len, h2, -, h3⟩ := orderMode_state (s.advance 5)
      exact ⟨5 + (3 + 4 * (len + 1)), by omega, by omega, by simp [readTree, h0, h1, h3]⟩
    · obtain ⟨-, n, h2, h3, h4⟩ := shuffleMode_spec (s.advance 5)
      exact ⟨5 + n, by omega, by omega, by simp [readTree, h0, h1, h4]⟩

/-! ### Row writes -/

/-- Writes of one run of bytes a row leave everything but the RAMs as it was. -/
theorem State.forRows_state (s : State) (row : Nat → State → State)
    (h : ∀ r t, ∃ a bs, row r t = t.writeBytes a bs) : ∃ m, s.forRows row = { s with mem := m } := by
  have step : ∀ r t, (∃ m, t = { s with mem := m }) → ∃ m, row r t = { s with mem := m } := by
    rintro r t ⟨m, rfl⟩
    obtain ⟨a, bs, e⟩ := h r { s with mem := m }
    exact ⟨m.writeBytes a bs, e⟩
  exact step 7 _ (step 6 _ (step 5 _ (step 4 _ (step 3 _ (step 2 _ (step 1 _ (step 0 _ ⟨s.mem, rfl⟩)))))))

/-- A property that every row's write keeps holds after the eight rows. -/
theorem State.forRows_induction (s : State) (row : Nat → State → State) (P : Nat → State → Prop) (h0 : P 0 s)
    (hs : ∀ r t, r < 8 → P r t → P (r + 1) (row r t)) : P 8 (s.forRows row) :=
  hs 7 _ (by omega) (hs 6 _ (by omega) (hs 5 _ (by omega) (hs 4 _ (by omega) (hs 3 _ (by omega) (hs 2 _ (by omega)
    (hs 1 _ (by omega) (hs 0 _ (by omega) h0)))))))

theorem putRow_writes (y : Block) (a r : Nat) (t : State) : ∃ b bs, putRow y a r t = t.writeBytes b bs := ⟨_, _, rfl⟩

theorem addRow_writes (y : Block) (a r : Nat) (t : State) : ∃ b bs, addRow y a r t = t.writeBytes b bs := ⟨_, _, rfl⟩

theorem copyRow_writes (src dst r : Nat) (t : State) : ∃ b bs, copyRow src dst r t = t.writeBytes b bs := ⟨_, _, rfl⟩

@[simp] theorem length_rowBytes (y : Line Word) : (rowBytes y).length = 8 := rfl

@[simp] theorem length_addBytes (old : List Byte) (y : Line Word) (h : old.length = 8) : (addBytes old y).length = 8 := by
  simp [addBytes, h]

/-! ### The overlap -/

theorem State.olaChannel_state (s : State) (n ich ch : Nat) : ∃ m, s.olaChannel n ich ch = { s with mem := m } := by
  unfold State.olaChannel
  split
  · exact ⟨_, rfl⟩
  · exact ⟨_, rfl⟩

/-! ### Any command -/

/-- New values of RESULT, BS_POS, TREE, the RAMs and AUD_CTRL.FIRST alone, then the completion. -/
def State.Completed (s t : State) : Prop :=
  ∃ r p tr m f, t = ({ s with result := r, bsPos := p, trees := tr, mem := m, audFirst := f } : State).complete

theorem State.completed_of_mem {s u : State} (h : ∃ m, u = { s with mem := m }) : s.Completed u.complete := by
  obtain ⟨m, rfl⟩ := h
  exact ⟨_, _, _, _, _, rfl⟩

theorem execTreeRead_shape {k : BitVec 5} {s t : State} (h : execTreeRead k s = .next t) : s.Completed t := by
  obtain ⟨n, -, -, e⟩ := readTree_state s
  have h := Host.Outcome.next.inj h
  simp only [e] at h
  exact ⟨_, _, _, _, _, h.symm⟩

theorem execMcCopy8_shape {xoff yoff : BitVec 8} {s t : State} (h : execMcCopy8 xoff yoff s = .next t) :
    t = s.raise .range ∨ s.Completed t := by
  unfold execMcCopy8 at h
  split at h
  · split at h
    · exact .inr (Host.Outcome.next.inj h ▸ State.completed_of_mem ⟨s.mem, rfl⟩)
    · exact .inr (Host.Outcome.next.inj h ▸ State.completed_of_mem (s.forRows_state _ (copyRow_writes _ _)))
  · exact .inl (Host.Outcome.next.inj h).symm

theorem execIdctPut_shape {s t : State} (h : execIdctPut s = .next t) : t = s.raise .range ∨ s.Completed t := by
  unfold execIdctPut at h
  split at h
  · exact .inr (Host.Outcome.next.inj h ▸ State.completed_of_mem (s.forRows_state _ (putRow_writes _ _)))
  · exact .inl (Host.Outcome.next.inj h).symm

theorem execIdctAdd_shape {s t : State} (h : execIdctAdd s = .next t) : t = s.raise .range ∨ s.Completed t := by
  unfold execIdctAdd at h
  split at h
  · exact .inr (Host.Outcome.next.inj h ▸ State.completed_of_mem (s.forRows_state _ (addRow_writes _ _)))
  · exact .inl (Host.Outcome.next.inj h).symm

theorem execAudOla_shape {i2 : BitVec 1} {nbits : BitVec 4} {s t : State} (h : execAudOla i2 nbits s = .next t) :
    t = s.raise .illegal ∨ s.Completed t := by
  unfold execAudOla at h
  split at h
  · obtain ⟨m, e⟩ := s.olaChannel_state (2 ^ nbits.toNat) (1 + i2.toNat) 0
    have h := Host.Outcome.next.inj h
    simp only [e] at h
    split at h
    · exact .inr ⟨_, _, _, _, _, h.symm⟩
    · obtain ⟨m', e'⟩ := ({ s with mem := m } : State).olaChannel_state (2 ^ nbits.toNat) (1 + i2.toNat) 1
      rw [e'] at h
      exact .inr ⟨_, _, _, _, _, h.symm⟩
  · exact .inl (Host.Outcome.next.inj h).symm

/-- Everything a command can do. -/
theorem exec_shape {i : Instr} {s t : State} (h : exec i s = .next t) : (∃ c, t = s.raise c) ∨ s.Completed t := by
  have done : ∀ u : State, (∃ r p tr m f, u =
      { s with result := r, bsPos := p, trees := tr, mem := m, audFirst := f }) → s.Completed u.complete := by
    rintro u ⟨r, p, tr, m, f, rfl⟩
    exact ⟨r, p, tr, m, f, rfl⟩
  cases i <;> simp only [exec] at h
  case treeRead k => exact .inr (execTreeRead_shape h)
  case mcCopy8 xoff yoff => exact (execMcCopy8_shape h).imp (fun e => ⟨_, e⟩) id
  case idctPut => exact (execIdctPut_shape h).imp (fun e => ⟨_, e⟩) id
  case idctAdd => exact (execIdctAdd_shape h).imp (fun e => ⟨_, e⟩) id
  case audOla i2 nbits => exact (execAudOla_shape h).imp (fun e => ⟨_, e⟩) id
  case frameCopy dir => cases dir <;> cases h <;> exact .inr (done _ ⟨_, _, _, _, _, rfl⟩)
  case hufDecode k =>
    unfold execHufDecode at h
    split at h
    · split at h <;> cases h
      · exact .inl ⟨_, rfl⟩
      · exact .inr (done _ ⟨_, _, _, _, _, rfl⟩)
    · cases h
  all_goals
    simp only [execNop, execBsRead, execBsPeek, execBsRead1, execBsSkip, execBsAlign32, execBsLeft, execBsSign,
      execIdctInt, execAudIdct3, execAudIrdft, execAudFft, execAudScale] at h
    repeat' split at h
  all_goals cases h
  all_goals first
    | exact .inl ⟨_, rfl⟩
    | exact .inr (done _ ⟨_, _, _, _, _, rfl⟩)

/-- No command faults. -/
theorem exec_ne_fault (i : Instr) (s : State) (f : Fault) : exec i s ≠ .fault f := by
  cases i <;> simp only [exec, execNop, execBsRead, execBsPeek, execBsRead1, execBsSkip, execBsAlign32, execBsLeft,
    execBsSign, execHufDecode, execTreeRead, execMcCopy8, execFrameCopy, execIdctPut, execIdctAdd, execIdctInt,
    execAudIdct3, execAudIrdft, execAudFft, execAudScale, execAudOla] <;> (repeat' split) <;> simp

/-- The one refusal: HUF_DECODE under code tables that are not well formed (41_huffman.md R161). -/
theorem exec_refused {i : Instr} {s : State} {r : Refusal} (h : exec i s = .refused r) :
    ∃ k, i = .hufDecode k ∧ tablesWf s.params.huff = false ∧ r = .illFormedCodeTables := by
  cases i <;> simp only [exec, execNop, execBsRead, execBsPeek, execBsRead1, execBsSkip, execBsAlign32, execBsLeft,
    execBsSign, execTreeRead, execMcCopy8, execFrameCopy, execIdctPut, execIdctAdd, execIdctInt,
    execAudIdct3, execAudIrdft, execAudFft, execAudScale, execAudOla] at h <;> (repeat' split at h) <;>
    try cases h
  rename_i k
  unfold execHufDecode at h
  split at h
  · split at h <;> cases h
  · rename_i hw
    cases h
    exact ⟨k, rfl, by simpa using hw, rfl⟩

/-- What a command ended with an error leaves: the report of 60_exceptions.md R303, then the completion. -/
theorem State.raise_eq (s : State) (c : ErrCode) :
    s.raise c = ({ s with err := true, errcode := c.bits, errinfo := s.cmdl, irqErri := true } : State).complete := rfl

theorem ErrCode.bits_cases (c : ErrCode) : c.bits = 1 ∨ c.bits = 2 ∨ c.bits = 3 := by cases c <;> simp [ErrCode.bits]

end Sys2Proof.Machine
end

