-- ==== Sys2Proof/Laws/Bus.lean ====
section
/-! SUPPORT. What a host access can do: which item an offset reaches, the frame of an access, and the cases of a step. -/

namespace Sys2Proof.Machine

/-! ### Which item an offset reaches -/

theorem State.access_write {s : State} {off : Nat} {t : Target} (h : admitted s.params off 4 = some t) (v : Word) :
    s.access off 4 (.write v) = s.busWrite t v := by
  simp [State.access, h]

theorem State.access_read {s : State} {off : Nat} {t : Target} (h : admitted s.params off 4 = some t) :
    s.access off 4 .read = s.reply (s.busRead off t) := by
  simp [State.access, h]

theorem State.access_refused {s : State} {off width : Nat} (h : admitted s.params off width = none) (v : Word) :
    s.access off width .read = s.setBusErr.reply 0 ∧ s.access off width (.write v) = s.setBusErr := by
  simp [State.access, h]

/-- The registers of the control page, by their offsets. -/
theorem admitted_reg (p : Params) (k : Nat) (hk : k < 16) : admitted p (4 * k) 4 = (Reg.ofIndex k).map .reg := by
  have h1 : 4 * k % 4 = 0 := by omega
  have h2 : inWindow 0 0x40 (4 * k) := ⟨by omega, by omega⟩
  have h3 : 4 * k / 4 = k := by omega
  simp only [admitted, h1, and_self, if_true, target, if_pos h2, h3]

/-- The four words of a tree, by their offsets. -/
theorem admitted_tree (p : Params) (k : BitVec 5) (j : Nat) (hj : j < 4) :
    admitted p (0x400 + 16 * k.toNat + 4 * j) 4 = some (.tree k (BitVec.ofNat 2 j)) := by
  have hk := k.isLt
  have h1 : (0x400 + 16 * k.toNat + 4 * j) % 4 = 0 := by omega
  have h2 : ¬ inWindow 0 0x40 (0x400 + 16 * k.toNat + 4 * j) := by unfold inWindow; omega
  have h3 : inWindow 0x400 0x200 (0x400 + 16 * k.toNat + 4 * j) := by unfold inWindow; omega
  have h4 : (0x400 + 16 * k.toNat + 4 * j - 0x400) / 16 = k.toNat := by omega
  have h5 : (0x400 + 16 * k.toNat + 4 * j - 0x400) / 4 = 4 * k.toNat + j := by omega
  have h6 : BitVec.ofNat 2 (4 * k.toNat + j) = BitVec.ofNat 2 j := by
    apply BitVec.eq_of_toNat_eq; simp
  simp only [admitted, h1, and_self, if_true, target, if_neg h2, if_pos h3, h4, h5, h6, BitVec.ofNat_toNat,
    BitVec.setWidth_eq]

theorem ramWindow_iff (p : Params) (off : Nat) :
    ramWindow p off ↔ (0x800 ≤ off ∧ off < 0x900) ∨ (0x10000 ≤ off ∧ off < 0x18000) ∨ (0x18000 ≤ off ∧ off < 0x18800) ∨
      (0x100000 ≤ off ∧ off < 0x100000 + p.bsmBytes) ∨ (0x1000000 ≤ off ∧ off < 0x1000000 + p.pxmBytes) ∨
      (0x2000000 ≤ off ∧ off < 0x2000000 + p.pxmBytes) := by
  simp only [ramWindow, inWindow, cblkBase, acBase, owBase, bsmBase, curBase, prevBase]

theorem admitted_ram {p : Params} {off : Nat} (h4 : off % 4 = 0) (h : ramWindow p off) :
    admitted p off 4 = some (.ram off) := by
  have hw := (ramWindow_iff p off).1 h
  have h1 : ¬ inWindow 0 0x40 off := by unfold inWindow; omega
  have h2 : ¬ inWindow 0x400 0x200 off := by unfold inWindow; omega
  have h3 : ¬ inWindow oblkBase 0x100 off := by unfold inWindow oblkBase; omega
  simp only [admitted, h4, and_self, if_true, target, if_neg h1, if_neg h2, if_neg h3, if_pos h]

theorem admitted_oblk {p : Params} {off : Nat} (h4 : off % 4 = 0) (h : inWindow oblkBase 0x100 off) :
    admitted p off 4 = some (.oblk off) := by
  have hw := h
  unfold inWindow oblkBase at hw
  have h1 : ¬ inWindow 0 0x40 off := by unfold inWindow; omega
  have h2 : ¬ inWindow 0x400 0x200 off := by unfold inWindow; omega
  simp only [admitted, h4, and_self, if_true, target, if_neg h1, if_neg h2, if_pos h]

/-- The sizes the parameters give: `BSM_BYTES` and `PXM_BYTES` are multiples of 4 within their windows. -/
theorem bsm_facts (p : Params) : p.bsmBytes ≤ 2 ^ 20 ∧ p.bsmBytes % 4 = 0 := by
  have h := p.bsm.isLt
  refine ⟨Nat.pow_le_pow_right (by omega) (by simp only [Params.bsmLog]; omega), ?_⟩
  have : p.bsmBytes = 4 * 2 ^ (10 + p.bsm.val) := by simp only [Params.bsmBytes, Params.bsmLog]; ring
  omega

theorem pxm_facts (p : Params) : p.pxmBytes ≤ 2 ^ 24 ∧ p.pxmBytes % 4 = 0 := by
  have h := p.pxm.isLt
  refine ⟨Nat.pow_le_pow_right (by omega) (by simp only [Params.pxmLog]; omega), ?_⟩
  have : p.pxmBytes = 4 * 2 ^ (10 + p.pxm.val) := by simp only [Params.pxmBytes, Params.pxmLog]; ring
  omega

/-- Every word an admitted RAM access reaches lies in the RAMs with all its bytes. -/
theorem ramWindow_word {p : Params} {off i : Nat} (h4 : off % 4 = 0) (h : ramWindow p off) (hi : i < 4) :
    ramWindow p (off + i) := by
  rw [ramWindow_iff] at h ⊢
  have h1 := bsm_facts p
  have h2 := pxm_facts p
  rcases h with h | h | h | h | h | h <;> omega

/-- What an admitted offset reaches. -/
theorem admitted_cases {p : Params} {off width : Nat} {t : Target} (h : admitted p off width = some t) :
    width = 4 ∧ off % 4 = 0 ∧
      ((∃ r, t = .reg r ∧ off < 0x40 ∧ Reg.ofIndex (off / 4) = some r) ∨
       (∃ k w, t = .tree k w ∧ off = 0x400 + 16 * k.toNat + 4 * w.toNat) ∨
       (t = .oblk off ∧ inWindow oblkBase 0x100 off) ∨ (t = .ram off ∧ ramWindow p off)) := by
  unfold admitted at h
  split at h
  · rename_i hw
    refine ⟨hw.1, hw.2, ?_⟩
    unfold target at h
    split at h
    · rename_i h1
      rw [Option.map_eq_some_iff] at h
      obtain ⟨r, hr, rfl⟩ := h
      exact .inl ⟨r, rfl, by unfold inWindow at h1; omega, hr⟩
    · split at h
      · rename_i h1
        unfold inWindow at h1
        refine .inr (.inl ⟨_, _, (Option.some.inj h).symm, ?_⟩)
        simp only [BitVec.toNat_ofNat]
        omega
      · split at h
        · rename_i h1
          exact .inr (.inr (.inl ⟨(Option.some.inj h).symm, h1⟩))
        · split at h
          · rename_i h1
            exact .inr (.inr (.inr ⟨(Option.some.inj h).symm, h1⟩))
          · cases h
  · cases h

/-! ### What an access leaves -/

/-- While a command is in flight an access changes only the status flags, the interrupt bits, the pending request and the
replies. -/
theorem State.access_busy (s : State) (hb : s.busy = true) (off width : Nat) (op : HostOp) :
    ∃ e c i o b d r de ee p q, s.access off width op = { s with
      err := e, errcode := c, errinfo := i, overrun := o, buserr := b, irqDone := d, irqErri := r, doneEn := de,
      erriEn := ee, srstPend := p, replies := q } := by
  unfold State.access
  split
  · exact ⟨_, _, _, _, _, _, _, _, _, _, _, rfl⟩
  · unfold State.busWrite
    rw [if_pos hb]
    split
    · rename_i t _ v _ hl
      cases t with
      | reg r =>
        cases r <;> cases hl
        · simp only [State.writeTarget, State.writeReg, State.writeStatus]
          split <;> exact ⟨_, _, _, _, _, _, _, _, _, _, _, rfl⟩
        · simp only [State.writeTarget, State.writeReg, State.writeCtrl, if_pos hb]
          split <;> exact ⟨_, _, _, _, _, _, _, _, _, _, _, rfl⟩
        · exact ⟨_, _, _, _, _, _, _, _, _, _, _, rfl⟩
        · exact ⟨_, _, _, _, _, _, _, _, _, _, _, rfl⟩
      | tree t w => cases hl
      | ram off => cases hl
      | oblk off => cases hl
    · exact ⟨_, _, _, _, _, _, _, _, _, _, _, rfl⟩
    · exact ⟨_, _, _, _, _, _, _, _, _, _, _, rfl⟩
  · exact ⟨_, _, _, _, _, _, _, _, _, _, _, rfl⟩
  · exact ⟨_, _, _, _, _, _, _, _, _, _, _, rfl⟩

/-- The frame of `State.access_busy`, field by field. -/
theorem State.access_busy_frame {s u : State} {off width : Nat} {op : HostOp} (hb : s.busy = true)
    (hu : u = s.access off width op) :
    u.params = s.params ∧ u.busy = s.busy ∧ u.arg0 = s.arg0 ∧ u.result = s.result ∧ u.bsLen = s.bsLen ∧
    u.bsPos = s.bsPos ∧ u.pxStride = s.pxStride ∧ u.pxLen = s.pxLen ∧ u.audFirst = s.audFirst ∧ u.trees = s.trees ∧
    u.cmdl = s.cmdl ∧ u.mem = s.mem ∧ u.latency = s.latency ∧ u.draws = s.draws ∧ u.hostq = s.hostq := by
  obtain ⟨e, c, i, o, b, d, r, de, ee, p, q, h⟩ := s.access_busy hb off width op
  rw [hu, h]
  exact ⟨rfl, rfl, rfl, rfl, rfl, rfl, rfl, rfl, rfl, rfl, rfl, rfl, rfl, rfl, rfl⟩

@[simp] theorem State.acceptCmd_frame (s : State) (w : Word) :
    (s.acceptCmd w).params = s.params ∧ (s.acceptCmd w).draws = s.draws ∧ (s.acceptCmd w).hostq = s.hostq ∧
    (s.acceptCmd w).mem = s.mem ∧ (s.acceptCmd w).trees = s.trees := by
  unfold State.acceptCmd
  split <;> exact ⟨rfl, rfl, rfl, rfl, rfl⟩

@[simp] theorem State.writeStatus_frame (s : State) (v : Word) :
    (s.writeStatus v).params = s.params ∧ (s.writeStatus v).draws = s.draws ∧ (s.writeStatus v).hostq = s.hostq ∧
    (s.writeStatus v).mem = s.mem ∧ (s.writeStatus v).trees = s.trees := by
  unfold State.writeStatus
  split <;> exact ⟨rfl, rfl, rfl, rfl, rfl⟩

@[simp] theorem State.writeCtrl_frame (s : State) (v : Word) :
    (s.writeCtrl v).params = s.params ∧ (s.writeCtrl v).draws = s.draws ∧ (s.writeCtrl v).hostq = s.hostq ∧
    (s.writeCtrl v).mem = s.mem := by
  unfold State.writeCtrl
  split
  · split <;> exact ⟨rfl, rfl, rfl, rfl⟩
  · exact ⟨rfl, rfl, rfl, rfl⟩

/-- No access changes the parameters, the count of steps or the accesses still waiting. -/
theorem State.access_frame (s : State) (off width : Nat) (op : HostOp) :
    (s.access off width op).params = s.params ∧ (s.access off width op).draws = s.draws ∧
    (s.access off width op).hostq = s.hostq := by
  unfold State.access
  split
  · exact ⟨rfl, rfl, rfl⟩
  · rename_i t v _
    have key : (s.writeTarget t v).params = s.params ∧ (s.writeTarget t v).draws = s.draws ∧
        (s.writeTarget t v).hostq = s.hostq := by
      cases t with
      | reg r => cases r <;> simp [State.writeTarget, State.writeReg]
      | tree k w => exact ⟨rfl, rfl, rfl⟩
      | ram a => exact ⟨rfl, rfl, rfl⟩
      | oblk a => exact ⟨rfl, rfl, rfl⟩
    unfold State.busWrite
    split
    · split
      · exact key
      · exact ⟨rfl, rfl, rfl⟩
      · exact ⟨rfl, rfl, rfl⟩
    · exact key
  · exact ⟨rfl, rfl, rfl⟩
  · exact ⟨rfl, rfl, rfl⟩

/-- An access addressed to the block takes effect; it never faults. -/
theorem State.hostAccess_toBlock {s : State} {a : HostAccess} (h : HostAccess.toBlock s.params a) :
    s.hostAccess a = .next { s.access (a.addr - s.params.base) a.width a.op with draws := s.draws + 1 } := by
  have e : busOffset s.params a.addr = some (a.addr - s.params.base) := if_pos h
  simp only [State.hostAccess, e]

/-! ### The cases of a step -/

/-- Everything a step can be: an illegal word's report, a command, one host access, or nothing when the block is idle. -/
theorem step_cases {s t : State} (h : step s = .next t) :
    (s.engineTurn = true ∧ s.busy = true ∧ (∃ e, decode s.cmdl = .error e) ∧ t = s.raise .illegal) ∨
    (s.engineTurn = true ∧ s.busy = true ∧ ∃ i, decode s.cmdl = .ok i ∧ exec i s = .next t) ∨
    (s.engineTurn = false ∧ s.hostq = [] ∧ t = s) ∨
    (s.engineTurn = false ∧ ∃ a rest off u, s.hostq = a :: rest ∧ busOffset s.params a.addr = some off ∧
      u = ({ s with hostq := rest, latency := s.latency - 1 } : State).access off a.width a.op ∧
      t = { u with draws := s.draws + 1 }) := by
  unfold step at h
  split at h
  · rename_i ht
    have hb : s.busy = true := by
      simp only [State.engineTurn, Bool.and_eq_true] at ht
      exact ht.1
    unfold engineStep at h
    split at h
    · rename_i i hi
      exact .inr (.inl ⟨ht, hb, i, hi, h⟩)
    · rename_i e he
      exact .inl ⟨ht, hb, ⟨e, he⟩, (Host.Outcome.next.inj h).symm⟩
  · rename_i ht
    have ht : s.engineTurn = false := by simpa using ht
    unfold hostStep at h
    split at h
    · rename_i hq
      exact .inr (.inr (.inl ⟨ht, hq, (Host.Outcome.next.inj h).symm⟩))
    · rename_i a rest hq
      unfold State.hostAccess at h
      split at h
      · rename_i off ho
        exact .inr (.inr (.inr ⟨ht, a, rest, off, _, hq, ho, rfl, (Host.Outcome.next.inj h).symm⟩))
      · cases h

theorem busOffset_eq {p : Params} {addr off : Nat} (h : busOffset p addr = some off) : addr = p.base + off := by
  unfold busOffset at h
  split at h
  · rename_i hw
    have := Option.some.inj h
    unfold inWindow at hw; omega
  · cases h

end Sys2Proof.Machine
end

