-- ==== Sys2Proof/Laws/PerInstr.lean ====
section
/-! SUPPORT. The family EncodedOpcode: the word of a command carries its row's opcode in bits 7:0 and zeros in its
format's reserved bits, whatever its fields hold (30_encoding.md R104, "Decode masks"). One lemma per command. -/

namespace Sys2Proof.Laws.EncodedOpcode

/-- The opcode-table row of a command. -/
def opcode : Instr → Opcode
  | .nop => .nop
  | .bsRead _ => .bsRead
  | .bsPeek _ => .bsPeek
  | .bsRead1 => .bsRead1
  | .bsSkip _ => .bsSkip
  | .bsAlign32 => .bsAlign32
  | .bsLeft => .bsLeft
  | .bsSign => .bsSign
  | .hufDecode _ => .hufDecode
  | .treeRead _ => .treeRead
  | .mcCopy8 _ _ => .mcCopy8
  | .frameCopy _ => .frameCopy
  | .idctPut => .idctPut
  | .idctAdd => .idctAdd
  | .idctInt => .idctInt
  | .audIdct3 _ _ => .audIdct3
  | .audIrdft _ _ => .audIrdft
  | .audFft _ _ => .audFft
  | .audScale _ _ => .audScale
  | .audOla _ _ => .audOla

/-- `w[7:0]` is the row's opcode and `w & mask = match`. -/
def Statement (i : Instr) : Prop :=
  (encode i).extractLsb' 0 8 = (opcode i).code ∧ encode i &&& (opcode i).mask = (opcode i).pattern

theorem nop : Statement .nop := by unfold Statement; decide

theorem bsRead : ∀ n, Statement (.bsRead n) := by unfold Statement; decide

theorem bsPeek : ∀ n, Statement (.bsPeek n) := by unfold Statement; decide

theorem bsRead1 : Statement .bsRead1 := by unfold Statement; decide

/-- The opcode and a field of 24 bits above it. -/
theorem low_byte (k : BitVec 24) (c : Byte) :
    (k ++ c).extractLsb' 0 8 = c ∧ (k ++ c) &&& 0x000000FF#32 = c.setWidth 32 := by
  constructor
  · apply BitVec.eq_of_getLsbD_eq
    intro i hi
    rw [BitVec.getLsbD_extractLsb', BitVec.getLsbD_append]
    simp [hi]
  · apply BitVec.eq_of_getLsbD_eq
    intro i hi
    rw [BitVec.getLsbD_and, BitVec.getLsbD_append, BitVec.getLsbD_setWidth]
    by_cases h : i < 8
    · have : (0x000000FF#32).getLsbD i = true := by interval_cases i <;> rfl
      simp [h, hi, this]
    · have h1 : (0x000000FF#32).getLsbD i = false := by interval_cases i <;> first | omega | rfl
      have h2 : c.getLsbD i = false := BitVec.getLsbD_of_ge _ _ (by omega)
      simp [h1, h2]

theorem bsSkip (k : BitVec 24) : Statement (.bsSkip k) := low_byte k 0x04

theorem bsAlign32 : Statement .bsAlign32 := by unfold Statement; decide

theorem bsLeft : Statement .bsLeft := by unfold Statement; decide

theorem bsSign : Statement .bsSign := by unfold Statement; decide

theorem hufDecode : ∀ t, Statement (.hufDecode t) := by unfold Statement; decide

theorem treeRead : ∀ t, Statement (.treeRead t) := by unfold Statement; decide

theorem mcCopy8 (xoff yoff : BitVec 8) : Statement (.mcCopy8 xoff yoff) := by
  refine ⟨(low_byte (0#8 ++ yoff ++ xoff) 0x20).1, ?_⟩
  apply BitVec.eq_of_getLsbD_eq
  intro i hi
  have e : encode (.mcCopy8 xoff yoff) = 0#8 ++ yoff ++ xoff ++ 0x20#8 := rfl
  rw [e, BitVec.getLsbD_and, BitVec.getLsbD_append, BitVec.getLsbD_append, BitVec.getLsbD_append]
  by_cases h : i < 8
  · rw [if_pos h]
    simp only [opcode]
    interval_cases i <;> decide
  · by_cases h2 : i < 24
    · have h1 : (Opcode.mcCopy8.mask).getLsbD i = false := by interval_cases i <;> first | omega | rfl
      have h3 : (Opcode.mcCopy8.pattern).getLsbD i = false := by interval_cases i <;> first | omega | rfl
      simp [h1, opcode, h3]
    · have h3 : (Opcode.mcCopy8.pattern).getLsbD i = false := by interval_cases i <;> first | omega | rfl
      have h4 : ¬ i - 8 < 8 := by omega
      have h5 : ¬ i - 8 - 8 < 8 := by omega
      simp [h, h4, h5, opcode, h3]

theorem frameCopy (dir : CopyDir) : Statement (.frameCopy dir) := by unfold Statement; cases dir <;> decide

theorem idctPut : Statement .idctPut := by unfold Statement; decide

theorem idctAdd : Statement .idctAdd := by unfold Statement; decide

theorem idctInt : Statement .idctInt := by unfold Statement; decide

theorem audIdct3 : ∀ ch nbits, Statement (.audIdct3 ch nbits) := by unfold Statement; decide

theorem audIrdft : ∀ ch nbits, Statement (.audIrdft ch nbits) := by unfold Statement; decide

theorem audFft : ∀ ch nbits, Statement (.audFft ch nbits) := by unfold Statement; decide

theorem audScale : ∀ ch nbits, Statement (.audScale ch nbits) := by unfold Statement; decide

theorem audOla : ∀ i2 nbits, Statement (.audOla i2 nbits) := by unfold Statement; decide

end Sys2Proof.Laws.EncodedOpcode
end

