-- ==== Sys2Proof/Laws/Writes.lean ====
section
/-! SUPPORT. Where commands and host accesses write: every store of a command lies in OBLK, AC, OW, CUR or PREV, and a
property of the memory that such stores keep is kept by every command. -/

namespace Sys2Proof.Machine

/-- The run of `n` bytes at `a` lies in what commands may write. -/
def storeLegal (p : Params) (a n : Nat) : Prop :=
  (oblkBase ≤ a ∧ a + n ≤ oblkBase + 0x100) ∨ (acBase 0 ≤ a ∧ a + n ≤ acBase 0 + 0x8800) ∨
    (curBase ≤ a ∧ a + n ≤ curBase + p.pxmBytes) ∨ (prevBase ≤ a ∧ a + n ≤ prevBase + p.pxmBytes)

/-- A property of memories that every legal store keeps. -/
def StoreStable (p : Params) (P : Memory → Prop) : Prop :=
  ∀ m a bs, P m → storeLegal p a bs.length → P (m.writeBytes a bs)

/-- The range check puts every row of a block below PX_LEN (43_motion_copy.md R222). -/
theorem State.inBlock_row {s : State} {a r : Nat} (h : s.inBlock (a : Int) = true) (hr : r < 8) :
    a + r * s.stride + 8 ≤ s.pxLen.toNat := by
  simp only [State.inBlock, decide_eq_true_eq] at h
  have h1 : r * s.stride ≤ 7 * s.stride := Nat.mul_le_mul_right _ (by omega)
  omega

theorem storeLegal_curRow {s : State} (hl : s.LengthsLegal) {a r : Nat} (h : s.inBlock (a : Int) = true) (hr : r < 8) :
    storeLegal s.params (s.curRow a r) 8 := by
  have h1 := State.inBlock_row h hr
  have h2 := hl.2
  refine .inr (.inr (.inl ?_))
  unfold State.curRow
  omega

/-- Rows that store eight bytes each keep what legal stores keep. -/
theorem State.forRows_stable {s : State} {P : Memory → Prop} (hP : StoreStable s.params P) (hl : s.LengthsLegal) {a : Nat}
    (hb : s.inBlock (a : Int) = true) {row : Nat → State → State} (h0 : P s.mem)
    (hrow : ∀ r t, ∃ bs : List Byte, bs.length = 8 ∧ row r t = t.writeBytes (t.curRow a r) bs) :
    P (s.forRows row).mem := by
  refine (s.forRows_induction row (fun _ t => P t.mem ∧ t.pxStride = s.pxStride) ⟨h0, rfl⟩ ?_).1
  rintro r t hr ⟨h1, h2⟩
  obtain ⟨bs, hbs, e⟩ := hrow r t
  rw [e]
  refine ⟨hP _ _ _ h1 ?_, h2⟩
  have : t.curRow a r = s.curRow a r := by simp only [State.curRow, State.stride, h2]
  rw [this, hbs]
  exact storeLegal_curRow hl hb hr

/-- A block has 64 words. -/
@[simp] theorem length_blockWords (b : Block) : (b.toList.flatMap Line.toList).length = 64 := by simp [Line.toList]

theorem storeLegal_channel (p : Params) (ch : BitVec 1) (ws : List Word) (h : ws.length ≤ 4096) :
    storeLegal p (acBase ch.toNat) (ws.flatMap Word.bytes).length := by
  have h1 := ch.isLt
  refine .inr (.inl ?_)
  rw [length_flatMap_bytes]
  unfold acBase
  omega

@[simp] theorem length_bitReverse (m : Nat) (z : List Cx) : (bitReverse m z).length = 2 ^ m := by simp [bitReverse]

@[simp] theorem length_butterflies (afp : Afp) (h : Nat) (z : List Cx) : (butterflies afp h z).length = 2 * h := by
  simp only [butterflies, List.length_append, List.length_map, List.length_range]
  omega

theorem length_fftStage (afp : Afp) (h groups : Nat) (z : List Cx) (hz : 2 * h * groups ≤ z.length) :
    (fftStage afp h groups z).length = z.length := by
  induction groups generalizing z with
  | zero => rfl
  | succ g ih =>
    rw [Nat.mul_succ] at hz
    simp only [fftStage, List.length_append, length_butterflies]
    rw [ih _ (by rw [List.length_drop]; omega), List.length_drop]
    omega

theorem length_fftStages (afp : Afp) (m n j : Nat) (z : List Cx) (hn : j + n ≤ m) (hz : z.length = 2 ^ m) :
    (fftStages afp m n j z).length = 2 ^ m := by
  induction n generalizing j z with
  | zero => exact hz
  | succ n ih =>
    have h : 2 * 2 ^ j * 2 ^ (m - (j + 1)) = 2 ^ m := by
      rw [← Nat.pow_succ', ← Nat.pow_add]; congr 1; omega
    exact ih (j + 1) _ (by omega) (by rw [length_fftStage _ _ _ _ (by rw [h, hz])]; exact hz)

@[simp] theorem length_ofComplex (z : List Cx) : (ofComplex z).length = 2 * z.length := by
  induction z with
  | nil => rfl
  | cons c z ih =>
    simp only [ofComplex, List.flatMap_cons, List.length_append, List.length_cons, List.length_nil] at ih ⊢
    omega

theorem length_fft (afp : Afp) (m : Nat) (d : List F32) (hd : d.length = 2 ^ (m + 1)) :
    (fft afp m d).length = 2 ^ (m + 1) := by
  unfold fft
  split
  · exact hd
  · rw [length_ofComplex, length_fftStages _ _ _ _ _ (by omega) (length_bitReverse _ _), Nat.pow_succ]
    omega

@[simp] theorem length_invEvens (half : Nat) (d : List F32) : (invEvens half d).length = half := by simp [invEvens]

@[simp] theorem length_invOdds (afp : Afp) (half : Nat) (d again : List F32) :
    (invOdds afp half d again).length = half := by simp [invOdds]

@[simp] theorem length_invCombine (afp : Afp) (half : Nat) (xs ts : List F32) :
    (invCombine afp half xs ts).length = 2 * half := by
  simp only [invCombine, List.length_append, List.length_reverse, List.length_map, List.length_range]
  omega

theorem length_inv (afp : Afp) (bits : Nat) (d again : List F32) (hd : d.length = 2 ^ bits) :
    (inv afp bits d again).length = 2 ^ bits := by
  cases bits with
  | zero => exact hd
  | succ b => rw [inv, length_invCombine, Nat.pow_succ]; omega

@[simp] theorem length_irdftStep (afp : Afp) (sign : SinSign) (n : Nat) (d : List F32) (i : Nat) :
    (irdftStep afp sign n d i).length = d.length := by simp [irdftStep]

@[simp] theorem length_irdftPre (afp : Afp) (sign : SinSign) (n : Nat) (d : List F32) :
    (irdftPre afp sign n d).length = d.length := by
  have key : ∀ (l : List Nat) (e : List F32), (l.foldl (irdftStep afp sign n) e).length = e.length := by
    intro l
    induction l with
    | nil => intro e; rfl
    | cons i l ih => intro e; rw [List.foldl_cons, ih, length_irdftStep]
  unfold irdftPre
  rw [key]
  simp [irdftFirst]

theorem two_pow_le_acLen {k : Nat} (h : k ≤ 12) : 2 ^ k ≤ 4096 :=
  (Nat.pow_le_pow_right (by omega) h).trans (by decide)

theorem State.olaChannel_stable {s : State} {P : Memory → Prop} (hP : StoreStable s.params P) {n ich ch : Nat}
    (hn : n ≤ 4096) (hc : ch ≤ 1) (h0 : P s.mem) : P (s.olaChannel n ich ch).mem := by
  have save : ∀ t : State, t.params = s.params → P t.mem → P (t.olaSave n (n / 16) ch).mem := by
    intro t ht h
    refine hP _ _ _ h (.inr (.inl ?_))
    rw [length_flatMap_bytes, State.length_readWords]
    unfold owBase acBase
    omega
  have mix : P (s.olaMix ich (n / 16) ch).mem := by
    refine hP _ _ _ h0 (.inr (.inl ?_))
    rw [length_flatMap_bytes, List.length_map, List.length_range]
    unfold acBase
    omega
  unfold State.olaChannel
  split
  · exact save s rfl h0
  · exact save _ rfl mix

/-- Every command keeps what legal stores keep. -/
theorem exec_stable {i : Instr} {s t : State} {P : Memory → Prop} (h : exec i s = .next t) (hl : s.LengthsLegal)
    (hP : StoreStable s.params P) (h0 : P s.mem) : P t.mem := by
  have whole : ∀ (base : Nat), (base = curBase ∨ base = prevBase) → ∀ bs : List Byte, bs.length = s.pxLen.toNat →
      P (s.mem.writeBytes base bs) := by
    intro base hb bs hbs
    refine hP _ _ _ h0 ?_
    have h2 := hl.2
    rcases hb with rfl | rfl
    · exact .inr (.inr (.inl ⟨by omega, by omega⟩))
    · exact .inr (.inr (.inr ⟨by omega, by omega⟩))
  have chan : ∀ (ch : BitVec 1) (ws : List Word), ws.length ≤ 4096 → P (s.setChannel ch ws).mem := fun ch ws hw =>
    hP _ _ _ h0 (storeLegal_channel s.params ch ws hw)
  cases i <;> simp only [exec] at h
  case treeRead k =>
    obtain ⟨n, -, -, e⟩ := readTree_state s
    have h := Host.Outcome.next.inj h
    simp only [e] at h
    rw [← h, State.complete_mem]
    exact h0
  case hufDecode k =>
    unfold execHufDecode at h
    split at h
    · split at h <;> cases h <;> simp only [State.raise, State.complete_mem] <;> exact h0
    · cases h
  case mcCopy8 xoff yoff =>
    unfold execMcCopy8 at h
    split at h
    · rename_i hb
      simp only [Bool.and_eq_true] at hb
      split at h
      · cases h; rw [State.complete_mem]; exact h0
      · rw [← Host.Outcome.next.inj h, State.complete_mem]
        exact State.forRows_stable hP hl hb.1 h0 fun r t => ⟨_, State.length_readBytes _ _ _ _, rfl⟩
    · cases h; simp only [State.raise, State.complete_mem]; exact h0
  case frameCopy dir =>
    cases dir <;> cases h <;> rw [State.complete_mem]
    · exact whole _ (.inl rfl) _ (State.length_readBytes _ _ _ _)
    · exact whole _ (.inr rfl) _ (State.length_readBytes _ _ _ _)
  case idctPut =>
    unfold execIdctPut at h
    split at h
    · rename_i hb
      rw [← Host.Outcome.next.inj h, State.complete_mem]
      exact State.forRows_stable hP hl hb h0 fun r t => ⟨_, length_rowBytes _, rfl⟩
    · cases h; simp only [State.raise, State.complete_mem]; exact h0
  case idctAdd =>
    unfold execIdctAdd at h
    split at h
    · rename_i hb
      rw [← Host.Outcome.next.inj h, State.complete_mem]
      exact State.forRows_stable hP hl hb h0 fun r t => ⟨_, length_addBytes _ _ (State.length_readBytes _ _ _ _), rfl⟩
    · cases h; simp only [State.raise, State.complete_mem]; exact h0
  case idctInt =>
    cases h
    rw [State.complete_mem]
    exact hP _ _ _ h0 (.inl ⟨le_refl _, by rw [length_flatMap_bytes, length_blockWords]⟩)
  case audIdct3 ch nbits =>
    unfold execAudIdct3 at h
    split at h
    · rename_i hn
      split at h <;> cases h <;> rw [State.complete_mem]
      · exact h0
      · refine chan ch _ ?_
        rw [length_inv _ _ _ _ (by simp [State.channel])]
        exact two_pow_le_acLen hn.2
    · cases h; simp only [State.raise, State.complete_mem]; exact h0
  case audIrdft ch nbits =>
    unfold execAudIrdft at h
    split at h
    · rename_i hn
      cases h
      rw [State.complete_mem]
      refine chan ch _ ?_
      have e : nbits.toNat - 1 + 1 = nbits.toNat := by have := hn.1; omega
      rw [length_fft _ _ _ (by simp [State.channel, e]), e]
      exact two_pow_le_acLen hn.2
    · cases h; simp only [State.raise, State.complete_mem]; exact h0
  case audFft ch nbits =>
    unfold execAudFft at h
    split at h
    · rename_i hn
      split at h <;> cases h <;> rw [State.complete_mem]
      · exact h0
      · refine chan ch _ ?_
        rw [length_fft _ _ _ (by simp [State.channel])]
        exact two_pow_le_acLen (by have := hn.2; omega)
    · cases h; simp only [State.raise, State.complete_mem]; exact h0
  case audScale ch nbits =>
    unfold execAudScale at h
    split at h
    · rename_i hn
      cases h
      rw [State.complete_mem]
      refine chan ch _ ?_
      simp only [State.channel, List.length_map, State.length_readWords]
      exact two_pow_le_acLen hn.2
    · cases h; simp only [State.raise, State.complete_mem]; exact h0
  case audOla i2 nbits =>
    unfold execAudOla at h
    split at h
    · rename_i hn
      rw [← Host.Outcome.next.inj h, State.complete_mem]
      have h1 : P (s.olaChannel (2 ^ nbits.toNat) (1 + i2.toNat) 0).mem :=
        State.olaChannel_stable hP (two_pow_le_acLen hn.2) (by omega) h0
      obtain ⟨m, e⟩ := s.olaChannel_state (2 ^ nbits.toNat) (1 + i2.toNat) 0
      simp only
      split
      · exact h1
      · rw [e] at h1 ⊢
        exact State.olaChannel_stable (by exact hP) (two_pow_le_acLen hn.2) (by omega) h1
    · cases h; simp only [State.raise, State.complete_mem]; exact h0
  all_goals
    simp only [execNop, execBsRead, execBsPeek, execBsRead1, execBsSkip, execBsAlign32, execBsLeft, execBsSign] at h
    repeat' split at h
  all_goals cases h
  all_goals simp only [State.raise, State.complete_mem]
  all_goals exact h0

end Sys2Proof.Machine
end

