-- ==== Sys2Proof/Tests/Slice0.lean ====
section
/-! SUPPORT. Tests on fixed values, each with its source in spec/95_test_vectors.md or a rule, and the witnesses: for each
statement with hypotheses, a concrete state and operands that meet all of them together. -/

namespace Sys2Proof.Tests

-- One theorem at a time: a theorem that `decide +kernel` proves waits for all before it, and many at once take a thread,
-- with its stack, each.
set_option Elab.async false

open Sys2Proof.Machine

/-! ### States to test on -/

/-- The table FLAT of the test instance HT (95_test_vectors.md, section 1). -/
def flat : CodeTable := Vector.ofFn fun s => ⟨s.val, 4⟩

/-- The table T1 of the test instance HT. -/
def skewed : CodeTable := Vector.ofFn fun s => if s.val = 0 then ⟨0, 1⟩ else ⟨1 + 2 * (s.val - 1), 5⟩

/-- The parameters of the vectors, with a base of our own. -/
def params : Params where
  bsm := 8
  pxm := 10
  huff := (Vector.replicate 16 flat).set 1 skewed
  afp := .reference
  sinSign := .minus
  base := 0x5000
  irqLine := 3

/-- After power-on reset, with those parameters. -/
def idle : State := { State.reset with params := params }

/-- A command in flight over a stream of these bytes. -/
def stream (bytes : List Byte) (pos : Word) : State :=
  { idle with
    busy := true
    mem := Memory.cells bsmBase bytes
    bsLen := BitVec.ofNat 32 bytes.length
    bsPos := pos }

/-- The same with `TREE[0].TABLE` given. -/
def streamTable (table : BitVec 4) (bytes : List Byte) (pos : Word) : State :=
  (stream bytes pos).setTree 0 { SymbolTree.reset with table := table }

/-- A block of coefficients that is 0 except for the entries listed. -/
def coefficients (entries : List (Nat × Word)) : State :=
  let zeros := { idle with busy := true, mem := Memory.cells cblkBase (List.replicate 256 0) }
  entries.foldl (fun s e => s.writeWords (cblkBase + 4 * e.1) [e.2]) zeros

/-- Audio entries of channel 0. -/
def audio (ws : List Word) : State := ({ idle with busy := true } : State).writeWords (acBase 0) ws

/-- The next state, if there is one. -/
def next (o : Host.Outcome State Fault Refusal) : Option State :=
  match o with
  | .next s => some s
  | _ => none

/-- The state after a command. -/
def after (i : Instr) (s : State) : Option State := next (exec i s)

/-- Words of the RAMs after a command, none where a byte was never written. -/
def wordsAfter (i : Instr) (s : State) (a n : Nat) : Option (List Word) :=
  (after i s).map fun t => t.readWords 0 a n

/-- Bytes held after a command. -/
def bytesAfter (i : Instr) (s : State) (a n : Nat) : Option (List (Option Byte)) :=
  (after i s).map fun t => (List.range n).map fun k => t.held (a + k)

/-! ### WellFormed refuses an ill-formed term of each check (30_encoding.md R105 case 3) -/

theorem test_wf_bsRead_33 : (Instr.bsRead 33).wf = false := by decide
theorem test_wf_bsPeek_33 : (Instr.bsPeek 33).wf = false := by decide
theorem test_wf_audIdct3_13 : (Instr.audIdct3 0 13).wf = false := by decide
theorem test_wf_audIrdft_0 : (Instr.audIrdft 0 0).wf = false := by decide
theorem test_wf_audIrdft_13 : (Instr.audIrdft 1 13).wf = false := by decide
theorem test_wf_audFft_12 : (Instr.audFft 0 12).wf = false := by decide
theorem test_wf_audScale_13 : (Instr.audScale 0 13).wf = false := by decide
theorem test_wf_audOla_3 : (Instr.audOla 0 3).wf = false := by decide
theorem test_wf_audOla_13 : (Instr.audOla 1 13).wf = false := by decide

/-! ### Decoding, from words written out of 30_encoding.md R102 and R104 -/

/-- V80. -/
theorem test_decode_nop : decode 0b00000000_00000000_00000000_00000000 = .ok .nop := by decide
/-- N = 32 in bits 13:8 (V84). -/
theorem test_decode_bsRead : decode 0b00000000_00000000_00_100000_00000001 = .ok (.bsRead 32) := by decide
/-- N = 12. -/
theorem test_decode_bsPeek : decode 0b00000000_00000000_00_001100_00000010 = .ok (.bsPeek 12) := by decide
theorem test_decode_bsRead1 : decode 0b00000000_00000000_00000000_00000011 = .ok .bsRead1 := by decide
/-- K = 0x800001 in bits 31:8. -/
theorem test_decode_bsSkip : decode 0b10000000_00000000_00000001_00000100 = .ok (.bsSkip 0x800001) := by decide
theorem test_decode_bsAlign32 : decode 0b00000000_00000000_00000000_00000101 = .ok .bsAlign32 := by decide
theorem test_decode_bsLeft : decode 0b00000000_00000000_00000000_00000110 = .ok .bsLeft := by decide
theorem test_decode_bsSign : decode 0b00000000_00000000_00000000_00000111 = .ok .bsSign := by decide
/-- T = 19 in bits 12:8. -/
theorem test_decode_hufDecode : decode 0b00000000_00000000_000_10011_00010000 = .ok (.hufDecode 19) := by decide
/-- R111: TREE_READ t31. -/
theorem test_decode_treeRead : decode 0b00000000_00000000_000_11111_00010001 = .ok (.treeRead 31) := by decide
/-- R111: XOFF = 127 in bits 15:8, YOFF = −128 in bits 23:16. -/
theorem test_decode_mcCopy8 : decode 0b00000000_10000000_01111111_00100000 = .ok (.mcCopy8 127 (-128)) := by decide
/-- R109: DIR = 1. -/
theorem test_decode_frameCopy : decode 0b00000000_00000000_0000000_1_00100001 = .ok (.frameCopy .curToPrev) := by decide
theorem test_decode_idctPut : decode 0b00000000_00000000_00000000_00110000 = .ok .idctPut := by decide
theorem test_decode_idctAdd : decode 0b00000000_00000000_00000000_00110001 = .ok .idctAdd := by decide
theorem test_decode_idctInt : decode 0b00000000_00000000_00000000_00110010 = .ok .idctInt := by decide
/-- R109: AUD_IDCT3 ch1, 11. -/
theorem test_decode_audIdct3 : decode 0b00000000_00000000_1011_00_0_1_01000000 = .ok (.audIdct3 1 11) := by decide
/-- R111: AUD_IRDFT ch0, 12. -/
theorem test_decode_audIrdft : decode 0b00000000_00000000_1100_00_0_0_01000001 = .ok (.audIrdft 0 12) := by decide
theorem test_decode_audFft : decode 0b00000000_00000000_1011_00_0_1_01000010 = .ok (.audFft 1 11) := by decide
/-- R111: AUD_SCALE ch0, 11. -/
theorem test_decode_audScale : decode 0b00000000_00000000_1011_00_0_0_01000011 = .ok (.audScale 0 11) := by decide
/-- R109: AUD_OLA ich2, 11. -/
theorem test_decode_audOla : decode 0b00000000_00000000_1011_00_1_0_01000100 = .ok (.audOla 1 11) := by decide

/-- V81, V87, V90, V92, V94, V96, V101, V103, V105: a reserved bit of each format. -/
theorem test_decode_reserved_bits :
    let ws := [0x00000100, 0x00004001, 0x00002011, 0x01000020, 0x00000221, 0x00004240, 0x00000C43, 0x00004144, 0x00010043]
    ws.map decode = ws.map fun w => .error (.reservedBits w) := by decide +kernel
/-- V82, V83. -/
theorem test_decode_no_opcode :
    decode 0x00000008 = .error (.unknownOpcode 8) ∧ decode 0x000000FF = .error (.unknownOpcode 0xFF) := by decide
/-- V85, V86, V97, V98, V100, V104. -/
theorem test_decode_field_range :
    let ws := [0x00002101, 0x00003F02, 0x0000D040, 0x00000041, 0x0000C042, 0x00003044]
    ws.map decode = ws.map fun w => .error (.fieldRange w) := by decide +kernel
/-- V91, laid out as the bus stores it. -/
theorem test_decode_table_word : decodeTableWord 32 0x00FF0120 = some (.mcCopy8 1 (-1)) := by decide
/-- Only one word is a command word. -/
theorem test_decode_three_bytes : decodeBytes [0, 0, 0] = .error (.notOneWord 3) := by decide

/-! ### One step of each command -/

/-- V106. -/
theorem test_nop : after .nop { idle with busy := true } = some { idle with irqDone := true, draws := 1 } := by decide
/-- V3: five bytes. -/
theorem test_bsRead_spans_bytes :
    (after (.bsRead 32) (stream [0x78, 0x56, 0x34, 0x12, 0xFF] 4)).map (fun t => (t.result, t.bsPos)) =
      some (0xF1234567, 36) := by decide
/-- V85. -/
theorem test_bsRead_illegal :
    (after (.bsRead 33) { stream [1] 0 with cmdl := 0x2101 }).map
      (fun t => (t.statusWord, t.errinfo, t.irqStatusWord, t.bsPos)) = some (0x12, 0x2101, 3, 0) := by decide
/-- V4. -/
theorem test_bsPeek_past_end :
    (after (.bsPeek 12) (stream [0xFF] 0)).map (fun t => (t.result, t.bsPos)) = some (0xFF, 0) := by decide
/-- V12. -/
theorem test_bsRead1 : (after .bsRead1 (stream [2] 1)).map (fun t => (t.result, t.bsPos)) = some (1, 2) := by decide
/-- V14. -/
theorem test_bsSkip_saturates :
    (after (.bsSkip 0xFFFFFF) (stream [] 0xFFFFFFF0)).map (fun t => t.bsPos) = some 0xFFFFFFFF := by decide
/-- V7, V8. -/
theorem test_bsAlign32 :
    (after .bsAlign32 (stream [] 40)).map (fun t => t.bsPos) = some 64 ∧
      (after .bsAlign32 (stream [] 64)).map (fun t => t.bsPos) = some 64 := by decide
/-- V9, V10. -/
theorem test_bsAlign32_saturates :
    (after .bsAlign32 (stream [] 0xFFFFFFE1)).map (fun t => t.bsPos) = some 0xFFFFFFFF ∧
      (after .bsAlign32 (stream [] 0xFFFFFFE0)).map (fun t => t.bsPos) = some 0xFFFFFFE0 := by decide
/-- V15, V16. -/
theorem test_bsLeft :
    (after .bsLeft (stream [0xA5, 0x3C, 0x0F, 0xF0, 0x81] 32)).map (fun t => t.result) = some 8 ∧
      (after .bsLeft (stream [0xA5, 0x3C, 0x0F, 0xF0, 0x81] 41)).map (fun t => t.result) = some 0 := by decide
/-- V17. -/
theorem test_bsSign_negates :
    (after .bsSign { stream [1] 0 with arg0 := 5 }).map (fun t => (t.result, t.bsPos)) =
      some (0xFFFFFFFB, 1) := by decide
/-- V20. -/
theorem test_bsSign_wraps :
    (after .bsSign { stream [1] 0 with arg0 := 0x80000000 }).map (fun t => t.result) = some 0x80000000 := by decide
/-- V37: the peek passes the end of the stream. -/
theorem test_hufDecode :
    (after (.hufDecode 0) (streamTable 1 [0xC0] 6)).map (fun t => (t.result, t.bsPos)) = some (2, 11) := by
  decide +kernel
/-- V35. -/
theorem test_hufDecode_no_match :
    (after (.hufDecode 0) { streamTable 1 [0x1F] 0 with cmdl := 0x10 }).map
      (fun t => (t.statusWord, t.errinfo, t.bsPos)) = some (0x32, 0x10, 0) := by decide +kernel
/-- V24: order mode with a repeated symbol. -/
theorem test_treeRead_order :
    (after (.treeRead 7) (stream [0x39, 0x44] 0)).map (fun t => (t.tree 7, t.bsPos)) =
      some (⟨9, #v[4, 4, 0, 1, 2, 3, 5, 6, 7, 8, 9, 10, 11, 12, 13, 14]⟩, 16) := by decide +kernel
/-- V31: shuffle mode with four passes. -/
theorem test_treeRead_shuffle :
    (after (.treeRead 0) (stream [0xE7, 0x32, 0x4B, 0x4B, 0x4B, 0x4B, 0x4B, 0x4B, 0x4B, 0x4B] 0)).map
      (fun t => (t.tree 0, t.bsPos)) =
      some (⟨7, #v[1, 14, 15, 5, 8, 2, 3, 13, 6, 11, 9, 0, 12, 4, 7, 10]⟩, 54) := by decide +kernel

/-- PREV holds 0, 1, 2, … and CUR zeros, below `len`. -/
def pixels (len stride dst : Nat) : State :=
  { idle with
    busy := true
    arg0 := BitVec.ofNat 32 dst
    pxStride := BitVec.ofNat 24 stride
    pxLen := BitVec.ofNat 32 len
    mem := Memory.cells curBase (List.replicate len 0) ++
      Memory.cells prevBase ((List.range len).map fun a => BitVec.ofNat 8 a) }

/-- V71: row 1 of the block, and the byte before it. -/
theorem test_mcCopy8 :
    bytesAfter (.mcCopy8 (-3) 2) (pixels 256 16 36) (curBase + 51) 3 = some [some 0, some 81, some 82] := by
  decide +kernel
/-- V75: the source block leaves the buffer. -/
theorem test_mcCopy8_range :
    (after (.mcCopy8 0 1) { pixels 256 16 136 with cmdl := 0x00010020 }).map (fun t => (t.statusWord, t.errinfo)) =
      some (0x22, 0x00010020) := by decide +kernel
/-- R225: `PX_LEN` bytes and no more. -/
theorem test_frameCopy :
    bytesAfter (.frameCopy .prevToCur) { pixels 8 1 0 with pxLen := 3 } (curBase + 1) 3 =
      some [some 1, some 2, some 0] := by decide +kernel
/-- V79. -/
theorem test_frameCopy_none :
    (after (.frameCopy .curToPrev) { pixels 8 1 0 with pxLen := 0 }).map (fun t => t.mem) =
      some (pixels 8 1 0).mem := by decide +kernel
/-- V68: stride 0, row 7's values remain. -/
theorem test_idctPut_overlap :
    bytesAfter .idctPut { coefficients [(8, 256)] with pxLen := 8 } curBase 8 = some (List.replicate 8 (some 255)) := by
  decide +kernel
/-- V64. -/
theorem test_idctPut_range :
    (after .idctPut { coefficients [(0, 1024)] with pxStride := 8, pxLen := 63, cmdl := 0x30 }).map
      (fun t => (t.statusWord, t.errinfo)) = some (0x22, 0x30) := by decide +kernel
/-- V69: stride 0, each byte receives its column's eight outputs. -/
theorem test_idctAdd_overlap :
    bytesAfter .idctAdd (({ coefficients [(8, 256)] with pxLen := 8 } : State).writeBytes curBase (List.replicate 8 0))
      curBase 8 = some (List.replicate 8 (some 0)) := by decide +kernel
/-- V54, first row, and V70: no range check. -/
theorem test_idctInt :
    wordsAfter .idctInt (coefficients [(3, 512)]) oblkBase 8 = some [2, 0, -2, -1, 1, 2, 0, -2] := by decide +kernel
/-- V45: rounding of a DC block. -/
theorem test_idctInt_rounds :
    wordsAfter .idctInt (coefficients [(0, -129)]) oblkBase 2 = some [-1, -1] := by decide +kernel
/-- V114. -/
theorem test_audIdct3 :
    wordsAfter (.audIdct3 0 2) (audio [0, 0x3F800000, 0, 0]) (acBase 0) 4 =
      some [0x3F6C835F, 0x3EC3EF16, 0xBEC3EF16, 0xBF6C835F] := by decide +kernel
/-- V127. -/
theorem test_audIrdft :
    wordsAfter (.audIrdft 0 3) (audio [0, 0, 0x3F800000, 0, 0, 0, 0, 0]) (acBase 0) 8 =
      some [0x3F800000, 0x3F3504F3, 0x00000000, 0xBF3504F4, 0xBF800000, 0xBF3504F3, 0x00000000, 0x3F3504F4] := by
  decide +kernel
/-- V121. -/
theorem test_audFft :
    wordsAfter (.audFft 0 2) (audio [0, 0, 0x3F800000, 0, 0, 0, 0, 0]) (acBase 0) 8 =
      some [0x3F800000, 0, 0, 0xBF800000, 0xBF800000, 0, 0, 0x3F800000] := by decide +kernel
/-- V134. -/
theorem test_audScale_nan :
    wordsAfter (.audScale 0 0) { audio [0x7F800001] with arg0 := 0x3F800000 } (acBase 0) 1 = some [0x7FC00000] := by
  decide +kernel
/-- V136: the first sub-block is not mixed, and its window is saved. -/
theorem test_audOla_first :
    (after (.audOla 0 4) (audio (List.replicate 15 0x40000000 ++ [0x41800000]))).map
      (fun t => (t.audFirst, t.readWord 0 (acBase 0), t.readWord 0 (owBase 0))) =
      some (false, 0x40000000, 0x41800000) := by decide +kernel
/-- V138: two channels; channel 1 becomes 6.0 and 2.0, and its window 0. -/
theorem test_audOla_mixes :
    (after (.audOla 1 5) ((((({ audio (List.replicate 32 0) with audFirst := false } : State).writeWords (acBase 1)
        (List.replicate 32 0)).writeWords (owBase 0) [0x40800000, 0x40800000]).writeWords
        (owBase 1) [0x41000000, 0x41000000]))).map (fun t => (t.readWords 0 (acBase 1) 2, t.readWords 0 (owBase 1) 2)) =
      some ([0x40C00000, 0x40000000], [0, 0]) := by decide +kernel

/-! ### The host's side -/

/-- V142: an unmapped read. -/
theorem test_access_unmapped :
    (fun t => (t.replies, t.statusWord, t.irqErri)) (idle.access 0x040 4 .read) = ([0], 0x08, true) := by decide
/-- V150. -/
theorem test_access_params : ((idle.access 0x038 4 .read).access 0x000 4 .read).replies = [0x314B4255, 0x1614200C] := by
  decide
/-- V41, of tree 31. -/
theorem test_access_tree :
    ((idle.access 0x5F4 4 .read).access 0x5F8 4 .read).replies = [0xFEDCBA98, 0x76543210] := by decide
/-- V147. -/
theorem test_access_overrun :
    (fun t => (t.arg0, t.statusWord)) (({ idle with busy := true } : State).access 0x010 4 (.write 7)) = (0, 5) := by
  decide
/-- V21. -/
theorem test_access_warl : (idle.access 0x024 4 (.write 0xFFFFFFFF)).bsLen = 0x00100000 := by decide
/-- A step takes the host's next access, at its bus address. -/
theorem test_step_host :
    (next (step { idle with hostq := [⟨0x5010, 4, .write 9⟩] })).map (fun t => (t.arg0, t.hostq)) = some (9, []) := by
  decide
/-- V149: a soft reset asked for while a command is in flight follows it. -/
theorem test_step_pending_reset :
    (next (step { (idle.withFetchWord 32 0x00000000) with srstPend := true, arg0 := 3 })).map
      (fun t => (t.busy, t.irqDone, t.arg0)) = some (false, false, 0) := by decide
/-- V140: the command gate. -/
theorem test_gate :
    ({ idle with err := true } : State).access 0x00C 4 (.write 0) = { idle with err := true } := by decide

/-! ### Witnesses: the hypotheses of each statement are met, at the boundaries of each clause -/

/-- A next state with a property, from an evaluation. -/
theorem exists_next {o : Host.Outcome State Fault Refusal} (p : State → Bool) (h : (next o).any p = true) :
    ∃ t, o = .next t ∧ p t = true := by
  cases o with
  | next s => exact ⟨s, rfl, by simpa [next] using h⟩
  | fault f => simp [next] at h
  | refused r => simp [next] at h

theorem witness_decodeOfEncode : (Instr.audOla 1 4).wf = true ∧ (Instr.bsRead 32).wf = true := by decide

theorem witness_encodeOfDecode : decode 0x0000B142 = .ok (.audFft 1 11) := by decide

/-- One illegal word of each case, at the ends of its range, and the legal words next to them. -/
theorem witness_illegalWords :
    (∀ w ∈ [0x08, 0x45, 0xFF, 0x100, 0x4001, 0x01000020, 0x00000400 + 0x40, 0x2101, 0xD040, 0x41, 0xC042, 0x3044],
      illegalWord w) ∧
    ∀ w ∈ [0x07, 0x44 + 0x4000, 0x2001, 0x00FFFF20, 0xC040, 0x1041, 0xB042, 0xC044], ¬ illegalWord w := by
  simp [illegalWord, unknownOpcode, reservedSet, fieldOutOfRange, fnOpcode]

/-- Both ways for it to be the engine's turn. -/
theorem witness_stepRunsTheCommand :
    (fun s : State => s.busy = true ∧ s.hostq = [] ∧ 0 < s.latency ∧ decode s.cmdl = .ok (.bsRead 32))
      { idle with busy := true, latency := 5, cmdl := 0x2001 } ∧
    (fun s : State => s.busy = true ∧ s.hostq ≠ [] ∧ s.latency = 0 ∧ decode s.cmdl = .ok (.bsRead 32))
      { idle with busy := true, hostq := [⟨0x5010, 4, .write 9⟩], cmdl := 0x2001 } := by decide

theorem witness_completion :
    idle.srstPend = false ∧ ({ idle with srstPend := true, busy := true } : State).srstPend = true := by decide

theorem witness_errorsArePrecise :
    (stream [1] 0).err = false ∧ (stream [1] 0).srstPend = false ∧
      ∃ t, exec (.bsRead 33) (stream [1] 0) = .next t ∧ t.err = true :=
  ⟨rfl, rfl, exists_next (fun t => t.err) (by decide)⟩

theorem witness_pendingReset :
    (stream [1] 0).srstPend = false ∧ ∃ t, exec .bsRead1 (stream [1] 0) = .next t ∧ t.bsPos = 1 :=
  ⟨rfl, by simpa using exists_next (fun t => t.bsPos == 1) (o := exec .bsRead1 (stream [1] 0)) (by decide)⟩

/-- Two accesses wait, at the first and the last address of the window, and the command lets one of them by. -/
theorem witness_accepted :
    (fun s : State => s.busy = true ∧ s.latency = 1 ∧ s.hostq ≠ [] ∧ ∀ a ∈ s.hostq, HostAccess.toBlock s.params a)
      { idle with busy := true, latency := 1, hostq := [⟨0x5000, 4, .read⟩, ⟨0x3004FFF, 1, .read⟩] } := by
  unfold HostAccess.toBlock
  decide

/-- The invariant holds in a state with bytes in RAM and a command in flight, which its step completes. -/
theorem witness_stepKeepsInvariant :
    (fun s : State => s.Inv ∧ ∃ t, step s = .next t ∧ t.busy = false)
      { stream [0xFF, 1] 3 with cmdl := 0x0301, irqErri := true } := by
  refine ⟨?_, ?_⟩
  · unfold State.Inv State.MemoryLegal State.LengthsLegal State.ErrorRecordLegal State.LifecycleLegal ramByte
    decide +kernel
  · simpa using exists_next (fun t => !t.busy)
      (o := step { stream [0xFF, 1] 3 with cmdl := 0x0301, irqErri := true }) (by decide +kernel)

/-- A state that is a soft reset of another. -/
theorem witness_resetValues : (stream [1] 0).softReset ≠ stream [1] 0 := by decide

theorem witness_commandsLeaveTheHostsRegisters :
    (stream [1] 0).srstPend = false ∧ ∃ t, exec .bsSign (stream [1] 0) = .next t ∧ t.bsPos = 1 :=
  ⟨rfl, by simpa using exists_next (fun t => t.bsPos == 1) (o := exec .bsSign (stream [1] 0)) (by decide)⟩

/-- A command that does not write RESULT, and one that would but ends with an error. -/
theorem witness_resultIsWritten :
    (writesResult (.bsSkip 3) = false ∧ ∃ t, exec (.bsSkip 3) (stream [1] 0) = .next t ∧ t.bsPos = 3) ∧
    ((stream [1] 0).err = false ∧ ∃ t, exec (.bsPeek 33) (stream [1] 0) = .next t ∧ t.err = true) :=
  ⟨⟨rfl, by simpa using exists_next (fun t => t.bsPos == 3) (o := exec (.bsSkip 3) (stream [1] 0)) (by decide)⟩,
    rfl, exists_next (fun t => t.err) (by decide)⟩

/-- A tree changes by TREE_READ, by a host write, and by a soft reset. -/
theorem witness_treesChange :
    (∃ t, step { stream [0x39, 0x44] 0 with cmdl := 0x1F11 } = .next t ∧
      t.tree 31 ≠ ({ stream [0x39, 0x44] 0 with cmdl := 0x1F11 } : State).tree 31) ∧
    (∃ t, step { idle with hostq := [⟨0x55F0, 4, .write 3⟩] } = .next t ∧ t.tree 31 ≠ idle.tree 31) ∧
    (∃ t, step { idle.setTree 0 ⟨1, SymbolTree.reset.map⟩ with hostq := [⟨0x5008, 4, .write 1⟩] } = .next t ∧
      t.tree 0 ≠ (idle.setTree 0 ⟨1, SymbolTree.reset.map⟩).tree 0) ∧
    (∃ t, step { streamTable 1 [] 0 with srstPend := true } = .next t ∧ t.tree 0 ≠ (streamTable 1 [] 0).tree 0) := by
  refine ⟨?_, ?_, ?_, ?_⟩
  · simpa using exists_next (fun t => decide (t.tree 31 ≠ ({ stream [0x39, 0x44] 0 with cmdl := 0x1F11 } : State).tree 31))
      (o := step { stream [0x39, 0x44] 0 with cmdl := 0x1F11 }) (by decide +kernel)
  · simpa using exists_next (fun t => decide (t.tree 31 ≠ idle.tree 31))
      (o := step { idle with hostq := [⟨0x55F0, 4, .write 3⟩] }) (by decide +kernel)
  · simpa using exists_next (fun t => decide (t.tree 0 ≠ (idle.setTree 0 ⟨1, SymbolTree.reset.map⟩).tree 0))
      (o := step { idle.setTree 0 ⟨1, SymbolTree.reset.map⟩ with hostq := [⟨0x5008, 4, .write 1⟩] }) (by decide +kernel)
  · simpa using exists_next (fun t => decide (t.tree 0 ≠ (streamTable 1 [] 0).tree 0))
      (o := step { streamTable 1 [] 0 with srstPend := true }) (by decide +kernel)

/-- The first byte of CBLK and the last of BSM. -/
theorem witness_cblkBsm :
    (coefficients [(0, 1)]).LengthsLegal ∧
      (inWindow cblkBase 0x100 0x800 ∨ inWindow bsmBase params.bsmBytes 0x800) ∧
      (inWindow cblkBase 0x100 0x1FFFFF ∨ inWindow bsmBase params.bsmBytes 0x1FFFFF) ∧
      ∃ t, exec .idctInt (coefficients [(0, 1)]) = .next t ∧ t.busy = false := by
  refine ⟨?_, by decide, by decide, ?_⟩
  · unfold State.LengthsLegal
    decide +kernel
  · simpa using exists_next (fun t => !t.busy) (o := exec .idctInt (coefficients [(0, 1)])) (by decide +kernel)

theorem witness_nop : idle.srstPend = false := by decide

theorem witness_bsCounts :
    (32 : BitVec 6).toNat ≤ 32 ∧ (0 : BitVec 6).toNat ≤ 32 ∧ 32 < (33 : BitVec 6).toNat ∧ 32 < (63 : BitVec 6).toNat := by
  decide

/-- The last bit of the last byte below `BS_LEN`, and the first bit past it (40_bitstream.md R130). -/
theorem witness_streamBit :
    (fun s : State => 15 / 8 < s.bsLen.toNat ∧ s.held (bsmBase + 15 / 8) = some 0x80 ∧ s.bsLen.toNat ≤ 16 / 8)
      (stream [0, 0x80] 0) := by decide

/-- `BS_LEN` at its greatest legal value, the position below and above `8·BS_LEN`. -/
theorem witness_bsLeft :
    ({ idle with bsLen := 0x100000, bsPos := 0x7FFFFF } : State).LengthsLegal ∧
    ({ idle with bsLen := 0x100000, bsPos := 0x800001 } : State).LengthsLegal := by
  unfold State.LengthsLegal
  decide +kernel

/-- The stream bits of the two reads lie in held bytes. -/
theorem witness_peekThenRead :
    (fun s : State => (8 : BitVec 6).toNat ≤ 32 ∧ s.srstPend = false ∧
      (∀ b, b < s.bsLen.toNat → s.bsPos.toNat < 8 * b + 8 → 8 * b < s.bsPos.toNat + 8 →
        ∃ x, s.held (bsmBase + b) = some x) ∧
      ∃ t, exec (.bsPeek 8) s = .next t ∧ ∃ u, exec (.bsRead 8) t = .next u) (stream [0xA5, 0x3C] 4) := by
  refine ⟨by decide, rfl, ?_, _, rfl, _, rfl⟩
  have h : ∀ b, b < 2 → ∃ x, (stream [0xA5, 0x3C] 4).held (bsmBase + b) = some x := by decide
  intro b hb _ _
  exact h b hb

/-- A code that matches, and a stream that no code of the table matches. -/
theorem witness_hufDecode :
    tablesWf params.huff = true ∧
    (fun s : State => ∀ j, j < (s.codeTable 0)[(2 : Fin 16)].len →
      (s.codeTable 0)[(2 : Fin 16)].code.testBit j = s.streamBit (s.bsPos.toNat + j)) (streamTable 1 [0xC0] 6) ∧
    (fun s : State => ∀ sym : Fin 16, ∃ j, j < (s.codeTable 0)[sym].len ∧
      (s.codeTable 0)[sym].code.testBit j ≠ s.streamBit (s.bsPos.toNat + j)) (streamTable 1 [0x1F] 0) := by
  refine ⟨by decide +kernel, by decide +kernel, ?_⟩
  have h : ∀ sym : Fin 16, ((List.range 5).any fun j =>
      decide (j < ((streamTable 1 [0x1F] 0).codeTable 0)[sym].len ∧
        ((streamTable 1 [0x1F] 0).codeTable 0)[sym].code.testBit j ≠
          (streamTable 1 [0x1F] 0).streamBit ((streamTable 1 [0x1F] 0).bsPos.toNat + j))) = true := by decide +kernel
  intro sym
  obtain ⟨j, _, hj⟩ := List.any_eq_true.mp (h sym)
  exact ⟨j, by simpa using hj⟩

/-- Tables with a code of length 0. -/
theorem witness_illFormedTables :
    let s := { idle with params := { params with huff := Vector.replicate 16 (Vector.replicate 16 ⟨0, 0⟩) } }
    ¬ codeTablesLegal s.params.huff := by
  unfold codeTablesLegal
  decide +kernel

/-- FLAT and T1 are legal. -/
theorem witness_legalTables : codeTablesLegal idle.params.huff := by
  unfold codeTablesLegal
  decide +kernel

/-- FLAT is a complete table: its Kraft sum is 16 · 2^−4 = 1. -/
theorem witness_completeTable :
    tablesWf params.huff = true ∧
    (((List.finRange 16).map fun a => (2 : Rat)⁻¹ ^ ((stream [7] 0).codeTable 0)[a].len).sum = 1) ∧
    ∃ u, exec (.hufDecode 0) (stream [7] 0) = .next u ∧ u.result = 7 :=
  ⟨by decide +kernel, by decide +kernel,
    by simpa using exists_next (fun t => t.result == 7) (o := exec (.hufDecode 0) (stream [7] 0)) (by decide +kernel)⟩

/-- Table 0; order mode with 0 and with 7 more symbols; shuffle mode. -/
theorem witness_treeRead :
    (stream [0xFF] 0).LengthsLegal ∧ (stream [0xF0] 0).bitsFrom 0 4 = 0 ∧
    ((stream [0x13] 0).bitsFrom 0 4 ≠ 0 ∧ (stream [0x13] 0).streamBit 4 = true ∧ (stream [0x13] 0).bitsFrom 5 3 = 0) ∧
    ((stream [0xF3] 0).bitsFrom 0 4 ≠ 0 ∧ (stream [0xF3] 0).streamBit 4 = true ∧ (stream [0xF3] 0).bitsFrom 5 3 = 7) ∧
    ((stream [0x03] 0).bitsFrom 0 4 ≠ 0 ∧ (stream [0x03] 0).streamBit 4 = false) := by
  unfold State.LengthsLegal
  decide +kernel

/-- With one symbol and with eight symbols read, an index on each side of `len`. -/
theorem witness_orderMode :
    (fun s : State => s.LengthsLegal ∧ s.bitsFrom 0 4 ≠ 0 ∧ s.streamBit 4 = true ∧
      (0 : Fin 16).val ≤ s.bitsFrom 5 3 ∧ s.bitsFrom 5 3 < (1 : Fin 16).val) (stream [0x13, 4] 0) ∧
    (fun s : State => s.LengthsLegal ∧ s.bitsFrom 0 4 ≠ 0 ∧ s.streamBit 4 = true ∧
      (7 : Fin 16).val ≤ s.bitsFrom 5 3 ∧ s.bitsFrom 5 3 < (8 : Fin 16).val) (stream [0xF3, 4] 0) := by
  unfold State.LengthsLegal
  decide +kernel

theorem witness_shuffleMode :
    (fun s : State => s.LengthsLegal ∧ s.bitsFrom 0 4 ≠ 0 ∧ s.streamBit 4 = false) (stream [0x67] 0) := by
  unfold State.LengthsLegal
  decide +kernel

/-- Two blocks of two, and bits of both kinds before a block is exhausted. -/
theorem witness_merge :
    ([1, 2] : List (BitVec 4)).length = 2 ∧ ([2, 1] : List (BitVec 4)).length = 2 ∧ (stream [2] 0).LengthsLegal ∧
      (stream [2] 0).zerosFrom 0 2 = 1 ∧ (stream [2] 0).zerosFrom 0 3 = 2 := by
  unfold State.LengthsLegal
  decide +kernel

/-- 41_huffman.md R174: bits 0, 1, 0 take from the first, the second, and the first block, and the rest is copied. -/
theorem test_merge : (merge 4 [1, 2] [3, 4] (stream [2] 0)).1 = [1, 3, 2, 4] := by decide +kernel

/-- The last block that fits, the first that does not, a source one byte before the buffer, and the zero vector. -/
theorem witness_mcCopy8 :
    let fits := fun (s : State) (x y : BitVec 8) =>
      s.arg0.toNat + 7 * s.pxStride.toNat + 7 < s.pxLen.toNat ∧
        0 ≤ (s.arg0.toNat : Int) + x.toInt + y.toInt * s.pxStride.toNat ∧
        (s.arg0.toNat : Int) + x.toInt + y.toInt * s.pxStride.toNat + 7 * s.pxStride.toNat + 7 < s.pxLen.toNat
    (pixels 64 8 0).LengthsLegal ∧ fits (pixels 64 8 0) 0 0 ∧ ¬ fits (pixels 63 8 0) 0 0 ∧
      ¬ fits (pixels 72 8 0) (-1) 0 ∧ ¬ fits (pixels 72 8 8) 1 0 ∧ fits (pixels 72 8 8) 0 (-1) ∧
      (8 : Int) + (0 : BitVec 8).toInt + (-1 : BitVec 8).toInt * 8 ≠ 8 := by
  unfold State.LengthsLegal
  decide +kernel

/-- With a stride of 8 every pixel is the last on its byte; with a stride of 0 only row 7. -/
theorem witness_lastVisit : lastVisit 8 0 7 ∧ lastVisit 0 7 0 := by
  constructor <;> · intro r' c' _ _ _ _; omega

theorem witness_frameCopy :
    CopyDir.prevToCur = .prevToCur ∧ CopyDir.curToPrev = .curToPrev ∧ 2 < (pixels 3 1 0).pxLen.toNat := by decide

theorem witness_dcOnly :
    blockAt (coefficients [(0, 256)]).cblk 0 0 = 256 ∧
    (∀ r c, r < 8 → c < 8 → (r ≠ 0 ∨ c ≠ 0) → blockAt (coefficients [(0, 256)]).cblk r c = 0) ∧
    (256 : Word).toInt = 256 * 1 := by
  refine ⟨by decide +kernel, ?_, by decide⟩
  have h : ∀ r : Fin 8, ∀ c : Fin 8, (r.val ≠ 0 ∨ c.val ≠ 0) → blockAt (coefficients [(0, 256)]).cblk r c = 0 := by
    decide +kernel
  exact fun r c hr hc hrc => h ⟨r, hr⟩ ⟨c, hc⟩ hrc

/-- `PX_LEN` = 64 holds a block of stride 8 and `PX_LEN` = 63 does not. -/
theorem witness_idctPutAdd :
    (fun s : State => s.arg0.toNat + 7 * s.pxStride.toNat + 7 < s.pxLen.toNat) (pixels 64 8 0) ∧
    (fun s : State => s.pxLen.toNat ≤ s.arg0.toNat + 7 * s.pxStride.toNat + 7) (pixels 63 8 0) := by decide +kernel

/-- The ends of the ranges of NBITS, of the five audio commands. -/
theorem witness_nbits :
    (0 : BitVec 4).toNat = 0 ∧ 1 ≤ (1 : BitVec 4).toNat ∧ (1 : BitVec 4).toNat ≤ 11 ∧ 1 ≤ (11 : BitVec 4).toNat ∧
    (11 : BitVec 4).toNat ≤ 11 ∧ 11 < (12 : BitVec 4).toNat ∧ (12 : BitVec 4).toNat ≤ 12 ∧ 12 < (13 : BitVec 4).toNat ∧
    (3 : BitVec 4).toNat < 4 ∧ 4 ≤ (4 : BitVec 4).toNat := by decide

/-- The smallest and the greatest size of AUD_OLA, and both values of FIRST. -/
theorem witness_audOla :
    16 = 2 ^ (4 : BitVec 4).toNat ∧ 1 = 16 / 16 ∧ 1 = 1 + (0 : BitVec 1).toNat ∧
    4096 = 2 ^ (12 : BitVec 4).toNat ∧ 256 = 4096 / 16 ∧ 2 = 1 + (1 : BitVec 1).toNat ∧
    idle.audFirst = true ∧ ({ idle with audFirst := false } : State).audFirst = false := by decide

/-- IRDFT_PRE on 2 entries, on 4 (with the two that pass through) and on 8 (with one iteration of its loop). -/
theorem witness_irdftPre :
    1 ≤ (1 : BitVec 4).toNat ∧ ([1, 2] : List F32).length = 2 ^ (1 : BitVec 4).toNat ∧
    ([1, 2, 3, 4] : List F32).length = 2 ^ (2 : BitVec 4).toNat ∧ 4 ≤ 4 ∧
    ([1, 2, 3, 4, 5, 6, 7, 8] : List F32).length = 2 ^ (3 : BitVec 4).toNat ∧ 1 < 8 / 4 := by decide

/-- One entry, and four entries from offset 2 with one left over. -/
theorem witness_inPlaceInv :
    0 + 2 ^ 0 ≤ ([0x3F800000] : List F32).length ∧ 2 + 2 ^ 2 ≤ ([0, 1, 2, 3, 4, 5, 6] : List F32).length := by decide

/-- One value, with the smallest data, and two; the sizes at the ends of the twiddles' range. -/
theorem witness_inPlaceFft :
    ([⟨0, 1⟩] : List Cx).length = 2 ^ 0 ∧ ([⟨0, 1⟩, ⟨2, 3⟩] : List Cx).length = 2 ^ 1 ∧
    ([0, 1] : List F32).length = 2 ^ (0 + 1) ∧ ([0, 1, 2, 3] : List F32).length = 2 ^ (1 + 1) ∧
    (1 ≤ 1 ∧ 1 ≤ 11 ∧ 2 ≤ 2 ∧ 11 ≤ 11) := by decide

theorem witness_bitReversal : 6 < 2 ^ 3 ∧ 2 < 3 ∧ 0 < 2 ^ 0 := by decide

/-- 1.0 and −0.0 are finite, and 1.0 is no zero divisor. -/
theorem witness_rounding :
    (∃ v, f32Rat 0x3F800000 = some v ∧ v ≠ 0) ∧ ∃ v, f32Rat 0x80000000 = some v :=
  ⟨⟨1, by decide +kernel, by decide⟩, _, rfl⟩

/-- The greatest integer that `f32` is stated of, and the sign bit. -/
theorem witness_exactIntegers : 16777216 ≤ 2 ^ 24 ∧ 31 < 32 ∧ f32OfNat 16777216 = 0x4B800000 := by decide +kernel

/-- An operator gives a NaN with and without a NaN operand: `0 ⊗ ∞`, and a signalling NaN plus 1. -/
theorem witness_nan :
    f32IsNan (f32Mul 0 0x7F800000) ∧ f32IsNan (0x7F800001 : F32) := by
  unfold f32IsNan
  decide +kernel

/-- The greatest pattern that is no NaN, and the least that is one. -/
theorem witness_scaleByOne : ¬ f32IsNan (0x7F800000 : F32) ∧ f32IsNan (0x7F800001 : F32) := by
  unfold f32IsNan
  decide +kernel

theorem witness_commandWrite :
    (fun s : State => s.busy = true) { idle with busy := true } ∧
    (fun s : State => s.busy = false ∧ s.err = true) { idle with err := true } ∧
    (fun s : State => s.busy = false ∧ s.err = false) idle := by decide

theorem witness_acknowledgement :
    ({ idle with err := true, errcode := 3 } : State).busy = false ∧ (2 : Word).getLsbD 1 = true := by decide

/-- An enabled pending source, and each pending source not enabled. -/
theorem witness_interrupt :
    ({ idle with irqDone := true, doneEn := true } : State).irq = true ∧
    ({ idle with irqErri := true, doneEn := true } : State).irq = false ∧
    ({ idle with irqErri := true } : State).irqErri = true := by decide

/-- Trees 0 and 31, and the entries at the ends of the two map words. -/
theorem witness_treeWindow :
    idle.busy = false ∧ (3 : Nat) < 4 ∧ (0 : Fin 16).val / 8 + 1 = 1 ∧ (7 : Fin 16).val / 8 + 1 = 1 ∧
      (8 : Fin 16).val / 8 + 1 = 2 ∧ (15 : Fin 16).val / 8 + 1 = 2 := by decide

/-- The first and the last word of the RAM windows of a part with BSM_BYTES = 2^20 and PXM_BYTES = 2^22, and of OBLK. -/
theorem witness_ramWindows :
    (∀ off ∈ [0x800, 0x8FC, 0x10000, 0x17FFC, 0x18000, 0x187FC, 0x100000, 0x1FFFFC, 0x1000000, 0x13FFFFC, 0x2000000,
      0x23FFFFC], ramWindow params off ∧ off % 4 = 0) ∧
    (∀ off ∈ [0x900, 0x9FC], inWindow oblkBase 0x100 off ∧ off % 4 = 0) ∧
    (stream [0xA5] 0).held (0x100000 + 0) = some 0xA5 := by decide

/-- A width of 2, a misaligned offset, and the first and last offsets of the unmapped holes. -/
theorem witness_notAdmitted :
    (2 ≠ 4) ∧ 0x806 % 4 ≠ 0 ∧
    ∀ off ∈ [0x040, 0x3FC, 0x600, 0x7FC, 0xA00, 0xFFFC, 0x18800, 0xFFFFC, 0x200000, 0xFFFFFC, 0x1400000, 0x1FFFFFC,
      0x2400000, 0x2FFFFFC], ¬ mappedOffset params off := by
  unfold mappedOffset
  decide

theorem witness_readOnly :
    ∀ off ∈ [0x000, 0x014, 0x018, 0x038, 0x900, 0x9FC],
      off = 0x000 ∨ off = 0x014 ∨ off = 0x018 ∨ off = 0x038 ∨ (inWindow oblkBase 0x100 off ∧ off % 4 = 0) := by decide

/-- One offset of each group, the ends of its ranges. -/
theorem witness_busyAccesses :
    ∀ off ∈ [0x000, 0x004, 0x008, 0x00C, 0x010, 0x014, 0x018, 0x01C, 0x020, 0x024, 0x034, 0x038, 0x03C, 0x400, 0x5F8, 0x5FC,
      0x800, 0x8FC, 0x900, 0x9FC, 0x10000, 0x13FFFFC, 0x2000000], mappedOffset params off ∧ off % 4 = 0 := by
  unfold mappedOffset
  decide

theorem witness_reservedWords :
    ∀ off ∈ [0x03C, 0x40C, 0x5FC], off = 0x03C ∨ (0x400 ≤ off ∧ off < 0x600 ∧ off % 16 = 12) := by decide

theorem witness_softReset : (1 : Word).getLsbD 0 = true ∧ (0xFFFFFFFE : Word).getLsbD 0 = false := by decide

/-- The first and the last address of the window, with no command in flight and with one that lets accesses by. -/
theorem witness_hostAccesses :
    HostAccess.toBlock idle.params ⟨0x5000, 4, .read⟩ ∧ HostAccess.toBlock idle.params ⟨0x3004FFF, 1, .write 0⟩ ∧
    idle.busy = false ∧ 0 < ({ idle with busy := true, latency := 1 } : State).latency := by
  unfold HostAccess.toBlock
  decide

end Sys2Proof.Tests
end

/-! The register file and the invariant (10_state.md): the values a reset leaves, the registers as the host reads and
writes them, what no command writes, and the invariant that every step keeps. -/

namespace Sys2Proof.Machine

/-! ### Words made of flags -/

/-- A field below a word, as a sum: the step by which a status word is the sum of its fields at their places. -/
theorem toNat_append_eq_add {m n : Nat} (x : BitVec m) (y : BitVec n) :
    (x ++ y).toNat = x.toNat * 2 ^ n + y.toNat := by
  rw [BitVec.toNat_append, ← Nat.shiftLeft_add_eq_or_of_lt y.isLt, Nat.shiftLeft_eq]

theorem State.statusWord_toNat (s : State) : s.statusWord.toNat =
    s.busy.toNat + 2 * s.err.toNat + 4 * s.overrun.toNat + 8 * s.buserr.toNat + 16 * s.errcode.toNat := by
  simp only [State.statusWord, toNat_append_eq_add, BitVec.toNat_ofBool, BitVec.toNat_ofNat]
  omega

theorem State.irqStatusWord_toNat (s : State) : s.irqStatusWord.toNat = s.irqDone.toNat + 2 * s.irqErri.toNat := by
  simp only [State.irqStatusWord, toNat_append_eq_add, BitVec.toNat_ofBool, BitVec.toNat_ofNat]
  omega

theorem State.irqEnWord_toNat (s : State) : s.irqEnWord.toNat = s.doneEn.toNat + 2 * s.erriEn.toNat := by
  simp only [State.irqEnWord, toNat_append_eq_add, BitVec.toNat_ofBool, BitVec.toNat_ofNat]
  omega

theorem State.audCtrlWord_toNat (s : State) : s.audCtrlWord.toNat = s.audFirst.toNat := by
  simp only [State.audCtrlWord, toNat_append_eq_add, BitVec.toNat_ofBool, BitVec.toNat_ofNat]
  omega

theorem State.pxStrideWord_toNat (s : State) : s.pxStrideWord.toNat = s.pxStride.toNat := by
  simp only [State.pxStrideWord, toNat_append_eq_add, BitVec.toNat_ofNat]
  omega

theorem paramsWord_toNat (p : Params) :
    (paramsWord p).toNat = 12 + 2 ^ 8 * 32 + 2 ^ 16 * p.bsmLog + 2 ^ 24 * p.pxmLog := by
  have hb : p.bsmLog < 2 ^ 8 := by have := p.bsm.isLt; simp only [Params.bsmLog]; omega
  have hp : p.pxmLog < 2 ^ 8 := by have := p.pxm.isLt; simp only [Params.pxmLog]; omega
  simp only [paramsWord, toNat_append_eq_add, BitVec.toNat_ofNat, Nat.mod_eq_of_lt hb, Nat.mod_eq_of_lt hp,
    Config.ntrees, Config.audMaxBits]
  omega

/-! ### Resets -/

/-- Power-on reset leaves what a soft reset leaves: the two columns of 10_state.md R57 differ in the RAMs alone. -/
theorem State.softReset_reset : State.reset.softReset = State.reset := rfl

theorem State.tree_softReset (s : State) (k : BitVec 5) : s.softReset.tree k = SymbolTree.reset := by
  simp [State.tree]

/-- The map of the reset tree is the identity (10_state.md R47). -/
theorem SymbolTree.reset_map (k : Fin 16) : SymbolTree.reset.map[k] = BitVec.ofNat 4 k.val := by
  revert k; decide

theorem State.statusWord_softReset (s : State) : s.softReset.statusWord = 0 := by
  apply BitVec.eq_of_toNat_eq; simp [State.statusWord_toNat]

theorem State.irqStatusWord_softReset (s : State) : s.softReset.irqStatusWord = 0 := by
  apply BitVec.eq_of_toNat_eq; simp [State.irqStatusWord_toNat]

theorem State.irqEnWord_softReset (s : State) : s.softReset.irqEnWord = 0 := by
  apply BitVec.eq_of_toNat_eq; simp [State.irqEnWord_toNat]

/-- Settles O12: both resets are soft resets, of which each value is read off. -/
theorem resetValues : Obligations.ResetValues := by
  unfold Obligations.ResetValues
  refine ⟨fun s hs => ?_, fun a => rfl, fun s a => ⟨rfl, rfl⟩⟩
  obtain ⟨t, rfl⟩ : ∃ t : State, s = t.softReset := hs.elim (fun e => ⟨State.reset, e⟩) id
  refine ⟨t.statusWord_softReset, rfl, rfl, rfl, rfl, t.irqStatusWord_softReset, t.irqEnWord_softReset,
    rfl, rfl, rfl, rfl, rfl, fun k => ?_, rfl, rfl, rfl, rfl⟩
  rw [State.tree_softReset]
  exact ⟨rfl, SymbolTree.reset_map⟩

/-! ### Registers as the host reads and writes them -/

section Registers

variable {s : State} {k : Nat} {r : Reg}

/-- The word at index `k` of the control page is admitted as its register. -/
theorem admitted_ofIndex (p : Params) (hr : Reg.ofIndex k = some r) : admitted p (4 * k) 4 = some (.reg r) := by
  have hk : k < 16 := by
    by_contra hk
    obtain ⟨j, rfl⟩ : ∃ j, k = j + 16 := ⟨k - 16, by omega⟩
    exact absurd hr (by simp [Reg.ofIndex])
  rw [admitted_reg p k hk, hr, Option.map_some]

/-- A read of a register replies what it holds, unless a command in flight may be writing it. -/
theorem State.replies_access_read_reg (hr : Reg.ofIndex k = some r)
    (hs : s.busy = false ∨ Target.steady (.reg r) = true) :
    (s.access (4 * k) 4 .read).replies = s.readReg r :: s.replies := by
  have hc : (s.busy && !Target.steady (.reg r)) = false := by
    rcases hs with hs | hs <;> simp [hs]
  rw [State.access_read (admitted_ofIndex s.params hr), State.reply_replies]
  simp [State.busRead, hc, State.readTarget]

/-- A write of a register takes effect when no command is in flight, or when it lands all the same. -/
theorem State.access_write_reg (hr : Reg.ofIndex k = some r)
    (hs : s.busy = false ∨ Target.busyWrite (.reg r) = .lands) (v : Word) :
    s.access (4 * k) 4 (.write v) = s.writeReg r v := by
  rw [State.access_write (admitted_ofIndex s.params hr)]
  rcases hs with hs | hs <;> simp [State.busWrite, hs, State.writeTarget]

/-- A write that a read-only register ignores changes nothing. -/
theorem State.access_write_ignored (hr : Reg.ofIndex k = some r) (hi : Target.busyWrite (.reg r) = .ignored)
    (v : Word) :
    s.access (4 * k) 4 (.write v) = s := by
  rw [State.access_write (admitted_ofIndex s.params hr)]
  have hw : s.writeReg r v = s := by
    cases r <;> simp only [Target.busyWrite, reduceCtorEq] at hi <;> rfl
  simp [State.busWrite, hi, State.writeTarget, hw]

end Registers

/-- A write to STATUS clears the flags whose bits are 1, flag by flag (10_state.md R32). -/
theorem State.writeStatus_eq (s : State) (v : Word) : s.writeStatus v = { s with
    err := if v.getLsbD 1 then false else s.err
    errcode := if v.getLsbD 1 then 0 else s.errcode
    errinfo := if v.getLsbD 1 then 0 else s.errinfo
    overrun := if v.getLsbD 2 then false else s.overrun
    buserr := if v.getLsbD 3 then false else s.buserr } := by
  have hclear : ∀ b x : Bool, (if b then false else x) = (x && !b) := by decide
  unfold State.writeStatus
  rw [hclear _ s.overrun, hclear _ s.buserr]
  cases v.getLsbD 1 <;> rfl

/-- Settles O49: the fields of STATUS at their places, and the access reaches STATUS in every state. -/
theorem statusRegister : Obligations.StatusRegister := by
  unfold Obligations.StatusRegister
  intro s
  have hr : Reg.ofIndex 1 = some .status := rfl
  refine ⟨s.statusWord_toNat, State.replies_access_read_reg hr (.inr rfl), fun v => ?_⟩
  rw [← s.writeStatus_eq v]
  exact State.access_write_reg hr (.inr rfl) v

/-- Settles O52: the six registers are steady, so that they read the same with a command in flight, and the two
constants ignore writes. -/
theorem constantRegisters : Obligations.ConstantRegisters := by
  unfold Obligations.ConstantRegisters
  intro s
  have hid : Reg.ofIndex 0 = some .id := rfl
  have hparams : Reg.ofIndex 14 = some .params := rfl
  exact ⟨State.replies_access_read_reg hid (.inr rfl),
    fun v => ⟨State.access_write_ignored hid rfl v, State.access_write_ignored hparams rfl v⟩,
    State.replies_access_read_reg (k := 2) (r := .ctrl) rfl (.inr rfl),
    State.replies_access_read_reg (k := 3) (r := .cmd) rfl (.inr rfl),
    State.replies_access_read_reg (k := 15) (r := .reserved) rfl (.inr rfl),
    paramsWord s.params, State.replies_access_read_reg hparams (.inr rfl), paramsWord_toNat s.params⟩

/-- A WARL length register holds the smaller of the value and the size (10_state.md R40, R43). -/
theorem warlMin_toNat (v : Word) (size : Nat) : (warlMin v size).toNat = min v.toNat size := by
  have hv := v.isLt
  rw [warlMin, BitVec.toNat_ofNat, Nat.mod_eq_of_lt (by omega)]

theorem toNat_getLsbD (v : Word) (i : Nat) : (v.getLsbD i).toNat = v.toNat / 2 ^ i % 2 :=
  Nat.toNat_testBit v.toNat i

/-- A write of an idle block's register and the read that follows, when the write starts no command. -/
theorem State.access_readBack {s : State} {k : Nat} {r : Reg} {v : Word} {u : State} {w : Word} (hb : s.busy = false)
    (hr : Reg.ofIndex k = some r) (hw : s.writeReg r v = u) (hu : u.busy = false) (hread : u.readReg r = w)
    (hreplies : u.replies = s.replies) :
    s.access (4 * k) 4 (.write v) = u ∧
      ((s.access (4 * k) 4 (.write v)).access (4 * k) 4 .read).replies = w :: s.replies := by
  have h : s.access (4 * k) 4 (.write v) = u := (State.access_write_reg hr (.inl hb) v).trans hw
  rw [h, State.replies_access_read_reg hr (.inl hu), hread, hreplies]
  exact ⟨rfl, rfl⟩

/-- Settles O51: each write and the read after it by `State.access_readBack`, with the words that hold less than 32 bits
compared as numbers. -/
theorem registersReadBack : Obligations.RegistersReadBack := by
  unfold Obligations.RegistersReadBack
  intro s v hb
  have hirqEn : ({ s with doneEn := v.getLsbD 0, erriEn := v.getLsbD 1 } : State).irqEnWord =
      BitVec.ofNat 32 (v.toNat % 4) := by
    apply BitVec.eq_of_toNat_eq
    simp only [State.irqEnWord_toNat, toNat_getLsbD, BitVec.toNat_ofNat]
    omega
  have hstride : ({ s with pxStride := v.setWidth 24 } : State).pxStrideWord =
      BitVec.ofNat 32 (v.setWidth 24).toNat := by
    apply BitVec.eq_of_toNat_eq
    simp only [State.pxStrideWord_toNat, BitVec.toNat_setWidth, BitVec.toNat_ofNat]
    omega
  have haud : ({ s with audFirst := v.getLsbD 0 } : State).audCtrlWord = BitVec.ofNat 32 (v.toNat % 2) := by
    apply BitVec.eq_of_toNat_eq
    simp only [State.audCtrlWord_toNat, toNat_getLsbD, BitVec.toNat_ofNat]
    omega
  have hirq : s.irqStatusWord = BitVec.ofNat 32 (s.irqDone.toNat + 2 * s.irqErri.toNat) := by
    rw [← State.irqStatusWord_toNat, BitVec.ofNat_toNat, BitVec.setWidth_eq]
  refine ⟨State.access_readBack hb (k := 4) (r := .arg0) rfl rfl hb rfl rfl,
    State.access_readBack hb (k := 8) (r := .irqEn) rfl rfl hb hirqEn rfl,
    ⟨_, warlMin_toNat v _, State.access_readBack hb (k := 9) (r := .bsLen) rfl rfl hb rfl rfl⟩,
    State.access_readBack hb (k := 10) (r := .bsPos) rfl rfl hb rfl rfl,
    ⟨_, BitVec.toNat_setWidth 24 v, State.access_readBack hb (k := 11) (r := .pxStride) rfl rfl hb hstride rfl⟩,
    ⟨_, warlMin_toNat v _, State.access_readBack hb (k := 12) (r := .pxLen) rfl rfl hb rfl rfl⟩,
    State.access_readBack hb (k := 13) (r := .audCtrl) rfl rfl hb haud rfl,
    State.replies_access_read_reg (k := 5) (r := .result) rfl (.inl hb),
    State.replies_access_read_reg (k := 6) (r := .errinfo) rfl (.inl hb), ?_⟩
  rw [← hirq]
  exact State.replies_access_read_reg (k := 7) (r := .irqStatus) rfl (.inl hb)

/-! ### What the commands leave alone -/

/-- Settles O13: whatever a command does, the report of an error or new values of the five things a command may write,
none of the host's registers is among it. -/
theorem commandsLeaveTheHostsRegisters : Obligations.CommandsLeaveTheHostsRegisters := by
  unfold Obligations.CommandsLeaveTheHostsRegisters
  intro i s t hp h
  rcases exec_shape h with ⟨c, rfl⟩ | ⟨r, p, tr, m, f, rfl⟩
  · simp [State.raise, hp]
  · simp [hp]

section Result

variable {s t u : State} (hp : s.srstPend = false)

include hp

/-- A command that changes the RAMs alone leaves RESULT. -/
theorem result_of_mem (hu : ∃ m, u = { s with mem := m })
    (h : (.next u.complete : Host.Outcome State Fault Refusal) = .next t) : t.result = s.result := by
  obtain ⟨m, rfl⟩ := hu
  obtain rfl := Host.Outcome.next.inj h
  exact State.complete_result hp

/-- A command with a check leaves RESULT when what follows the check does: the error report leaves it. -/
theorem result_of_guard {c : Prop} [Decidable c] {code : ErrCode} {o : Host.Outcome State Fault Refusal}
    (ho : o = .next t → t.result = s.result) (h : (if c then o else .next (s.raise code)) = .next t) :
    t.result = s.result := by
  split at h
  · exact ho h
  · obtain rfl := Host.Outcome.next.inj h
    exact State.complete_result (s := s.fail code) hp

/-- A command that is none of the six writes no RESULT. -/
theorem exec_result_of_not_writesResult {i : Instr} (h : exec i s = .next t) (hw : writesResult i = false) :
    t.result = s.result := by
  cases i <;> simp only [writesResult, reduceCtorEq] at hw <;> simp only [exec] at h
  case nop => exact result_of_mem hp ⟨s.mem, rfl⟩ h
  case bsSkip k => exact Host.Outcome.next.inj h ▸ State.complete_result (s := s.advance k.toNat) hp
  case bsAlign32 => exact Host.Outcome.next.inj h ▸ State.complete_result (s := { s with bsPos := _ }) hp
  case treeRead k =>
    obtain ⟨n, -, -, hn⟩ := readTree_state s
    obtain rfl := Host.Outcome.next.inj h
    rw [hn]
    exact State.complete_result (s := (s.advance n).setTree k _) hp
  case mcCopy8 xoff yoff =>
    refine result_of_guard hp (fun h => ?_) h
    split at h
    · exact result_of_mem hp ⟨s.mem, rfl⟩ h
    · exact result_of_mem hp (s.forRows_state _ (copyRow_writes _ _)) h
  case frameCopy dir => cases dir <;> exact result_of_mem hp ⟨_, rfl⟩ h
  case idctPut => exact result_of_guard hp (result_of_mem hp (s.forRows_state _ (putRow_writes _ _))) h
  case idctAdd => exact result_of_guard hp (result_of_mem hp (s.forRows_state _ (addRow_writes _ _))) h
  case idctInt => exact result_of_mem hp ⟨_, rfl⟩ h
  case audIdct3 ch nbits =>
    refine result_of_guard hp (fun h => ?_) h
    simp only at h
    split at h
    · exact result_of_mem hp ⟨s.mem, rfl⟩ h
    · exact result_of_mem hp ⟨_, rfl⟩ h
  case audIrdft ch nbits => exact result_of_guard hp (result_of_mem hp ⟨_, rfl⟩) h
  case audFft ch nbits =>
    refine result_of_guard hp (fun h => ?_) h
    split at h
    · exact result_of_mem hp ⟨s.mem, rfl⟩ h
    · exact result_of_mem hp ⟨_, rfl⟩ h
  case audScale ch nbits => exact result_of_guard hp (result_of_mem hp ⟨_, rfl⟩) h
  case audOla i2 nbits =>
    refine result_of_guard hp (fun h => ?_) h
    obtain ⟨m, e⟩ := s.olaChannel_state (2 ^ nbits.toNat) (1 + i2.toNat) 0
    obtain ⟨m', e'⟩ := ({ s with mem := m } : State).olaChannel_state (2 ^ nbits.toNat) (1 + i2.toNat) 1
    obtain rfl := Host.Outcome.next.inj h
    simp only [e, e']
    split <;> exact State.complete_result hp

end Result

/-- Settles O14: none of the other commands writes RESULT, and a command that raised ERR did nothing but report. -/
theorem resultIsWrittenBySixCommands : Obligations.ResultIsWrittenBySixCommands := by
  unfold Obligations.ResultIsWrittenBySixCommands
  rintro i s t hp h (hw | ⟨hs, ht⟩)
  · exact exec_result_of_not_writesResult hp h hw
  · rcases exec_shape h with ⟨c, rfl⟩ | ⟨r, p, tr, m, f, rfl⟩
    · exact State.complete_result (s := s.fail c) hp
    · simp [hp, hs] at ht

/-- No store of a command reaches CBLK or BSM. -/
theorem storeStable_held {p : Params} {a : Nat} {b : Option Byte}
    (ha : inWindow cblkBase 0x100 a ∨ inWindow bsmBase p.bsmBytes a) : StoreStable p (fun m => m.held a = b) := by
  intro m x bs hm hx
  have hb := (bsm_facts p).1
  simp only [inWindow, cblkBase, bsmBase] at ha
  simp only [storeLegal, oblkBase, acBase, curBase, prevBase] at hx
  rw [Memory.held_writeBytes_outside (by omega)]
  exact hm

/-- Settles O16: the byte held at an offset of CBLK or BSM is a property of the memory that every legal store keeps. -/
theorem commandsLeaveCblkAndBsm : Obligations.CommandsLeaveCblkAndBsm := by
  unfold Obligations.CommandsLeaveCblkAndBsm
  intro i s t a hl h ha
  exact exec_stable h hl (storeStable_held ha) rfl

/-! ### The invariant -/

/-- Legal stores keep the memory canonical and within the RAMs. -/
theorem storeStable_legal (p : Params) : StoreStable p (fun m => m.wf ∧ ∀ c ∈ m, ramByte p c.1) := by
  rintro m a bs ⟨hwf, hram⟩ hs
  refine ⟨Memory.wf_writeBytes hwf a bs, fun c hc => ?_⟩
  rcases Memory.mem_writeBytes hc with hc | hc
  · simp only [storeLegal, oblkBase, acBase, curBase, prevBase] at hs
    simp only [ramByte, ramWindow_iff, inWindow, oblkBase]
    omega
  · exact hram c hc

/-- A host's word at an admitted offset of a RAM window keeps the memory canonical and within the RAMs. -/
theorem State.MemoryLegal.writeWord {s : State} (h : s.MemoryLegal) {off : Nat} (h4 : off % 4 = 0)
    (hw : ramWindow s.params off) (v : Word) : (s.writeWords off [v]).MemoryLegal := by
  obtain ⟨hwf, hram⟩ := h
  refine ⟨Memory.wf_writeBytes hwf _ _, fun c hc => ?_⟩
  rcases Memory.mem_writeBytes hc with ⟨hle, hlt⟩ | hc
  · rw [length_flatMap_bytes, List.length_singleton] at hlt
    obtain ⟨i, hi⟩ := Nat.exists_eq_add_of_le hle
    rw [hi]
    exact .inl (ramWindow_word h4 hw (by omega))
  · exact hram c hc

section Invariant

variable {s t : State}

/-- A soft reset needs the memory alone: all else takes its reset value. -/
theorem State.MemoryLegal.softReset_inv (h : s.MemoryLegal) : s.softReset.Inv :=
  ⟨h, ⟨Nat.zero_le _, Nat.zero_le _⟩, ⟨fun _ => ⟨rfl, rfl⟩, nofun⟩, nofun, nofun⟩

/-- A completion clears BUSY and takes the pending soft reset, so it needs nothing of the lifecycle before it. -/
theorem State.complete_inv (hm : s.MemoryLegal) (hl : s.LengthsLegal) (he : s.ErrorRecordLegal) : s.complete.Inv := by
  unfold State.complete
  split
  · exact State.MemoryLegal.softReset_inv (s := { s with busy := false, irqDone := true, draws := s.draws + 1 }) hm
  · rename_i hp
    exact ⟨hm, hl, he, nofun, fun h => absurd h hp⟩

/-- A reported error has one of the three codes, so the report needs nothing of the error record before it. -/
theorem State.raise_inv (hm : s.MemoryLegal) (hl : s.LengthsLegal) (c : ErrCode) : (s.raise c).Inv :=
  State.complete_inv (s := s.fail c) hm hl ⟨nofun, fun _ => c.bits_cases⟩

/-- Every command keeps the invariant: its stores are legal, and of the other fields it changes only what the invariant
leaves free. -/
theorem exec_inv {i : Instr} (hs : s.Inv) (h : exec i s = .next t) : t.Inv := by
  obtain ⟨hm, hl, he, -⟩ := hs
  rcases exec_shape h with ⟨c, rfl⟩ | ⟨r, p, tr, m, f, rfl⟩
  · exact State.raise_inv hm hl c
  · have hmem := exec_stable h hl (storeStable_legal s.params) hm
    rw [State.complete_mem] at hmem
    exact State.complete_inv (s := { s with result := r, bsPos := p, trees := tr, mem := m, audFirst := f }) hmem hl he

theorem State.writeStatus_inv (hs : s.Inv) (v : Word) : (s.writeStatus v).Inv := by
  obtain ⟨hm, hl, ⟨he0, he1⟩, hb, hp⟩ := hs
  rw [State.writeStatus_eq]
  cases v.getLsbD 1
  · exact ⟨hm, hl, ⟨he0, he1⟩, hb, hp⟩
  · exact ⟨hm, hl, ⟨fun _ => ⟨rfl, rfl⟩, nofun⟩, fun _ => rfl, hp⟩

theorem State.writeCtrl_inv (hs : s.Inv) (v : Word) : (s.writeCtrl v).Inv := by
  obtain ⟨hm, hl, he, hb, hp⟩ := hs
  unfold State.writeCtrl
  split
  · split
    · rename_i hbusy
      exact ⟨hm, hl, he, hb, fun _ => hbusy⟩
    · exact hm.softReset_inv
  · exact ⟨hm, hl, he, hb, hp⟩

/-- The command gate (60_exceptions.md R301) is what makes BUSY imply ERR = 0. -/
theorem State.acceptCmd_inv (hs : s.Inv) (w : Word) : (s.acceptCmd w).Inv := by
  unfold State.acceptCmd
  split
  · exact hs
  · rename_i herr
    obtain ⟨hm, hl, he, -, -⟩ := hs
    exact ⟨hm, hl, he, fun _ => by simpa using herr, fun _ => rfl⟩

theorem State.writeReg_inv (hs : s.Inv) (r : Reg) (v : Word) : (s.writeReg r v).Inv := by
  obtain ⟨hm, ⟨hbs, hpx⟩, he, hc⟩ := id hs
  cases r
  case status => exact State.writeStatus_inv hs v
  case ctrl => exact State.writeCtrl_inv hs v
  case cmd => exact State.acceptCmd_inv hs v
  case bsLen => exact ⟨hm, ⟨(warlMin_toNat v _).trans_le (min_le_right _ _), hpx⟩, he, hc⟩
  case pxLen => exact ⟨hm, ⟨hbs, (warlMin_toNat v _).trans_le (min_le_right _ _)⟩, he, hc⟩
  all_goals exact hs

theorem State.busWrite_inv (hs : s.Inv) {off width : Nat} {k : Target} (hk : admitted s.params off width = some k)
    (v : Word) : (s.busWrite k v).Inv := by
  have hwrite : (s.writeTarget k v).Inv := by
    obtain ⟨-, h4, ⟨r, rfl, -⟩ | ⟨j, w, rfl, -⟩ | ⟨rfl, -⟩ | ⟨rfl, hw⟩⟩ := admitted_cases hk
    · exact State.writeReg_inv hs r v
    · exact hs
    · exact hs
    · exact ⟨hs.1.writeWord h4 hw v, hs.2⟩
  unfold State.busWrite
  split
  · split
    · exact hwrite
    · exact hs
    · exact hs
  · exact hwrite

/-- Every host access keeps the invariant; a read, a bus error and an overrun touch nothing it speaks of. -/
theorem State.access_inv (hs : s.Inv) (off width : Nat) (op : HostOp) : (s.access off width op).Inv := by
  unfold State.access
  split
  · exact hs
  · rename_i k v hk
    exact State.busWrite_inv hs hk v
  · exact hs
  · exact hs

end Invariant

/-- Settles O11: power-on reset is a soft reset of itself, and its memory is empty. -/
theorem resetHasInvariant : Obligations.ResetHasInvariant := by
  unfold Obligations.ResetHasInvariant
  rw [← State.softReset_reset]
  exact State.MemoryLegal.softReset_inv ⟨Memory.wf_reset, fun c hc => absurd hc List.not_mem_nil⟩

/-- Settles O10, along the cases of a step: an illegal word's report, a command, nothing, or one host access. -/
theorem stepKeepsInvariant : Obligations.StepKeepsInvariant := by
  unfold Obligations.StepKeepsInvariant
  intro s t hs h
  rcases step_cases h with ⟨-, -, -, rfl⟩ | ⟨-, -, i, -, hi⟩ | ⟨-, -, rfl⟩ | ⟨-, a, rest, off, u, -, -, rfl, rfl⟩
  · obtain ⟨hm, hl, -⟩ := hs
    exact State.raise_inv hm hl .illegal
  · exact exec_inv hs hi
  · exact hs
  · exact State.access_inv (s := { s with hostq := rest, latency := s.latency - 1 }) hs off a.width a.op

end Sys2Proof.Machine

/-! The host's window (20_memory.md): the words of a tree and of the RAMs as the host writes and reads them, the accesses
that are not admitted, and the order in which accesses take effect. -/

namespace Sys2Proof.Machine

/-! ### Accesses with no command in flight -/

section Idle

variable {s : State} {off : Nat} {t : Target}

theorem State.access_write_idle (hb : s.busy = false) (h : admitted s.params off 4 = some t) (v : Word) :
    s.access off 4 (.write v) = s.writeTarget t v := by
  rw [State.access_write h]
  simp [State.busWrite, hb]

theorem State.access_read_idle (hb : s.busy = false) (h : admitted s.params off 4 = some t) :
    s.access off 4 .read = s.reply (s.readTarget t) := by
  rw [State.access_read h]
  simp [State.busRead, hb]

/-- The OBLK window is read-only to the host, with a command in flight or without (20_memory.md R73). -/
theorem State.access_write_oblk (s : State) (h4 : off % 4 = 0) (ho : inWindow oblkBase 0x100 off) (v : Word) :
    s.access off 4 (.write v) = s := by
  rw [State.access_write (admitted_oblk h4 ho)]
  unfold State.busWrite
  split <;> rfl

end Idle

/-! ### The words of a tree (20_memory.md R72) -/

section MapWords

variable {m : Vector (BitVec 4) 16} {q : Nat}

@[simp] theorem length_mapNibbles (v : Word) : (mapNibbles v).length = 8 := by simp [mapNibbles]

/-- A write of eight entries puts the word's nibbles in the place of the eight that were there. -/
theorem toList_setNibbles {k : Nat} (hk : k + 8 ≤ 16) (v : Word) :
    (setNibbles m k v).toList = m.toList.take k ++ mapNibbles v ++ m.toList.drop (k + 8) := by
  have hlist : ∀ n : List (BitVec 4), n.length = 16 → (List.range 16).map (n.getD · 0) = n := by
    intro n hn
    exact List.ext_getElem (by simp [hn]) (by simp +contextual)
  refine hlist _ ?_
  simp
  omega

/-- Half `q` of the map takes the nibbles of the word, the other half stays. -/
theorem getElem_setNibbles (hq : q < 2) (v : Word) {i : Nat} (hi : i < 16) :
    (setNibbles m (8 * q) v)[i] = if i / 8 = q then v.extractLsb' (4 * (i % 8)) 4 else m[i] := by
  have htake : (m.toList.take (8 * q)).length = 8 * q := by simp; omega
  rw [← Vector.getElem_toList (by simpa using hi)]
  simp only [toList_setNibbles (show 8 * q + 8 ≤ 16 by omega), List.append_assoc, List.getElem_append, htake,
    length_mapNibbles]
  rcases lt_trichotomy (i / 8) q with h | h | h
  · rw [dif_pos (by omega), if_neg (by omega)]
    simp
  · rw [dif_neg (by omega), dif_pos (by omega), if_pos h]
    have hpos : i - 8 * q = i % 8 := by omega
    simp [mapNibbles, hpos]
  · rw [dif_neg (by omega), dif_neg (by omega), if_neg (by omega)]
    have hpos : 8 * q + 8 + (i - 8 * q - 8) = i := by omega
    simp [hpos]

/-- A word is made of its eight nibbles. -/
theorem append_nibbles (v : Word) :
    v.extractLsb' 28 4 ++ v.extractLsb' 24 4 ++ v.extractLsb' 20 4 ++ v.extractLsb' 16 4 ++ v.extractLsb' 12 4 ++
      v.extractLsb' 8 4 ++ v.extractLsb' 4 4 ++ v.extractLsb' 0 4 = v := by
  have hv := v.isLt
  apply BitVec.eq_of_toNat_eq
  simp only [toNat_append_eq_add, BitVec.extractLsb'_toNat, Nat.shiftRight_eq_div_pow]
  omega

/-- A `MAP` word reads back as written. -/
theorem mapWord_setNibbles (hq : q < 2) (v : Word) : mapWord (setNibbles m (8 * q) v) (8 * q) = v := by
  have hentry : ∀ j < 8, (setNibbles m (8 * q) v).toList.getD (8 * q + j) 0 = v.extractLsb' (4 * j) 4 := by
    intro j hj
    have hpos : (8 * q + j) % 8 = j := by omega
    rw [List.getD_eq_getElem _ _ (by simp; omega), Vector.getElem_toList, getElem_setNibbles hq v (by omega),
      if_pos (by omega), hpos]
  simp only [mapWord, hentry, Nat.reduceLT, Nat.reduceMul]
  exact append_nibbles v

end MapWords

section TreeWords

variable (tr : SymbolTree) (v : Word)

/-- `TABLE` lies in word 0 alone. -/
theorem table_setTreeWord {w : BitVec 2} (hw : w.toNat ≠ 0) : (setTreeWord tr w v).table = tr.table := by
  unfold setTreeWord
  split
  · contradiction
  all_goals rfl

/-- Words 1 and 2 hold eight entries each, the other two words none. -/
theorem map_setTreeWord (w : BitVec 2) {i : Nat} (hi : i < 16) : (setTreeWord tr w v).map[i] =
    if i / 8 + 1 = w.toNat then v.extractLsb' (4 * (i % 8)) 4 else tr.map[i] := by
  have hw4 := w.isLt
  unfold setTreeWord
  split
  · rw [if_neg (by omega)]
  · rename_i hw
    exact (getElem_setNibbles (q := 0) (by omega) v hi).trans (by simp [hw])
  · rename_i hw
    exact (getElem_setNibbles (q := 1) (by omega) v hi).trans (by simp [hw])
  · have hw : w.toNat ≠ 1 ∧ w.toNat ≠ 2 := ⟨‹_›, ‹_›⟩
    rw [if_neg (by omega)]

/-- What a word of a tree reads back as after a write: only the bits that it stores. -/
theorem treeWord_setTreeWord :
    treeWord (setTreeWord tr 0 v) 0 = BitVec.ofNat 32 (v.toNat % 16) ∧ treeWord (setTreeWord tr 1 v) 1 = v ∧
      treeWord (setTreeWord tr 2 v) 2 = v ∧ treeWord (setTreeWord tr 3 v) 3 = 0 := by
  refine ⟨?_, mapWord_setNibbles (q := 0) (by omega) v, mapWord_setNibbles (q := 1) (by omega) v, rfl⟩
  have htable : treeWord (setTreeWord tr 0 v) 0 = (v.extractLsb' 0 4).setWidth 32 := rfl
  apply BitVec.eq_of_toNat_eq
  rw [htable, BitVec.toNat_setWidth, BitVec.extractLsb'_toNat, BitVec.toNat_ofNat, Nat.shiftRight_zero]

end TreeWords

theorem State.tree_setTree (s : State) (k : BitVec 5) (tr : SymbolTree) : (s.setTree k tr).tree k = tr := by
  simp [State.tree]

section TreeAccess

variable {s : State} {k : BitVec 5} {j : Nat}

theorem State.access_write_tree (hb : s.busy = false) (hj : j < 4) (v : Word) :
    s.access (0x400 + 16 * k.toNat + 4 * j) 4 (.write v) =
      s.setTree k (setTreeWord (s.tree k) (BitVec.ofNat 2 j) v) :=
  State.access_write_idle hb (admitted_tree s.params k j hj) v

/-- A write of a tree's word and the read that follows: the bits that the word stores. -/
theorem State.readBack_tree (hb : s.busy = false) (hj : j < 4) (v : Word) :
    ((s.access (0x400 + 16 * k.toNat + 4 * j) 4 (.write v)).access
      (0x400 + 16 * k.toNat + 4 * j) 4 .read).replies.head? =
      some (treeWord (setTreeWord (s.tree k) (BitVec.ofNat 2 j) v) (BitVec.ofNat 2 j)) := by
  rw [State.access_write_tree hb hj, State.access_read_idle (s := s.setTree k _) hb (admitted_tree s.params k j hj)]
  simp [State.readTarget, State.tree_setTree]

end TreeAccess

/-- Settles O53: the write is `setTreeWord` on that tree, whose table, map and words read back are known. -/
theorem treeWindow : Obligations.TreeWindow := by
  unfold Obligations.TreeWindow
  intro s k v hb
  obtain ⟨h0, h1, h2, h3⟩ := treeWord_setTreeWord (s.tree k) v
  refine ⟨⟨(State.readBack_tree hb (by omega) v).trans (congrArg some h0),
    (State.readBack_tree hb (by omega) v).trans (congrArg some h1),
    (State.readBack_tree hb (by omega) v).trans (congrArg some h2),
    (State.readBack_tree hb (by omega) v).trans (congrArg some h3)⟩, fun j hj => ?_⟩
  have hw : (BitVec.ofNat 2 j).toNat = j := by rw [BitVec.toNat_ofNat]; omega
  refine ⟨_, State.access_write_tree hb hj v, fun hj0 => ?_, fun i => ?_⟩
  · exact table_setTreeWord _ v (hw.trans_ne hj0)
  · have hmap := map_setTreeWord (s.tree k) v (BitVec.ofNat 2 j) i.isLt
    rw [hw] at hmap
    exact hmap

/-! ### Words of the RAMs (20_memory.md R73 to R75) -/

/-- The bytes of a word lie at their little-endian places (20_memory.md R74). -/
theorem Word.extractLsb'_ofBytes (b0 b1 b2 b3 : Byte) :
    (Word.ofBytes b0 b1 b2 b3).extractLsb' 0 8 = b0 ∧ (Word.ofBytes b0 b1 b2 b3).extractLsb' 8 8 = b1 ∧
      (Word.ofBytes b0 b1 b2 b3).extractLsb' 16 8 = b2 ∧ (Word.ofBytes b0 b1 b2 b3).extractLsb' 24 8 = b3 := by
  have h0 := b0.isLt
  have h1 := b1.isLt
  have h2 := b2.isLt
  have h3 := b3.isLt
  refine ⟨?_, ?_, ?_, ?_⟩ <;> apply BitVec.eq_of_toNat_eq <;>
    simp only [Word.ofBytes, BitVec.extractLsb'_toNat, Nat.shiftRight_eq_div_pow, toNat_append_eq_add] <;> omega

/-- Byte `j` of a word read is the byte read at its place. -/
theorem State.extractLsb'_readWord (s : State) (tag a : Nat) {j : Nat} (hj : j < 4) :
    (s.readWord tag a).extractLsb' (8 * j) 8 = s.readByte tag (a + j) := by
  obtain ⟨h0, h1, h2, h3⟩ := Word.extractLsb'_ofBytes (s.readByte tag a) (s.readByte tag (a + 1))
    (s.readByte tag (a + 2)) (s.readByte tag (a + 3))
  match j with
  | 0 => exact h0
  | 1 => exact h1
  | 2 => exact h2
  | 3 => exact h3

/-- A word read has every byte that the RAM holds at its place. -/
theorem State.readWord_held {s : State} {off j : Nat} {b : Byte} (hj : j < 4) (hheld : s.held (off + j) = some b) :
    (s.readWord 0 off).extractLsb' (8 * j) 8 = b := by
  rw [State.extractLsb'_readWord s 0 off hj, State.readByte_of_held hheld]

/-- A word stored in a RAM holds its four bytes and leaves every other byte. -/
theorem Memory.writeBytes_word (m : Memory) (off : Nat) (v : Word) :
    (m.writeBytes off ([v].flatMap Word.bytes)).holdsWord off v ∧
      Memory.sameOutside (inWindow off 4) m (m.writeBytes off ([v].flatMap Word.bytes)) := by
  refine ⟨Memory.holdsWord_writeWords m off [v] 0 (by simp), fun a ha => ?_⟩
  have ha : a < off ∨ off + 4 * [v].length ≤ a := by
    simp only [inWindow, List.length_singleton] at ha ⊢
    omega
  exact Memory.held_writeWords_outside ha

/-- Settles O54: the write stores one word, the read replies `State.readWord`. -/
theorem ramWindows : Obligations.RamWindows := by
  unfold Obligations.RamWindows
  intro s off v hb h4
  refine ⟨fun hram => ?_, fun ho => s.access_write_oblk h4 ho v, fun hwin => ⟨s.readWord 0 off, ?_, fun j b hj hh =>
    State.readWord_held hj hh⟩⟩
  · have hadm := admitted_ram h4 hram
    have hwrite : s.access off 4 (.write v) = s.writeWords off [v] := State.access_write_idle hb hadm v
    obtain ⟨hholds, hsame⟩ := s.mem.writeBytes_word off v
    refine ⟨_, hwrite, hholds, hsame, ?_⟩
    rw [hwrite, State.access_read_idle (s := s.writeWords off [v]) hb hadm, State.reply_replies]
    exact congrArg (· :: s.replies) (State.readWord_of_holdsWord (s := s.writeWords off [v]) hholds 0)
  · rcases hwin with hram | ho
    · exact State.access_read_idle hb (admitted_ram h4 hram)
    · exact State.access_read_idle hb (admitted_oblk h4 ho)

/-! ### Accesses that are not admitted (20_memory.md R76) -/

/-- An admitted access has the one width, is aligned, and lies in a mapped row of 20_memory.md R71. -/
theorem mappedOffset_of_admitted {p : Params} {off width : Nat} {t : Target} (h : admitted p off width = some t) :
    width = 4 ∧ off % 4 = 0 ∧ mappedOffset p off := by
  obtain ⟨hw, h4, hcase⟩ := admitted_cases h
  refine ⟨hw, h4, ?_⟩
  unfold mappedOffset
  rcases hcase with ⟨r, -, hreg, -⟩ | ⟨k, w, -, htree⟩ | ⟨-, hoblk⟩ | ⟨-, hram⟩
  · exact .inl hreg
  · have hk := k.isLt
    have hw := w.isLt
    omega
  · simp only [inWindow, oblkBase] at hoblk
    omega
  · rw [ramWindow_iff] at hram
    omega

/-- Settles O55: an access that fails one of the three conditions is admitted nowhere, and the four registers and OBLK
ignore writes in every state. -/
theorem accessesNotAdmitted : Obligations.AccessesNotAdmitted := by
  unfold Obligations.AccessesNotAdmitted
  refine fun s off width v => ⟨fun hbad => ?_, ?_⟩
  · have hnone : admitted s.params off width = none := by
      rw [Option.eq_none_iff_forall_ne_some]
      intro t ht
      obtain ⟨hw, h4, hmap⟩ := mappedOffset_of_admitted ht
      rcases hbad with hbad | hbad | hbad <;> contradiction
    exact State.access_refused hnone v
  · rintro (rfl | rfl | rfl | rfl | ⟨ho, h4⟩)
    · exact State.access_write_ignored (k := 0) (r := .id) rfl rfl v
    · exact State.access_write_ignored (k := 5) (r := .result) rfl rfl v
    · exact State.access_write_ignored (k := 6) (r := .errinfo) rfl rfl v
    · exact State.access_write_ignored (k := 14) (r := .params) rfl rfl v
    · exact s.access_write_oblk h4 ho v

/-! ### The order of accesses (20_memory.md R84) -/

/-- With no command in flight, or with an access to let by, the step is the host's. -/
theorem step_eq_hostStep {s : State} (h : s.busy = false ∨ s.hostq ≠ [] ∧ 0 < s.latency) : step s = hostStep s := by
  have hturn : s.engineTurn = false := by
    unfold State.engineTurn
    rcases h with hb | ⟨hq, hl⟩
    · simp [hb]
    · simp [hq, Nat.pos_iff_ne_zero.1 hl]
  simp [step, hturn]

/-- Settles O60: the step is the host's, which idles or takes the first access; addressed to the block, it takes effect. -/
theorem hostAccessesTakeEffectInOrder : Obligations.HostAccessesTakeEffectInOrder := by
  unfold Obligations.HostAccessesTakeEffectInOrder
  refine fun s => ⟨fun hb hq => ?_, fun a rest hq hturn ha => ⟨_, rfl, ?_⟩⟩
  · rw [step_eq_hostStep (.inl hb)]
    simp [hostStep, hq]
  · have hstep : step s = ({ s with hostq := rest, latency := s.latency - 1 } : State).hostAccess a := by
      rw [step_eq_hostStep (hturn.imp_right fun hl => ⟨by simp [hq], hl⟩)]
      simp [hostStep, hq]
    rw [hstep]
    exact State.hostAccess_toBlock (s := { s with hostq := rest, latency := s.latency - 1 }) ha

end Sys2Proof.Machine

/-! Encoding (30_encoding.md): what the opcode table, the decode masks and the field ranges say of a word in plain
arithmetic, the verdict on a word, and the two directions of the round trip. -/

namespace Sys2Proof

open Machine
open Laws.EncodedOpcode (opcode)

/-! ### The opcode in bits 7:0 -/

theorem Opcode.ofByte_code (op : Opcode) : Opcode.ofByte op.code = some op := by cases op <;> rfl

theorem Opcode.ofByte_eq_some_iff {b : Byte} {op : Opcode} : Opcode.ofByte b = some op ↔ b = op.code := by
  constructor
  · intro h
    apply BitVec.eq_of_toNat_eq
    unfold Opcode.ofByte at h
    split at h <;> cases h <;> assumption
  · rintro rfl
    exact op.ofByte_code

/-- The bytes that are no row's opcode are the ranges of 30_encoding.md R105 case 1. -/
theorem Opcode.ofByte_eq_none_iff : ∀ b : Byte, Opcode.ofByte b = none ↔ unknownOpcode b.toNat := by
  unfold unknownOpcode; decide

theorem Word.toNat_lowByte (w : Word) : (w.extractLsb' 0 8).toNat = w.toNat % 256 := by
  rw [BitVec.extractLsb'_toNat, Nat.shiftRight_zero]

theorem Word.toNat_mod_of_lowByte {w : Word} {op : Opcode} (h : w.extractLsb' 0 8 = op.code) :
    w.toNat % 256 = op.code.toNat := by
  rw [← w.toNat_lowByte, h]

/-- A word's opcode is in one of the rows of 30_encoding.md R104 unless R105 case 1 applies. -/
theorem exists_opcode_iff (w : Word) :
    (∃ op : Opcode, w.extractLsb' 0 8 = op.code) ↔ ¬ unknownOpcode w.toNat := by
  have hbyte : unknownOpcode (w.extractLsb' 0 8).toNat ↔ unknownOpcode w.toNat := by
    simp only [unknownOpcode, w.toNat_lowByte, Nat.mod_mod]
  rw [← hbyte, ← Opcode.ofByte_eq_none_iff, ← ne_eq, Option.ne_none_iff_exists']
  simp only [Opcode.ofByte_eq_some_iff]

/-! ### The decode masks in plain arithmetic -/

/-- `n` with bits `hi - 1` to `lo` cleared. -/
def clearBits (lo hi n : Nat) : Nat := 2 ^ hi * (n / 2 ^ hi) + n % 2 ^ lo

theorem clearBits_le {lo hi : Nat} (h : lo ≤ hi) (n : Nat) : clearBits lo hi n ≤ n := by
  have hmod : n % 2 ^ lo ≤ n % 2 ^ hi := by
    rw [← Nat.mod_mod_of_dvd n (Nat.pow_dvd_pow 2 h)]
    exact Nat.mod_le _ _
  have := Nat.div_add_mod n (2 ^ hi)
  unfold clearBits
  omega

/-- A mask with one gap clears the bits of the gap. -/
theorem land_gap {n : Nat} (hn : n < 2 ^ 32) (lo hi : Nat) (hlo : lo ≤ hi := by decide)
    (hhi : hi ≤ 32 := by decide) :
    n &&& (2 ^ 32 - 2 ^ hi + (2 ^ lo - 1)) = clearBits lo hi n := by
  have hlow : 2 ^ lo - 1 < 2 ^ hi := by
    have := Nat.pow_le_pow_right (n := 2) (by decide) hlo
    have := Nat.two_pow_pos lo
    omega
  have hmask : 2 ^ 32 - 2 ^ hi + (2 ^ lo - 1) = 2 ^ hi * (2 ^ (32 - hi) - 1) + (2 ^ lo - 1) := by
    rw [Nat.mul_sub, ← Nat.pow_add, Nat.add_sub_cancel' hhi, Nat.mul_one]
  have hquot : n / 2 ^ hi < 2 ^ (32 - hi) := by
    rw [Nat.div_lt_iff_lt_mul (Nat.two_pow_pos hi), ← Nat.pow_add, Nat.sub_add_cancel hhi]
    exact hn
  rw [hmask, ← Nat.div_add_mod (n &&& _) (2 ^ hi), Nat.and_div_two_pow, Nat.and_mod_two_pow, Nat.mul_add_mod,
    Nat.mod_eq_of_lt hlow, Nat.mul_add_div (Nat.two_pow_pos hi), Nat.div_eq_of_lt hlow, Nat.add_zero,
    Nat.and_two_pow_sub_one_of_lt_two_pow hquot, Nat.and_two_pow_sub_one_eq_mod,
    Nat.mod_mod_of_dvd _ (Nat.pow_dvd_pow 2 hlo)]
  rfl

/-- The bits of `n` that the mask of the opcode's format keeps: the operand fields of 30_encoding.md R102 cleared. -/
def Opcode.masked : Opcode → Nat → Nat
  | .bsRead, n | .bsPeek, n => clearBits 8 14 n
  | .bsSkip, n => clearBits 8 32 n
  | .hufDecode, n | .treeRead, n => clearBits 8 13 n
  | .mcCopy8, n => clearBits 8 24 n
  | .frameCopy, n => clearBits 8 9 n
  | .audIdct3, n | .audIrdft, n | .audFft, n | .audScale, n => clearBits 8 9 (clearBits 12 16 n)
  | .audOla, n => clearBits 9 10 (clearBits 12 16 n)
  | _, n => n

/-- A mask with two gaps, as the formats of the audio commands have it. -/
theorem land_gaps {n : Nat} (hn : n < 2 ^ 32) (lo hi lo' hi' : Nat) (h : lo ≤ hi := by decide)
    (hhi : hi ≤ 32 := by decide) (h' : lo' ≤ hi' := by decide) (hhi' : hi' ≤ 32 := by decide) :
    n &&& ((2 ^ 32 - 2 ^ hi' + (2 ^ lo' - 1)) &&& (2 ^ 32 - 2 ^ hi + (2 ^ lo - 1))) =
      clearBits lo hi (clearBits lo' hi' n) := by
  rw [← Nat.and_assoc, land_gap hn lo' hi' h' hhi', land_gap ((clearBits_le h' n).trans_lt hn) lo hi h hhi]

theorem Opcode.toNat_and_mask (op : Opcode) (w : Word) : (w &&& op.mask).toNat = op.masked w.toNat := by
  have hw := w.isLt
  cases op
  case bsRead | bsPeek => exact land_gap hw 8 14
  case bsSkip => exact land_gap hw 8 32
  case hufDecode | treeRead => exact land_gap hw 8 13
  case mcCopy8 => exact land_gap hw 8 24
  case frameCopy => exact land_gap hw 8 9
  case audIdct3 | audIrdft | audFft | audScale => exact land_gaps hw 8 9 12 16
  case audOla => exact land_gaps hw 9 10 12 16
  all_goals exact Nat.and_two_pow_sub_one_of_lt_two_pow hw

/-- `w & mask = match`: what the mask keeps is the opcode alone. -/
theorem Opcode.and_mask_eq_pattern_iff (op : Opcode) {w : Word} :
    w &&& op.mask = op.pattern ↔ op.masked w.toNat = op.code.toNat := by
  have hpattern : op.pattern.toNat = op.code.toNat := by cases op <;> rfl
  rw [← BitVec.toNat_inj, op.toNat_and_mask, hpattern]

section Cases

variable {op : Opcode} {w : Word} (hop : w.toNat % 256 = op.code.toNat)
include hop

/-- `w & mask = match` fails exactly in 30_encoding.md R105 case 2. -/
theorem Opcode.and_mask_eq_pattern_iff_not_reservedSet : w &&& op.mask = op.pattern ↔ ¬ reservedSet w.toNat := by
  have hw := w.isLt
  rw [op.and_mask_eq_pattern_iff]
  cases op <;> simp only [Opcode.code, BitVec.reduceToNat] at hop <;>
    simp [reservedSet, fnOpcode, hop, Opcode.masked, clearBits, Opcode.code] <;>
    omega

/-- The command read from a word is ill-formed exactly in 30_encoding.md R105 case 3. -/
theorem Opcode.wf_instr_iff_not_fieldOutOfRange : (op.instr w).wf = true ↔ ¬ fieldOutOfRange w.toNat := by
  cases op <;> simp only [Opcode.code, BitVec.reduceToNat] at hop <;>
    simp [fieldOutOfRange, hop, Opcode.instr, Instr.wf, countLegal, nbitsLegal, Nat.shiftRight_eq_div_pow,
      Nat.one_le_iff_ne_zero]

end Cases

/-! ### The fields of a word (30_encoding.md R102, R103) -/

theorem CopyDir.bit_ofBit (b : BitVec 1) : (CopyDir.ofBit b).bit = b := by revert b; decide

theorem CopyDir.ofBit_eq_iff {b : BitVec 1} {dir : CopyDir} : CopyDir.ofBit b = dir ↔ b = dir.bit := by
  revert b; cases dir <;> decide

/-- Bits 31:8 of the command's word as a number: its operand fields at their places in 30_encoding.md R102. -/
def Instr.operands : Instr → Nat
  | .bsRead n | .bsPeek n => n.toNat
  | .bsSkip k => k.toNat
  | .hufDecode t | .treeRead t => t.toNat
  | .mcCopy8 xoff yoff => xoff.toNat + 2 ^ 8 * yoff.toNat
  | .frameCopy dir => dir.bit.toNat
  | .audIdct3 ch nbits | .audIrdft ch nbits | .audFft ch nbits | .audScale ch nbits => ch.toNat + 2 ^ 4 * nbits.toNat
  | .audOla i2 nbits => 2 * i2.toNat + 2 ^ 4 * nbits.toNat
  | _ => 0

/-- A command's word is its operand fields above its opcode. -/
theorem toNat_encode (i : Instr) : (encode i).toNat = 2 ^ 8 * i.operands + (opcode i).code.toNat := by
  cases i <;> (simp only [encode, toNat_append_eq_add, BitVec.toNat_ofNat, Instr.operands, opcode]; omega)

theorem opcode_instr (op : Opcode) (w : Word) : opcode (op.instr w) = op := by cases op <;> rfl

/-- The operand fields of 30_encoding.md R103 are what the mask of the format clears: together they make up the word. -/
theorem operands_add_masked (op : Opcode) (w : Word) :
    2 ^ 8 * (op.instr w).operands + op.masked w.toNat = w.toNat := by
  have hw := w.isLt
  cases op <;>
    simp only [Opcode.instr, Instr.operands, Opcode.masked, clearBits, CopyDir.bit_ofBit, BitVec.extractLsb'_toNat,
      Nat.shiftRight_eq_div_pow] <;>
    omega

/-- A word that fits the mask of its format is the word of the fields read from it. -/
theorem encode_instr {op : Opcode} {w : Word} (h : w &&& op.mask = op.pattern) : encode (op.instr w) = w := by
  apply BitVec.eq_of_toNat_eq
  rw [toNat_encode, opcode_instr, ← op.and_mask_eq_pattern_iff.1 h, operands_add_masked]

/-- The fields read from the word of a command are the command's own. -/
theorem instr_encode (i : Instr) : (opcode i).instr (encode i) = i := by
  cases i <;>
    simp [opcode, Opcode.instr, CopyDir.ofBit_eq_iff, ← BitVec.toNat_inj, Nat.shiftRight_eq_div_pow, toNat_encode,
      Instr.operands, Opcode.code] <;>
    omega

/-- The word of every command carries its row's opcode and zeros in the reserved bits (30_encoding.md R104). -/
theorem encodedOpcode (i : Instr) : Laws.EncodedOpcode.Statement i := by
  cases i with
  | nop => exact Laws.EncodedOpcode.nop
  | bsRead n => exact Laws.EncodedOpcode.bsRead n
  | bsPeek n => exact Laws.EncodedOpcode.bsPeek n
  | bsRead1 => exact Laws.EncodedOpcode.bsRead1
  | bsSkip k => exact Laws.EncodedOpcode.bsSkip k
  | bsAlign32 => exact Laws.EncodedOpcode.bsAlign32
  | bsLeft => exact Laws.EncodedOpcode.bsLeft
  | bsSign => exact Laws.EncodedOpcode.bsSign
  | hufDecode t => exact Laws.EncodedOpcode.hufDecode t
  | treeRead t => exact Laws.EncodedOpcode.treeRead t
  | mcCopy8 xoff yoff => exact Laws.EncodedOpcode.mcCopy8 xoff yoff
  | frameCopy dir => exact Laws.EncodedOpcode.frameCopy dir
  | idctPut => exact Laws.EncodedOpcode.idctPut
  | idctAdd => exact Laws.EncodedOpcode.idctAdd
  | idctInt => exact Laws.EncodedOpcode.idctInt
  | audIdct3 ch nbits => exact Laws.EncodedOpcode.audIdct3 ch nbits
  | audIrdft ch nbits => exact Laws.EncodedOpcode.audIrdft ch nbits
  | audFft ch nbits => exact Laws.EncodedOpcode.audFft ch nbits
  | audScale ch nbits => exact Laws.EncodedOpcode.audScale ch nbits
  | audOla i2 nbits => exact Laws.EncodedOpcode.audOla i2 nbits

/-! ### The verdict on a word (30_encoding.md R105, R106) -/

/-- Under a row's opcode the verdict is left to the format's mask and the field ranges. -/
theorem decode_of_lowByte {w : Word} {op : Opcode} (h : w.extractLsb' 0 8 = op.code) : decode w =
    if w &&& op.mask = op.pattern then
      if (op.instr w).wf then .ok (op.instr w) else .error (.fieldRange w)
    else .error (.reservedBits w) := by
  simp only [decode, h, op.ofByte_code]

/-- The words with the verdict "this command". -/
theorem decode_eq_ok_iff {w : Word} {i : Instr} : decode w = .ok i ↔
    ∃ op : Opcode, w.extractLsb' 0 8 = op.code ∧ w &&& op.mask = op.pattern ∧ i.wf = true ∧ op.instr w = i := by
  constructor
  · intro h
    cases hop : Opcode.ofByte (w.extractLsb' 0 8) with
    | none => simp [decode, hop] at h
    | some op =>
      have hlow := Opcode.ofByte_eq_some_iff.1 hop
      rw [decode_of_lowByte hlow] at h
      split at h
      · split at h <;> cases h
        exact ⟨op, hlow, ‹_›, ‹_›, rfl⟩
      · cases h
  · rintro ⟨op, hlow, hmask, hwf, rfl⟩
    rw [decode_of_lowByte hlow, if_pos hmask, if_pos hwf]

/-- A legal word is one to which no case of 30_encoding.md R105 applies. -/
theorem exists_decode_eq_ok_iff (w : Word) : (∃ i, decode w = .ok i) ↔ ¬ illegalWord w.toNat := by
  simp only [illegalWord, not_or, ← exists_opcode_iff]
  constructor
  · rintro ⟨i, h⟩
    obtain ⟨op, hlow, hmask, hwf, rfl⟩ := decode_eq_ok_iff.1 h
    have hop := Word.toNat_mod_of_lowByte hlow
    exact ⟨⟨op, hlow⟩, (Opcode.and_mask_eq_pattern_iff_not_reservedSet hop).1 hmask,
      (Opcode.wf_instr_iff_not_fieldOutOfRange hop).1 hwf⟩
  · rintro ⟨⟨op, hlow⟩, hreserved, hrange⟩
    have hop := Word.toNat_mod_of_lowByte hlow
    exact ⟨op.instr w, decode_eq_ok_iff.2 ⟨op, hlow, (Opcode.and_mask_eq_pattern_iff_not_reservedSet hop).2 hreserved,
      (Opcode.wf_instr_iff_not_fieldOutOfRange hop).2 hrange, rfl⟩⟩

/-- Settles O1: the word carries the command's opcode and zeros in the reserved bits, and the fields read from it are the
command's. -/
theorem decodeOfEncode : Obligations.DecodeOfEncode := by
  unfold Obligations.DecodeOfEncode
  intro i hwf
  obtain ⟨hlow, hmask⟩ := encodedOpcode i
  exact decode_eq_ok_iff.2 ⟨_, hlow, hmask, hwf, instr_encode i⟩

/-- Settles O2: a legal word fits the mask of its format, so it is the word of the fields read from it. -/
theorem encodeOfDecode : Obligations.EncodeOfDecode := by
  unfold Obligations.EncodeOfDecode
  intro w i h
  obtain ⟨op, -, hmask, hwf, rfl⟩ := decode_eq_ok_iff.1 h
  exact ⟨hwf, encode_instr hmask⟩

/-- The engine's step on a word that is no command is the report of ILLEGAL (60_exceptions.md R300). -/
theorem engineStep_of_not_ok {s : State} (h : ∀ i, decode s.cmdl ≠ .ok i) : engineStep s = .next (s.failedWith 1) := by
  unfold engineStep
  split
  · exact absurd ‹_› (h _)
  · rfl

/-- Settles O4: no command is decoded exactly when a case of R105 applies, and the step is then the report. -/
theorem illegalWords : Obligations.IllegalWords := by
  unfold Obligations.IllegalWords
  have key : ∀ w : Word, (∀ i, decode w ≠ .ok i) ↔ illegalWord w.toNat := fun w => by
    rw [← not_exists, exists_decode_eq_ok_iff, not_not]
  exact ⟨key, fun s h => engineStep_of_not_ok ((key s.cmdl).2 h)⟩

/-- A word that is the word of a well-formed command decodes to it. -/
theorem decode_eq_ok {w : Word} (i : Instr) (hw : encode i = w) (hwf : i.wf = true) : decode w = .ok i :=
  hw ▸ decodeOfEncode i hwf

/-- The word of an ill-formed command is refused for its field out of range (30_encoding.md R105 case 3). -/
theorem decode_eq_fieldRange {w : Word} (i : Instr) (hw : encode i = w) (hwf : i.wf = false) :
    decode w = .error (.fieldRange w) := by
  subst hw
  obtain ⟨hlow, hmask⟩ := encodedOpcode i
  rw [decode_of_lowByte hlow, if_pos hmask, instr_encode, hwf]
  rfl

/-- Settles O3: each word is the word of the command listed, or of one with a field out of range. -/
theorem workedEncodings : Obligations.WorkedEncodings := by
  unfold Obligations.WorkedEncodings
  exact ⟨decode_eq_ok _ rfl rfl, decode_eq_fieldRange (.bsRead 33) rfl rfl, decode_eq_ok _ rfl rfl,
    decode_eq_ok _ rfl rfl, decode_eq_ok _ rfl rfl, decode_eq_ok _ rfl rfl, decode_eq_ok _ rfl rfl,
    decode_eq_ok _ rfl rfl, decode_eq_ok _ rfl rfl, decode_eq_fieldRange (.audFft 0 12) rfl rfl,
    decode_eq_ok _ rfl rfl, decode_eq_ok _ rfl rfl⟩

end Sys2Proof

/-! The bit-stream extractor (40_bitstream.md): what each command leaves, the bits of a field, and reading the same bits
twice. -/

namespace Sys2Proof.Machine

/-! ### The commands, each by the operations it uses -/

section Commands

variable {n : BitVec 6} (s : State)

theorem exec_bsRead_of_le (hn : n.toNat ≤ 32) : exec (.bsRead n) s =
    .next ((s.advance n.toNat).withResult (BitVec.ofNat 32 (s.peekBits n.toNat))).complete := if_pos hn

theorem exec_bsPeek_of_le (hn : n.toNat ≤ 32) :
    exec (.bsPeek n) s = .next (s.withResult (BitVec.ofNat 32 (s.peekBits n.toNat))).complete := if_pos hn

theorem exec_bsRead_of_lt (hn : 32 < n.toNat) : exec (.bsRead n) s = .next (s.raise .illegal) :=
  if_neg (Nat.not_le.2 hn)

theorem exec_bsPeek_of_lt (hn : 32 < n.toNat) : exec (.bsPeek n) s = .next (s.raise .illegal) :=
  if_neg (Nat.not_le.2 hn)

theorem exec_bsRead1 : exec .bsRead1 s =
    .next ((s.advance 1).withResult (BitVec.ofNat 32 (s.peekBits 1))).complete := rfl

theorem exec_bsSkip (k : BitVec 24) : exec (.bsSkip k) s = .next (s.advance k.toNat).complete := rfl

theorem exec_bsAlign32 : exec .bsAlign32 s =
    .next ({ s with bsPos := BitVec.ofNat 32 (min (32 * ((s.bsPos.toNat + 31) / 32)) posMax) } : State).complete := rfl

theorem exec_bsLeft : exec .bsLeft s = .next (s.withResult (BitVec.ofNat 32 s.bitsLeft)).complete := rfl

theorem exec_bsSign : exec .bsSign s =
    .next ((s.advance 1).withResult (if s.peekBits 1 = 1 then -s.arg0 else s.arg0)).complete := rfl

end Commands

/-! ### Stream bits and fields -/

section Bits

variable {s t : State} {p : Nat}

/-- Past the valid bytes a stream bit is 0 (40_bitstream.md R130). -/
theorem State.streamBit_past (h : s.bsLen.toNat ≤ p / 8) : s.streamBit p = false := if_neg (Nat.not_lt.2 h)

/-- A stream bit of a written byte is that byte's bit (40_bitstream.md R130). -/
theorem State.streamBit_held {b : Byte} (h : p / 8 < s.bsLen.toNat) (hb : s.held (bsmBase + p / 8) = some b) :
    s.streamBit p = b.getLsbD (p % 8) := by
  rw [State.streamBit, if_pos h, State.readByte, hb, Option.getD_some]

/-- Unless its byte is valid and unwritten, a stream bit depends on `BS_LEN` and the RAMs alone, not on the draw. -/
theorem State.streamBit_congr (hlen : t.bsLen = s.bsLen) (hmem : t.mem = s.mem)
    (hwritten : p / 8 < s.bsLen.toNat → ∃ b, s.held (bsmBase + p / 8) = some b) : t.streamBit p = s.streamBit p := by
  by_cases h : p / 8 < s.bsLen.toNat
  · obtain ⟨b, hb⟩ := hwritten h
    have hb' : t.held (bsmBase + p / 8) = some b := by rw [State.held, hmem]; exact hb
    rw [State.streamBit_held h hb, State.streamBit_held (hlen ▸ h) hb']
  · have hpast : s.bsLen.toNat ≤ p / 8 := Nat.not_lt.1 h
    rw [State.streamBit_past hpast, State.streamBit_past (hlen ▸ hpast)]

/-- Two states that agree on the bits of a field agree on the field. -/
theorem State.bitsFrom_congr {n : Nat} (h : ∀ i, i < n → t.streamBit (p + i) = s.streamBit (p + i)) :
    t.bitsFrom p n = s.bitsFrom p n := by
  refine Nat.eq_of_testBit_eq fun i => ?_
  rw [State.testBit_bitsFrom, State.testBit_bitsFrom]
  by_cases hi : i < n
  · rw [h i hi]
  · simp [hi]

/-- The bits of RESULT after a read or a peek of `n` bits (40_bitstream.md R131). -/
theorem State.getLsbD_peekBits (s : State) (n : Nat) {i : Nat} (hi : i < 32) :
    (BitVec.ofNat 32 (s.peekBits n)).getLsbD i = (decide (i < n) && s.streamBit (s.bsPos.toNat + i)) := by
  rw [BitVec.getLsbD_ofNat, decide_eq_true hi, Bool.true_and, State.peekBits, State.testBit_bitsFrom]

theorem State.peekBits_one (s : State) : s.peekBits 1 = (s.streamBit s.bsPos.toNat).toNat := s.bitsFrom_one _

end Bits

/-! ### The commands' results -/

/-- Settles O18: the operations' results bit by bit and R130's cases of a stream bit. -/
theorem bsReadAndPeekResults : Obligations.BsReadAndPeekResults := by
  unfold Obligations.BsReadAndPeekResults
  refine fun n s => ⟨fun hn => ?_, fun hn => ⟨exec_bsRead_of_lt s hn, exec_bsPeek_of_lt s hn⟩, fun p =>
    ⟨State.streamBit_past, fun b => State.streamBit_held⟩⟩
  exact ⟨_, (s.advance n.toNat).bsPos, fun i hi => s.getLsbD_peekBits n.toNat hi, s.advance_toNat n.toNat,
    exec_bsRead_of_le s hn, exec_bsPeek_of_le s hn⟩

/-- Settles O20: the multiple is the one at `⌈BS_POS / 32⌉`. -/
theorem bsAlignResult : Obligations.BsAlignResult := by
  unfold Obligations.BsAlignResult
  refine fun s => ⟨_, (s.bsPos.toNat + 31) / 32, by omega, by omega, ?_, exec_bsAlign32 s⟩
  rw [BitVec.toNat_ofNat, posMax]
  omega

/-! What a command that ends with a value in RESULT leaves when no soft reset is pending. -/

theorem State.result_complete_withResult {s : State} (hp : s.srstPend = false) (v : Word) :
    (s.withResult v).complete.result = v := State.complete_result (s := s.withResult v) hp

theorem State.bsPos_complete_withResult {s : State} (hp : s.srstPend = false) (v : Word) :
    (s.withResult v).complete.bsPos = s.bsPos := State.complete_bsPos (s := s.withResult v) hp

/-- A peek leaves all that the bits of written bytes depend on, so the same peek after it gives the same number
(40_bitstream.md R147). -/
theorem State.peekBits_complete_withResult {s : State} (hp : s.srstPend = false) (v : Word) {n : Nat}
    (hwritten : ∀ b, b < s.bsLen.toNat → s.bsPos.toNat < 8 * b + 8 → 8 * b < s.bsPos.toNat + n →
      ∃ x, s.held (bsmBase + b) = some x) : (s.withResult v).complete.peekBits n = s.peekBits n := by
  have hlen : (s.withResult v).complete.bsLen = s.bsLen := State.complete_bsLen (s := s.withResult v) hp
  have hmem : (s.withResult v).complete.mem = s.mem := State.complete_mem _
  rw [State.peekBits, State.peekBits, State.bsPos_complete_withResult hp]
  refine State.bitsFrom_congr fun i hi => State.streamBit_congr hlen hmem fun hb => ?_
  exact hwritten _ hb (by omega) (by omega)

/-- Settles O22: the read takes the peek's number again, and advances from the same position. -/
theorem peekThenReadAgree : Obligations.PeekThenReadAgree := by
  unfold Obligations.PeekThenReadAgree
  intro n s t u hn hp hwritten ht hu
  rw [exec_bsPeek_of_le s hn] at ht
  obtain rfl := Host.Outcome.next.inj ht
  rw [exec_bsRead_of_le _ hn, State.peekBits_complete_withResult hp _ hwritten] at hu
  obtain rfl := Host.Outcome.next.inj hu
  have hread : ((s.withResult (BitVec.ofNat 32 (s.peekBits n.toNat))).complete.advance n.toNat).srstPend = false :=
    State.complete_srstPend _
  constructor
  · rw [State.result_complete_withResult hread, State.result_complete_withResult hp]
  · rw [State.bsPos_complete_withResult hread, State.advance_toNat, State.bsPos_complete_withResult hp]
    rfl

/-- With a legal `BS_LEN` the count of bits left fits in RESULT (40_bitstream.md R134). -/
theorem State.LengthsLegal.bitsLeft_toNat {s : State} (h : s.LengthsLegal) :
    ((BitVec.ofNat 32 s.bitsLeft).toNat : Int) = max 0 (8 * (s.bsLen.toNat : Int) - s.bsPos.toNat) := by
  have hend := h.stream_end
  rw [BitVec.toNat_ofNat, State.bitsLeft]
  omega

/-- Settles O19: one bit as a number, the advances, and the bits left. -/
theorem bsReadOneSkipLeftResults : Obligations.BsReadOneSkipLeftResults := by
  unfold Obligations.BsReadOneSkipLeftResults
  refine fun s => ⟨⟨_, s.advance_toNat 1, ?_⟩, fun k => ⟨_, s.advance_toNat k.toNat, exec_bsSkip s k⟩,
    fun hl => ⟨_, hl.bitsLeft_toNat, exec_bsLeft s⟩⟩
  rw [exec_bsRead1, s.peekBits_one]
  cases s.streamBit s.bsPos.toNat <;> rfl

/-- Settles O21: the bit is 1 exactly when the number read is, and the negation is the word's own. -/
theorem bsSignResult : Obligations.BsSignResult := by
  unfold Obligations.BsSignResult
  refine fun s => ⟨_, _, exec_bsSign s, ?_, s.advance_toNat 1⟩
  rw [s.peekBits_one]
  cases s.streamBit s.bsPos.toNat
  · rfl
  · exact BitVec.toNat_neg s.arg0

end Sys2Proof.Machine

/-! Huffman decoding (41_huffman.md): the code tables that are legal, the symbol that a peeked value matches, and the
complete tables, on which every value matches. -/

namespace Sys2Proof.Machine

/-! ### Legal code tables (41_huffman.md R161) -/

/-- One table meets the three items of 41_huffman.md R161. -/
def tableLegal (tb : CodeTable) : Prop :=
  ∀ a : Fin 16, 1 ≤ tb[a].len ∧ tb[a].len ≤ maxLen tb ∧ maxLen tb ≤ 16 ∧ tb[a].code < 2 ^ tb[a].len ∧
    ∀ b : Fin 16, a ≠ b → tb[a].len ≤ tb[b].len → tb[b].code % 2 ^ tb[a].len ≠ tb[a].code

theorem codeTablesLegal_iff (ts : CodeTables) : codeTablesLegal ts ↔ ∀ tb : Fin 16, tableLegal ts[tb] := Iff.rfl

theorem tableWf_iff (tb : CodeTable) : tableWf tb = true ↔ tableLegal tb := by
  simp only [tableWf, tableLegal, Bool.and_eq_true, decide_eq_true_eq, List.all_eq_true, List.mem_finRange,
    forall_const, and_imp]
  constructor
  · rintro ⟨hmax, h⟩ a
    obtain ⟨⟨hpos, hle, hcode⟩, hfree⟩ := h a
    exact ⟨hpos, hle, hmax, hcode, hfree⟩
  · intro h
    obtain ⟨-, -, hmax, -⟩ := h 0
    refine ⟨hmax, fun a => ?_⟩
    obtain ⟨hpos, hle, -, hcode, hfree⟩ := h a
    exact ⟨⟨hpos, hle, hcode⟩, hfree⟩

theorem tablesWf_iff (ts : CodeTables) : tablesWf ts = true ↔ codeTablesLegal ts := by
  simp only [tablesWf, codeTablesLegal_iff, List.all_eq_true, List.mem_finRange, forall_const, tableWf_iff]

/-- Under well-formed tables the table that a tree names is legal, whatever its `TABLE` holds. -/
theorem State.tableLegal_codeTable {s : State} (hw : tablesWf s.params.huff = true) (t : BitVec 5) :
    tableLegal (s.codeTable t) :=
  (tablesWf_iff _).1 hw ⟨(s.tree t).table.toNat, (s.tree t).table.isLt⟩

/-! ### The symbol that a value matches (41_huffman.md R163) -/

section Lookup

variable {tb : CodeTable} {p : Nat}

/-- As no code begins another, at most one symbol matches. -/
theorem tableLegal.codeMatches_unique (h : tableLegal tb) {a b : Fin 16} (ha : codeMatches tb[a] p)
    (hb : codeMatches tb[b] p) : a = b := by
  wlog hle : tb[a].len ≤ tb[b].len generalizing a b
  · exact (this hb ha (by omega)).symm
  by_contra hne
  obtain ⟨-, -, -, -, hfree⟩ := h a
  refine hfree b hne hle ?_
  rw [← show p % 2 ^ tb[b].len = tb[b].code from hb, Nat.mod_mod_of_dvd _ (Nat.pow_dvd_pow 2 hle)]
  exact ha

theorem lookup_eq_none_iff : lookup tb p = none ↔ ∀ a : Fin 16, ¬ codeMatches tb[a] p := by
  unfold lookup
  split
  · rename_i a ha
    simpa using ⟨a, by simpa using List.find?_some ha⟩
  · rename_i hnone
    simpa using hnone

theorem tableLegal.lookup_of_codeMatches (h : tableLegal tb) {a : Fin 16} (ha : codeMatches tb[a] p) :
    lookup tb p = some (a, tb[a].len) := by
  unfold lookup
  split
  · rename_i b hb
    rw [h.codeMatches_unique ha (by simpa using List.find?_some hb)]
  · rename_i hnone
    exact absurd ha (by simpa using List.find?_eq_none.1 hnone a (List.mem_finRange a))

end Lookup

/-- A code matches the peeked bits exactly when it agrees with the stream bit by bit, bit 0 first. -/
theorem State.codeMatches_peekBits_iff (s : State) {e : CodeEntry} {n : Nat} (hcode : e.code < 2 ^ e.len)
    (hn : e.len ≤ n) : codeMatches e (s.peekBits n) ↔
      ∀ j, j < e.len → e.code.testBit j = s.streamBit (s.bsPos.toNat + j) := by
  have hbit : ∀ j, (s.peekBits n % 2 ^ e.len).testBit j =
      (decide (j < e.len) && s.streamBit (s.bsPos.toNat + j)) := fun j => by
    rw [Nat.testBit_mod_two_pow, State.peekBits, State.testBit_bitsFrom]
    by_cases hj : j < e.len
    · simp [hj, hj.trans_le hn]
    · simp [hj]
  constructor
  · intro h j hj
    rw [← h, hbit, decide_eq_true hj, Bool.true_and]
  · refine fun h => Nat.eq_of_testBit_eq fun j => ?_
    rw [hbit]
    by_cases hj : j < e.len
    · rw [h j hj, decide_eq_true hj, Bool.true_and]
    · have hlt : e.code < 2 ^ j := hcode.trans_le (Nat.pow_le_pow_right (by omega) (by omega))
      rw [Nat.testBit_lt_two_pow hlt, decide_eq_false hj, Bool.false_and]

/-- A symbol of the tree's table matches what HUF_DECODE peeks when its code is the next stream bits. -/
theorem State.codeMatches_codeTable_iff {s : State} (hw : tablesWf s.params.huff = true) (t : BitVec 5) (a : Fin 16) :
    codeMatches (s.codeTable t)[a] (s.peekBits (maxLen (s.codeTable t))) ↔
      ∀ j, j < (s.codeTable t)[a].len → (s.codeTable t)[a].code.testBit j = s.streamBit (s.bsPos.toNat + j) := by
  obtain ⟨-, hle, -, hcode, -⟩ := State.tableLegal_codeTable hw t a
  exact s.codeMatches_peekBits_iff hcode hle

/-! ### HUF_DECODE (41_huffman.md R170) -/

section HufDecode

variable {s : State} {t : BitVec 5}

theorem exec_hufDecode_of_not_wf (hw : ¬ tablesWf s.params.huff = true) :
    exec (.hufDecode t) s = .refused .illFormedCodeTables := if_neg hw

theorem exec_hufDecode_of_codeMatches (hw : tablesWf s.params.huff = true) {a : Fin 16}
    (ha : codeMatches (s.codeTable t)[a] (s.peekBits (maxLen (s.codeTable t)))) : exec (.hufDecode t) s =
      .next ((s.advance (s.codeTable t)[a].len).withResult ((s.tree t).map[a].setWidth 32)).complete := by
  simp only [exec, execHufDecode, if_pos hw, (State.tableLegal_codeTable hw t).lookup_of_codeMatches ha]
  rfl

theorem exec_hufDecode_of_not_codeMatches (hw : tablesWf s.params.huff = true)
    (h : ∀ a : Fin 16, ¬ codeMatches (s.codeTable t)[a] (s.peekBits (maxLen (s.codeTable t)))) :
    exec (.hufDecode t) s = .next (s.raise .hufNoMatch) := by
  simp only [exec, execHufDecode, if_pos hw, lookup_eq_none_iff.2 h]

/-- Under well-formed tables HUF_DECODE always completes, with a symbol or with HUF_NOMATCH. -/
theorem exists_exec_hufDecode (hw : tablesWf s.params.huff = true) : ∃ u, exec (.hufDecode t) s = .next u := by
  by_cases h : ∃ a : Fin 16, codeMatches (s.codeTable t)[a] (s.peekBits (maxLen (s.codeTable t)))
  · obtain ⟨a, ha⟩ := h
    exact ⟨_, exec_hufDecode_of_codeMatches hw ha⟩
  · exact ⟨_, exec_hufDecode_of_not_codeMatches hw (not_exists.1 h)⟩

end HufDecode

/-- Settles O23: agreement bit by bit is the match relation, and at most one symbol matches. -/
theorem hufDecodeResult : Obligations.HufDecodeResult := by
  unfold Obligations.HufDecodeResult
  refine fun t s hw => ⟨fun a ha => ?_, fun h => ?_⟩
  · exact ⟨_, s.advance_toNat _,
      exec_hufDecode_of_codeMatches hw ((State.codeMatches_codeTable_iff hw t a).2 ha)⟩
  · refine exec_hufDecode_of_not_codeMatches hw fun a ha => ?_
    obtain ⟨j, hj, hne⟩ := h a
    exact hne ((State.codeMatches_codeTable_iff hw t a).1 ha j hj)

/-- Settles O24: the model's check is the three items, and HUF_DECODE is refused exactly when it fails. -/
theorem illFormedTablesAreRefused : Obligations.IllFormedTablesAreRefused := by
  unfold Obligations.IllFormedTablesAreRefused
  refine fun t s => ⟨fun h => ?_, fun h => ?_, tablesWf_iff _⟩
  · exact exec_hufDecode_of_not_wf (mt (tablesWf_iff _).1 h)
  · exact exists_exec_hufDecode ((tablesWf_iff _).2 h)

/-! ### Complete tables (41_huffman.md R164) -/

/-- The 16-bit numbers that a code matches. -/
def matchSet (e : CodeEntry) : Finset Nat := (Finset.range (2 ^ 16)).filter fun p => codeMatches e p

theorem mem_matchSet {e : CodeEntry} {p : Nat} : p ∈ matchSet e ↔ p < 2 ^ 16 ∧ codeMatches e p := by
  simp [matchSet]

/-- A code of `n` bits matches one in `2^n` of the 16-bit numbers. -/
theorem card_matchSet {e : CodeEntry} (hlen : e.len ≤ 16) (hcode : e.code < 2 ^ e.len) :
    (matchSet e).card = 2 ^ (16 - e.len) := by
  have hmod : ∀ p, codeMatches e p ↔ p ≡ e.code [MOD 2 ^ e.len] := fun p => by
    rw [Nat.ModEq, Nat.mod_eq_of_lt hcode]
  have hdvd : 2 ^ 16 % 2 ^ e.len = 0 := Nat.mod_eq_zero_of_dvd (Nat.pow_dvd_pow 2 hlen)
  have hdiv : 2 ^ 16 / 2 ^ e.len = 2 ^ (16 - e.len) := Nat.pow_div hlen (by omega)
  simp only [matchSet, hmod]
  rw [← Nat.count_eq_card_filter_range, Nat.count_modEq_card _ (Nat.two_pow_pos _), hdvd, hdiv,
    if_neg (Nat.not_lt_zero _), Nat.add_zero]

section Complete

variable {tb : CodeTable}

theorem tableLegal.pairwiseDisjoint_matchSet (h : tableLegal tb) :
    (↑(Finset.univ : Finset (Fin 16)) : Set (Fin 16)).PairwiseDisjoint fun a => matchSet tb[a] := by
  refine fun a _ b _ hne => Finset.disjoint_left.2 fun p ha hb => hne ?_
  exact h.codeMatches_unique (mem_matchSet.1 ha).2 (mem_matchSet.1 hb).2

/-- The Kraft sum counts the 16-bit numbers that some symbol matches. -/
theorem tableLegal.kraftSum_eq (h : tableLegal tb) :
    ((List.finRange 16).map fun a => (2 : Rat)⁻¹ ^ tb[a].len).sum =
      ((Finset.univ.biUnion fun a : Fin 16 => matchSet tb[a]).card : Rat) / 2 ^ 16 := by
  rw [Finset.card_biUnion h.pairwiseDisjoint_matchSet, ← Fin.sum_univ_def, Nat.cast_sum, Finset.sum_div]
  refine Finset.sum_congr rfl fun a _ => ?_
  obtain ⟨-, hle, hmax, hcode, -⟩ := h a
  have hlen : tb[a].len ≤ 16 := hle.trans hmax
  rw [card_matchSet hlen hcode, Nat.cast_pow, Nat.cast_ofNat, pow_sub₀ _ two_ne_zero hlen, inv_pow]
  field_simp

/-- On a complete table the codes match all 16-bit numbers: their match sets are disjoint, and together as many. -/
theorem tableLegal.exists_codeMatches (h : tableLegal tb)
    (hkraft : ((List.finRange 16).map fun a => (2 : Rat)⁻¹ ^ tb[a].len).sum = 1) {p : Nat} (hp : p < 2 ^ 16) :
    ∃ a : Fin 16, codeMatches tb[a] p := by
  have hcard : (Finset.univ.biUnion fun a : Fin 16 => matchSet tb[a]).card = 2 ^ 16 := by
    rw [h.kraftSum_eq, div_eq_one_iff_eq (by norm_num)] at hkraft
    exact_mod_cast hkraft
  have hall : (Finset.univ.biUnion fun a : Fin 16 => matchSet tb[a]) = Finset.range (2 ^ 16) := by
    refine Finset.eq_of_subset_of_card_le ?_ (by rw [hcard, Finset.card_range])
    exact Finset.biUnion_subset.2 fun a _ => Finset.filter_subset _ _
  have hmem := hall ▸ Finset.mem_range.2 hp
  obtain ⟨a, -, ha⟩ := Finset.mem_biUnion.1 hmem
  exact ⟨a, (mem_matchSet.1 ha).2⟩

end Complete

/-- Settles O25: the number peeked is one of the 16-bit numbers, so a symbol matches, and its completion leaves ERR. -/
theorem completeTableAlwaysMatches : Obligations.CompleteTableAlwaysMatches := by
  unfold Obligations.CompleteTableAlwaysMatches
  intro t s u hw he hp hkraft hu
  have hlegal := State.tableLegal_codeTable hw t
  obtain ⟨-, -, hmax, -⟩ := hlegal 0
  have hpeek : s.peekBits (maxLen (s.codeTable t)) < 2 ^ 16 :=
    (s.bitsFrom_lt _ _).trans_le (Nat.pow_le_pow_right (by omega) hmax)
  obtain ⟨a, ha⟩ := hlegal.exists_codeMatches hkraft hpeek
  rw [exec_hufDecode_of_codeMatches hw ha] at hu
  obtain rfl := Host.Outcome.next.inj hu
  exact (State.complete_err (s := (s.advance _).withResult _) hp).trans he

end Sys2Proof.Machine

/-! Reading a tree (41_huffman.md): what a merge takes and from where, the passes of shuffle mode, the map of order mode,
and what TREE_READ leaves. -/

namespace Sys2Proof.Machine

/-! ### Merges (41_huffman.md R174) -/

theorem merge_sublist (fuel : Nat) (as bs : List (BitVec 4)) (s : State) :
    as.Sublist (merge fuel as bs s).1 ∧ bs.Sublist (merge fuel as bs s).1 := by
  have hrest : ∀ as bs : List (BitVec 4), as.Sublist (as ++ bs) ∧ bs.Sublist (as ++ bs) := fun as bs =>
    ⟨List.sublist_append_left as bs, List.sublist_append_right as bs⟩
  induction fuel generalizing as bs s with
  | zero => exact hrest as bs
  | succ fuel ih =>
    cases as with
    | nil => exact hrest [] bs
    | cons a as =>
      cases bs with
      | nil => exact hrest (a :: as) []
      | cons b bs =>
        simp only [merge]
        split
        · obtain ⟨ha, hb⟩ := ih as (b :: bs) (s.readBits 1).2
          exact ⟨ha.cons_cons a, hb.cons a⟩
        · obtain ⟨ha, hb⟩ := ih (a :: as) bs (s.readBits 1).2
          exact ⟨ha.cons b, hb.cons_cons b⟩

/-- `out` is the merge of `as` and `bs` along the `n` stream bits from position `p`: as long as bits are read neither
block is exhausted and each bit names the block of its output; then one block is exhausted and the rest follows. -/
structure State.MergedAlong (s : State) (p n : Nat) (as bs out : List (BitVec 4)) : Prop where
  live : ∀ k, k < n → s.zerosFrom p k < as.length ∧ k - s.zerosFrom p k < bs.length
  output : ∀ k, k < n → out[k]? =
    if s.streamBit (p + k) then bs[k - s.zerosFrom p k]? else as[s.zerosFrom p k]?
  ended : s.zerosFrom p n = as.length ∨ n - s.zerosFrom p n = bs.length
  rest : out.drop n = as.drop (s.zerosFrom p n) ++ bs.drop (n - s.zerosFrom p n)

section MergedAlong

variable {s : State} {p n : Nat} {a b : BitVec 4} {as bs out : List (BitVec 4)}

/-- With a block exhausted no bit is read. -/
theorem State.MergedAlong.of_ended (h : as = [] ∨ bs = []) : s.MergedAlong p 0 as bs (as ++ bs) where
  live := nofun
  output := nofun
  ended := h.imp (fun h => by simp [h]) (fun h => by simp [h])
  rest := by simp

/-- A bit 0 takes the next entry of the first block. -/
theorem State.MergedAlong.cons_first (hbit : s.streamBit p = false) (hb : bs ≠ [])
    (h : s.MergedAlong (p + 1) n as bs out) : s.MergedAlong p (n + 1) (a :: as) bs (a :: out) := by
  have hz : ∀ k, s.zerosFrom p (k + 1) = s.zerosFrom (p + 1) k + 1 := fun k => by
    rw [State.zerosFrom_succ, hbit, if_neg Bool.false_ne_true, Nat.add_comm]
  refine ⟨fun k hk => ?_, fun k hk => ?_, ?_, ?_⟩
  · cases k with
    | zero => simpa using List.length_pos_iff.2 hb
    | succ k => simpa [hz] using h.live k (by omega)
  · cases k with
    | zero => simp [hbit]
    | succ k => simpa [hz, Nat.add_right_comm p 1 k, ← Nat.add_assoc] using h.output k (by omega)
  · simpa [hz] using h.ended
  · simpa [hz] using h.rest

/-- A bit 1 takes the next entry of the second block. -/
theorem State.MergedAlong.cons_second (hbit : s.streamBit p = true) (ha : as ≠ [])
    (h : s.MergedAlong (p + 1) n as bs out) : s.MergedAlong p (n + 1) as (b :: bs) (b :: out) := by
  have hz : ∀ k, s.zerosFrom p (k + 1) = s.zerosFrom (p + 1) k := fun k => by
    rw [State.zerosFrom_succ, hbit, if_pos rfl, Nat.zero_add]
  have hones : ∀ k, k + 1 - s.zerosFrom (p + 1) k = k - s.zerosFrom (p + 1) k + 1 := fun k =>
    Nat.succ_sub (s.zerosFrom_le _ k)
  refine ⟨fun k hk => ?_, fun k hk => ?_, ?_, ?_⟩
  · cases k with
    | zero => simpa using List.length_pos_iff.2 ha
    | succ k => simpa [hz, hones] using h.live k (by omega)
  · cases k with
    | zero => simp [hbit]
    | succ k => simpa [hz, hones, Nat.add_right_comm p 1 k, ← Nat.add_assoc] using h.output k (by omega)
  · simpa [hz, hones] using h.ended
  · simpa [hz, hones] using h.rest

/-- Two blocks of `size` entries take between `size` and `2·size − 1` bits. -/
theorem State.MergedAlong.bounds (h : s.MergedAlong p n as bs out) {size : Nat} (hs : 1 ≤ size) (ha : as.length = size)
    (hb : bs.length = size) : size ≤ n ∧ n ≤ 2 * size - 1 := by
  have hz := s.zerosFrom_le p n
  have hend := h.ended
  obtain ⟨hza, hzb⟩ := h.live (n - 1) (by omega)
  omega

end MergedAlong

/-- With a legal `BS_LEN` a merge that starts `m` bits on reads some `n` bits and follows them. -/
theorem merge_mergedAlong {s : State} (h : s.LengthsLegal) (fuel m : Nat) (as bs : List (BitVec 4))
    (hf : as.length + bs.length ≤ fuel) :
    ∃ n, (merge fuel as bs (s.advance m)).2 = s.advance (m + n) ∧
      s.MergedAlong (s.bsPos.toNat + m) n as bs (merge fuel as bs (s.advance m)).1 := by
  induction fuel generalizing m as bs with
  | zero => exact ⟨0, rfl, .of_ended (.inl (List.length_eq_zero_iff.1 (by omega)))⟩
  | succ fuel ih =>
    cases as with
    | nil => exact ⟨0, by simp [merge], by simpa [merge] using .of_ended (.inl rfl)⟩
    | cons a as =>
      cases bs with
      | nil => exact ⟨0, by simp [merge], by
        simpa [merge] using State.MergedAlong.of_ended (s := s) (as := a :: as) (.inr rfl)⟩
      | cons b bs =>
        rw [merge_cons h]
        simp only [List.length_cons] at hf
        cases hbit : s.streamBit (s.bsPos.toNat + m) with
        | false =>
          obtain ⟨n, hstate, hmerged⟩ := ih (m + 1) as (b :: bs) (by simp only [List.length_cons]; omega)
          exact ⟨n + 1, hstate.trans (congrArg s.advance (by omega)), hmerged.cons_first hbit (List.cons_ne_nil b bs)⟩
        | true =>
          obtain ⟨n, hstate, hmerged⟩ := ih (m + 1) (a :: as) bs (by simp only [List.length_cons]; omega)
          exact ⟨n + 1, hstate.trans (congrArg s.advance (by omega)), hmerged.cons_second hbit (List.cons_ne_nil a as)⟩

/-- Settles O29: the order and the loss-free merge from every state, the bits read from every state by `merge_advance`,
and what each bit takes from `merge_mergedAlong` when BS_LEN is legal. -/
theorem mergeKeepsOrder : Obligations.MergeKeepsOrder := by
  unfold Obligations.MergeKeepsOrder
  intro size as bs s hs ha hb
  obtain ⟨hsubA, hsubB⟩ := merge_sublist (2 * size) as bs s
  refine ⟨merge_perm _ _ _ _, hsubA, hsubB, ?_⟩
  by_cases hl : s.LengthsLegal
  · obtain ⟨n, hstate, hmerged⟩ := merge_mergedAlong hl (2 * size) 0 as bs (by omega)
    rw [State.advance_zero, Nat.zero_add] at hstate
    rw [State.advance_zero, Nat.add_zero] at hmerged
    obtain ⟨hlo, hhi⟩ := hmerged.bounds hs ha hb
    refine ⟨n, (s.advance n).bsPos, hlo, hhi, s.advance_toNat n, hstate, fun _ => ⟨fun k hk => ?_, ?_, hmerged.rest⟩⟩
    · obtain ⟨hza, hzb⟩ := hmerged.live k hk
      exact ⟨hza.trans_eq ha, hzb.trans_eq hb, hmerged.output k hk⟩
    · exact hmerged.ended.imp (·.trans ha) (·.trans hb)
  · obtain ⟨n, hbounds, -, hstate⟩ := merge_advance (2 * size) as bs s (by omega)
    have hne := hbounds (List.ne_nil_of_length_pos (by omega)) (List.ne_nil_of_length_pos (by omega))
    exact ⟨n, (s.advance n).bsPos, by omega, by omega, s.advance_toNat n, hstate, fun h => absurd h hl⟩

/-! ### Symbol maps -/

section Maps

variable {m : List (BitVec 4)} {i : Nat}

theorem toList_toMap (h : m.length = 16) : (toMap m).toList = m := by
  have hrange : (toMap m).toList = (List.range 16).map (m.getD · 0) := rfl
  rw [hrange]
  exact List.ext_getElem (by simp [h]) (by simp +contextual)

theorem getElem_toMap (h : m.length = 16) (hi : i < 16) : (toMap m)[i] = m[i] := by
  rw [← Vector.getElem_toList (by simpa using hi)]
  simp only [toList_toMap h]

theorem nibbles_eq : (List.range 16).map (BitVec.ofNat 4) = nibbles := rfl

theorem mem_nibbles : ∀ v : BitVec 4, v ∈ nibbles := by decide

theorem nibbles_sorted : nibbles.Pairwise (· < ·) := by decide

theorem nibbles_nodup : nibbles.Nodup := by decide

/-- In a permutation of 0 to 15 every value stands at exactly one place. -/
theorem exists_unique_place {m : Vector (BitVec 4) 16} (h : m.toList.Perm nibbles) (v : BitVec 4) :
    ∃ i : Fin 16, m[i] = v ∧ ∀ j : Fin 16, m[j] = v → j = i := by
  obtain ⟨i, hi, hv⟩ := List.mem_iff_getElem.1 (h.mem_iff.2 (mem_nibbles v))
  refine ⟨⟨i, by simpa using hi⟩, by simpa using hv, fun j hj => Fin.ext ?_⟩
  have hnodup := h.nodup_iff.2 nibbles_nodup
  exact (hnodup.getElem_inj_iff (hi := by simp) (hj := hi)).1 (by simpa [hv] using hj)

end Maps

/-! ### The passes of shuffle mode (41_huffman.md R173) -/

/-- Merge the pair of blocks of `size` entries of `l` at base `j · 2·size` after what `out` holds: one turn of the inner
loop of 41_huffman.md R173. -/
def mergePair (size : Nat) (l : List (BitVec 4)) (out : List (BitVec 4) × State) (j : Nat) : List (BitVec 4) × State :=
  let base := j * (2 * size)
  let m := merge (2 * size) ((l.drop base).take size) ((l.drop (base + size)).take size) out.2
  (out.1 ++ m.1, m.2)

theorem shufflePass_eq_foldl (x : List (BitVec 4) × State) (d : Nat) :
    shufflePass x d = (List.range (8 / 2 ^ d)).foldl (mergePair (2 ^ d) x.1) ([], x.2) := rfl

/-- The pair after the first is the first pair of the blocks that remain. -/
theorem mergePair_succ (size : Nat) (l : List (BitVec 4)) (out : List (BitVec 4) × State) (j : Nat) :
    mergePair size l out (j + 1) = mergePair size (l.drop (2 * size)) out j := by
  have hbase : (j + 1) * (2 * size) = 2 * size + j * (2 * size) := by rw [Nat.succ_mul, Nat.add_comm]
  simp only [mergePair, List.drop_drop, hbase, Nat.add_assoc]

/-- The pairs of a pass in order, after what `out` holds, are the model's pass. -/
theorem foldl_mergePair (size blocks : Nat) (l : List (BitVec 4)) (hl : l.length = 2 * size * blocks)
    (out : List (BitVec 4) × State) :
    (List.range blocks).foldl (mergePair size l) out =
      (out.1 ++ (mergePass size blocks l out.2).1, (mergePass size blocks l out.2).2) := by
  induction blocks generalizing l out with
  | zero =>
    obtain rfl : l = [] := List.length_eq_zero_iff.1 hl
    simp [mergePass]
  | succ blocks ih =>
    rw [Nat.mul_succ] at hl
    have hnext : (fun out j => mergePair size l out (j + 1)) = mergePair size (l.drop (2 * size)) := by
      funext out j
      exact mergePair_succ size l out j
    rw [List.range_succ_eq_map, List.foldl_cons, List.foldl_map, hnext, ih _ (by rw [List.length_drop]; omega)]
    simp [mergePair, mergePass]

section Passes

variable {d : Nat} {l : List (BitVec 4)}

/-- The blocks of a pass cover the sixteen entries. -/
theorem blocks_cover (hd : d < 4) : 2 * 2 ^ d * (8 / 2 ^ d) = 16 := by
  revert d
  decide

theorem shufflePass_eq_mergePass (hd : d < 4) (hl : l.length = 16) (s : State) :
    shufflePass (l, s) d = mergePass (2 ^ d) (8 / 2 ^ d) l s := by
  rw [shufflePass_eq_foldl, foldl_mergePair _ _ _ (hl.trans (blocks_cover hd).symm), List.nil_append]

theorem length_mergePass (hd : d < 4) (hl : l.length = 16) (s : State) :
    (mergePass (2 ^ d) (8 / 2 ^ d) l s).1.length = 16 := by
  obtain ⟨hperm, -⟩ := mergePass_spec (2 ^ d) (8 / 2 ^ d) l s Nat.one_le_two_pow (by rw [blocks_cover hd, hl])
  exact hperm.length_eq.trans hl

theorem mergePasses_eq_foldl (n : Nat) (hd : d + n ≤ 4) (hl : l.length = 16) (s : State) :
    mergePasses n d l s = (List.range' d n).foldl shufflePass (l, s) := by
  induction n generalizing d l s with
  | zero => rfl
  | succ n ih =>
    rw [List.range'_succ, List.foldl_cons, shufflePass_eq_mergePass (by omega) hl, mergePasses]
    exact ih (by omega) (length_mergePass (by omega) hl s) _

end Passes

/-- Shuffle mode 5 bits into a tree: the 2 bits of `depth`, then the passes 0 to `depth` over the identity. -/
theorem shuffleMode_eq_foldl {s : State} (hl : s.LengthsLegal) :
    shuffleMode (s.advance 5) = (List.range (s.bitsFrom (s.bsPos.toNat + 5) 2 + 1)).foldl shufflePass
      ((List.range 16).map (BitVec.ofNat 4), s.advance 7) := by
  have hdepth := s.bitsFrom_lt (s.bsPos.toNat + 5) 2
  simp only [shuffleMode, State.readBits_fst, State.readBits_snd, State.peekBits_advance hl, State.advance_advance]
  rw [mergePasses_eq_foldl _ (by omega) rfl, nibbles_eq, List.range_eq_range']

/-! ### The map of order mode (41_huffman.md R172) -/

/-- The values that are not among the symbols read, in ascending order. -/
def absent (syms : List (BitVec 4)) : List (BitVec 4) := nibbles.filter fun v => !syms.contains v

section Order

variable {syms : List (BitVec 4)} {i : Nat}

theorem orderMap_eq (syms : List (BitVec 4)) : orderMap syms = (syms ++ absent syms).take 16 := rfl

theorem mem_absent {v : BitVec 4} : v ∈ absent syms ↔ v ∉ syms := by simp [absent, mem_nibbles]

theorem absent_sorted (syms : List (BitVec 4)) : (absent syms).Pairwise (· < ·) := nibbles_sorted.filter _

/-- Each symbol read takes at most one value away, so the map is always filled. -/
theorem length_add_length_absent (syms : List (BitVec 4)) : 16 ≤ syms.length + (absent syms).length := by
  have hsplit := List.length_eq_length_filter_add (l := nibbles) fun v => syms.contains v
  have hle : (nibbles.filter fun v => syms.contains v).length ≤ syms.length :=
    List.Nodup.length_le_of_subset (nibbles_nodup.filter _) fun v hv => by simpa using (List.mem_filter.1 hv).2
  have h16 : nibbles.length = 16 := rfl
  unfold absent
  omega

theorem length_orderMap (syms : List (BitVec 4)) : (orderMap syms).length = 16 := by
  have h := length_add_length_absent syms
  rw [orderMap_eq, List.length_take, List.length_append]
  omega

/-- The symbols read stand first, in order. -/
theorem getElem_orderMap_of_lt (hi : i < 16) (h : i < syms.length) : (toMap (orderMap syms))[i] = syms[i] := by
  rw [getElem_toMap (length_orderMap syms) hi]
  simp [orderMap_eq, List.getElem_append_left h]

/-- The absent values stand after them, in order. -/
theorem getElem_orderMap_of_le (hi : i < 16) (h : syms.length ≤ i) :
    (toMap (orderMap syms))[i] = (absent syms)[i - syms.length]'(by have := length_add_length_absent syms; omega) := by
  rw [getElem_toMap (length_orderMap syms) hi]
  simp [orderMap_eq, List.getElem_append_right h]

/-- The entries after the symbols read rise strictly. -/
theorem orderMap_lt {j : Nat} (hi : syms.length ≤ i) (hij : i < j) (hj : j < 16) :
    (toMap (orderMap syms))[i] < (toMap (orderMap syms))[j] := by
  rw [getElem_orderMap_of_le (hij.trans hj) hi, getElem_orderMap_of_le hj (by omega)]
  exact List.pairwise_iff_getElem.1 (absent_sorted syms) _ _ _ _ (by omega)

/-- The entries after the symbols read are none of them. -/
theorem orderMap_ne {j : Nat} (hi : i < syms.length) (hj : syms.length ≤ j) (hj16 : j < 16) :
    (toMap (orderMap syms))[i] ≠ (toMap (orderMap syms))[j] := by
  rw [getElem_orderMap_of_lt (by omega) hi, getElem_orderMap_of_le hj16 hj]
  exact fun heq => mem_absent.1 (List.getElem_mem _) (heq ▸ List.getElem_mem hi)

/-- No value smaller than one of them is left out before it. -/
theorem exists_orderMap_eq {v : BitVec 4} (hi : i < 16) (h : syms.length ≤ i) (hv : v < (toMap (orderMap syms))[i]) :
    ∃ (j : Nat) (hj : j < i), (toMap (orderMap syms))[j] = v := by
  by_cases hmem : v ∈ syms
  · obtain ⟨j, hj, rfl⟩ := List.mem_iff_getElem.1 hmem
    exact ⟨j, by omega, getElem_orderMap_of_lt _ hj⟩
  · obtain ⟨j, hj, rfl⟩ := List.mem_iff_getElem.1 (mem_absent.2 hmem)
    rw [getElem_orderMap_of_le hi h] at hv
    have hlt : j < i - syms.length := by
      by_contra hge
      rcases Nat.eq_or_lt_of_le (Nat.not_lt.1 hge) with heq | hgt
      · simp [heq] at hv
      · exact BitVec.lt_asymm hv (List.pairwise_iff_getElem.1 (absent_sorted syms) _ _ _ hj hgt)
    refine ⟨syms.length + j, by omega, ?_⟩
    rw [getElem_orderMap_of_le (by omega) (by omega)]
    simp

end Order

/-- Order mode 5 bits into a tree: the 3 bits of `len`, then the `len + 1` symbols. -/
theorem orderMode_advance {s : State} (hl : s.LengthsLegal) : orderMode (s.advance 5) =
    (orderMap (readSymbols (s.bitsFrom (s.bsPos.toNat + 5) 3 + 1) (s.advance 8)).1,
      s.advance (12 + 4 * s.bitsFrom (s.bsPos.toNat + 5) 3)) := by
  simp only [orderMode, State.readBits_fst, State.readBits_snd, State.peekBits_advance hl, readSymbols_state,
    State.advance_advance]
  congr 2
  omega

/-- Symbol `i` of those read `m` bits on. -/
theorem getElem_readSymbols {s : State} (hl : s.LengthsLegal) {n m i : Nat}
    (hi : i < (readSymbols n (s.advance m)).1.length) :
    (readSymbols n (s.advance m)).1[i] = BitVec.ofNat 4 (s.bitsFrom (s.bsPos.toNat + m + 4 * i) 4) := by
  have hget := readSymbols_get ((s.lengthsLegal_advance m).2 hl) n i (hi.trans_eq (length_readSymbols n _))
  rw [List.getElem?_eq_getElem hi, ← State.peekBits_advance ((s.lengthsLegal_advance m).2 hl),
    State.advance_advance, State.peekBits_advance hl, ← Nat.add_assoc] at hget
  exact Option.some.inj hget

/-! ### TREE_READ (41_huffman.md R171) -/

section TreeRead

variable {s : State}

theorem readTree_of_zero (h0 : s.bitsFrom s.bsPos.toNat 4 = 0) : readTree s = (⟨0, toMap nibbles⟩, s.advance 4) := by
  have hpeek : s.peekBits 4 = 0 := h0
  simp [readTree, hpeek]

/-- The mode bit follows the four bits of a nonzero `TABLE`: 1 is order mode, 0 shuffle mode. -/
theorem readTree_of_ne_zero (hl : s.LengthsLegal) (h0 : s.bitsFrom s.bsPos.toNat 4 ≠ 0) : readTree s =
    let m := if s.streamBit (s.bsPos.toNat + 4) then orderMode (s.advance 5) else shuffleMode (s.advance 5)
    (⟨BitVec.ofNat 4 (s.bitsFrom s.bsPos.toNat 4), toMap m.1⟩, m.2) := by
  have hpeek : s.peekBits 4 = s.bitsFrom s.bsPos.toNat 4 := rfl
  simp only [readTree, State.readBits_fst, State.readBits_snd, hpeek, if_neg h0, State.peekBits_advance hl,
    State.bitsFrom_one, State.advance_advance]
  cases s.streamBit (s.bsPos.toNat + 4) <;> rfl

/-- In order mode the tree's map is that of the symbols read, and 12 + 4·len bits are read. -/
theorem readTree_of_order (hl : s.LengthsLegal) (h0 : s.bitsFrom s.bsPos.toNat 4 ≠ 0)
    (hmode : s.streamBit (s.bsPos.toNat + 4) = true) : readTree s =
    (⟨BitVec.ofNat 4 (s.bitsFrom s.bsPos.toNat 4),
        toMap (orderMap (readSymbols (s.bitsFrom (s.bsPos.toNat + 5) 3 + 1) (s.advance 8)).1)⟩,
      s.advance (12 + 4 * s.bitsFrom (s.bsPos.toNat + 5) 3)) := by
  rw [readTree_of_ne_zero hl h0, if_pos hmode, orderMode_advance hl]

/-- In shuffle mode the tree's map is that mode's, and between 15 and 56 bits are read. -/
theorem readTree_of_shuffle (hl : s.LengthsLegal) (h0 : s.bitsFrom s.bsPos.toNat 4 ≠ 0)
    (hmode : s.streamBit (s.bsPos.toNat + 4) = false) :
    ∃ n, 15 ≤ n ∧ n ≤ 56 ∧ (shuffleMode (s.advance 5)).2 = s.advance n ∧ readTree s =
      (⟨BitVec.ofNat 4 (s.bitsFrom s.bsPos.toNat 4), toMap (shuffleMode (s.advance 5)).1⟩, s.advance n) := by
  obtain ⟨-, n, hlo, hhi, hstate⟩ := shuffleMode_spec (s.advance 5)
  rw [State.advance_advance] at hstate
  refine ⟨5 + n, by omega, by omega, hstate, ?_⟩
  rw [readTree_of_ne_zero hl h0, if_neg (by simp [hmode]), ← hstate]

/-- TREE_READ writes its tree and the position alone. -/
theorem exec_treeRead {tr : SymbolTree} {n : Nat} (k : BitVec 5) (h : readTree s = (tr, s.advance n)) :
    exec (.treeRead k) s = .next ({ s with
      trees := s.trees.set k.toNat tr k.isLt
      bsPos := (s.advance n).bsPos } : State).complete := by
  simp only [exec, execTreeRead, h]
  rfl

/-- `TABLE` holds the four bits read. -/
theorem State.toNat_ofNat_bitsFrom (s : State) (p : Nat) : (BitVec.ofNat 4 (s.bitsFrom p 4)).toNat = s.bitsFrom p 4 := by
  rw [BitVec.toNat_ofNat, Nat.mod_eq_of_lt (s.bitsFrom_lt p 4)]

end TreeRead

/-- Settles O26, by the three ways to read a tree: table 0, order mode and shuffle mode. -/
theorem treeReadResult : Obligations.TreeReadResult := by
  unfold Obligations.TreeReadResult
  intro k s hl
  by_cases h0 : s.bitsFrom s.bsPos.toNat 4 = 0
  · exact ⟨_, 4, _, exec_treeRead k (readTree_of_zero h0), s.advance_toNat 4, h0.symm,
      fun _ => ⟨rfl, SymbolTree.reset_map⟩, fun h => absurd h0 h, fun h => absurd h0 h⟩
  · cases hmode : s.streamBit (s.bsPos.toNat + 4) with
    | true =>
      exact ⟨_, _, _, exec_treeRead k (readTree_of_order hl h0 hmode), s.advance_toNat _, s.toNat_ofNat_bitsFrom _,
        fun h => absurd h h0, fun _ _ => rfl, nofun⟩
    | false =>
      obtain ⟨n, hlo, hhi, -, hread⟩ := readTree_of_shuffle hl h0 hmode
      exact ⟨_, n, _, exec_treeRead k hread, s.advance_toNat n, s.toNat_ofNat_bitsFrom _, fun h => absurd h h0,
        nofun, fun _ _ => ⟨hlo, hhi⟩⟩

/-- Settles O27: the symbols read and the absent values after them, entry by entry. -/
theorem orderModeMap : Obligations.OrderModeMap := by
  unfold Obligations.OrderModeMap
  intro k s hl h0 hmode
  have hread := readTree_of_order hl h0 hmode
  generalize s.bitsFrom (s.bsPos.toNat + 5) 3 = len at hread ⊢
  have hlen : (readSymbols (len + 1) (s.advance 8)).1.length = len + 1 := length_readSymbols _ _
  refine ⟨_, _, exec_treeRead k hread, ?_, fun i hi => ?_, fun i j hi hij => orderMap_lt (by omega) hij j.isLt,
    fun i j hi hj => orderMap_ne (by omega) (by omega) j.isLt, fun j v hj hv => ?_⟩
  · rw [State.advance_toNat, posMax]
    omega
  · rw [← getElem_readSymbols hl (n := len + 1) (by omega)]
    exact getElem_orderMap_of_lt i.isLt (by omega)
  · obtain ⟨i, hi, heq⟩ := exists_orderMap_eq j.isLt (by omega) hv
    exact ⟨⟨i, by omega⟩, hi, heq⟩

/-- Settles O28: the model's shuffle mode is the fold of `shufflePass`, and a permutation by `shuffleMode_spec`. -/
theorem shuffleModePermutes : Obligations.ShuffleModePermutes := by
  unfold Obligations.ShuffleModePermutes
  intro k s hl h0 hmode
  obtain ⟨hperm, -⟩ := shuffleMode_spec (s.advance 5)
  obtain ⟨n, -, -, hstate, hread⟩ := readTree_of_shuffle hl h0 hmode
  have hmap : (toMap (shuffleMode (s.advance 5)).1).toList = (shuffleMode (s.advance 5)).1 :=
    toList_toMap hperm.length_eq
  refine ⟨_, _, (s.advance 7).bsPos, exec_treeRead k hread, s.advance_toNat 7, ?_, exists_unique_place (hmap ▸ hperm)⟩
  calc (_, s.advance n) = shuffleMode (s.advance 5) := Prod.ext hmap hstate.symm
    _ = _ := shuffleMode_eq_foldl hl

end Sys2Proof.Machine

/-! How the trees change (41_huffman.md R165): the commands and the host accesses, each with the trees it may write. -/

namespace Sys2Proof.Machine

/-! ### Commands -/

/-- The trees after a completion: the pending soft reset takes them back to their reset value (10_state.md R57). -/
theorem State.complete_trees_eq (s : State) :
    s.complete.trees = if s.srstPend then Vector.replicate 32 SymbolTree.reset else s.trees := by
  unfold State.complete
  split <;> rfl

theorem State.complete_trees_congr {s u : State} (htrees : u.trees = s.trees) (hpend : u.srstPend = s.srstPend) :
    u.complete.trees = s.complete.trees := by
  rw [State.complete_trees_eq, State.complete_trees_eq, htrees, hpend]

/-- A command that leaves the trees to its completion. -/
def State.LeavesTrees (s : State) (o : Host.Outcome State Fault Refusal) : Prop :=
  ∀ t, o = .next t → t.trees = s.complete.trees

section LeavesTrees

variable {s u : State}

theorem State.leavesTrees_complete (htrees : u.trees = s.trees) (hpend : u.srstPend = s.srstPend) :
    s.LeavesTrees (.next u.complete) := by
  rintro t ht
  rw [← Host.Outcome.next.inj ht]
  exact State.complete_trees_congr htrees hpend

theorem State.leavesTrees_raise (s : State) (c : ErrCode) : s.LeavesTrees (.next (s.raise c)) :=
  State.leavesTrees_complete (u := s.fail c) rfl rfl

theorem State.leavesTrees_of_mem (h : ∃ m, u = { s with mem := m }) : s.LeavesTrees (.next u.complete) := by
  obtain ⟨m, rfl⟩ := h
  exact State.leavesTrees_complete rfl rfl

theorem State.LeavesTrees.ite {c : Prop} [Decidable c] {o o' : Host.Outcome State Fault Refusal}
    (h : s.LeavesTrees o) (h' : s.LeavesTrees o') : s.LeavesTrees (if c then o else o') := by
  split
  · exact h
  · exact h'

/-- A check of its operands and the error report in its place leave the trees alone. -/
theorem State.LeavesTrees.guard {c : Prop} [Decidable c] {code : ErrCode} {o : Host.Outcome State Fault Refusal}
    (h : s.LeavesTrees o) : s.LeavesTrees (if c then o else .next (s.raise code)) :=
  h.ite (s.leavesTrees_raise code)

end LeavesTrees

/-- The overlap writes the RAMs and AUD_CTRL.FIRST alone. -/
theorem State.leavesTrees_audOla (i2 : BitVec 1) (nbits : BitVec 4) (s : State) :
    s.LeavesTrees (exec (.audOla i2 nbits) s) := by
  refine .guard ?_
  obtain ⟨m, e⟩ := s.olaChannel_state (2 ^ nbits.toNat) (1 + i2.toNat) 0
  obtain ⟨m', e'⟩ := ({ s with mem := m } : State).olaChannel_state (2 ^ nbits.toNat) (1 + i2.toNat) 1
  simp only [e, e']
  split <;> exact State.leavesTrees_complete rfl rfl

/-- Every command but TREE_READ leaves the trees to its completion. -/
theorem exec_leavesTrees {i : Instr} (hi : ∀ k, i ≠ .treeRead k) (s : State) : s.LeavesTrees (exec i s) := by
  cases i with
  | nop => exact State.leavesTrees_complete rfl rfl
  | bsRead n => exact .guard (State.leavesTrees_complete rfl rfl)
  | bsPeek n => exact .guard (State.leavesTrees_complete rfl rfl)
  | bsRead1 => exact State.leavesTrees_complete rfl rfl
  | bsSkip k => exact State.leavesTrees_complete rfl rfl
  | bsAlign32 => exact State.leavesTrees_complete rfl rfl
  | bsLeft => exact State.leavesTrees_complete rfl rfl
  | bsSign => exact State.leavesTrees_complete rfl rfl
  | hufDecode k =>
    simp only [exec, execHufDecode]
    split
    · split
      · exact s.leavesTrees_raise .hufNoMatch
      · exact State.leavesTrees_complete rfl rfl
    · exact fun t ht => by cases ht
  | treeRead k => exact absurd rfl (hi k)
  | mcCopy8 xoff yoff =>
    exact .guard (.ite (State.leavesTrees_complete rfl rfl)
      (State.leavesTrees_of_mem (s.forRows_state _ (copyRow_writes _ _))))
  | frameCopy dir => cases dir <;> exact State.leavesTrees_complete rfl rfl
  | idctPut => exact .guard (State.leavesTrees_of_mem (s.forRows_state _ (putRow_writes _ _)))
  | idctAdd => exact .guard (State.leavesTrees_of_mem (s.forRows_state _ (addRow_writes _ _)))
  | idctInt => exact State.leavesTrees_complete rfl rfl
  | audIdct3 ch nbits => exact .guard (.ite (State.leavesTrees_complete rfl rfl) (State.leavesTrees_complete rfl rfl))
  | audIrdft ch nbits => exact .guard (State.leavesTrees_complete rfl rfl)
  | audFft ch nbits => exact .guard (.ite (State.leavesTrees_complete rfl rfl) (State.leavesTrees_complete rfl rfl))
  | audScale ch nbits => exact .guard (State.leavesTrees_complete rfl rfl)
  | audOla i2 nbits => exact State.leavesTrees_audOla i2 nbits s

theorem State.tree_setTree_of_ne (s : State) {j k : BitVec 5} (h : k ≠ j) (tr : SymbolTree) :
    (s.setTree j tr).tree k = s.tree k := by
  have hne : j.toNat ≠ k.toNat := fun e => h (BitVec.eq_of_toNat_eq e.symm)
  simp [State.tree, hne]

theorem State.tree_congr {s u : State} (h : u.trees = s.trees) (k : BitVec 5) : u.tree k = s.tree k := by
  simp only [State.tree, h]

theorem State.tree_complete (s : State) (k : BitVec 5) :
    s.complete.tree k = if s.srstPend then SymbolTree.reset else s.tree k := by
  simp only [State.tree, State.complete_trees_eq]
  split <;> simp

/-- A command that does not read tree `k` leaves it to its completion. -/
theorem exec_tree {i : Instr} {s t : State} {k : BitVec 5} (h : exec i s = .next t) (hi : i ≠ .treeRead k) :
    t.tree k = if s.srstPend then SymbolTree.reset else s.tree k := by
  by_cases hread : ∃ j, i = .treeRead j
  · obtain ⟨j, rfl⟩ := hread
    have hne : k ≠ j := fun e => hi (e ▸ rfl)
    obtain ⟨n, -, -, hn⟩ := readTree_state s
    rw [← Host.Outcome.next.inj h, hn, State.tree_complete, State.tree_setTree_of_ne _ hne]
    rfl
  · rw [State.tree_congr (exec_leavesTrees (not_exists.1 hread) s t h), State.tree_complete]

/-! ### Host accesses -/

/-- A write of CTRL changes the trees only by the soft reset that its bit 0 asks for (10_state.md R33). -/
theorem State.writeCtrl_trees (s : State) (v : Word) :
    (s.writeCtrl v).trees = s.trees ∨ v.getLsbD 0 = true ∧ s.writeCtrl v = s.softReset := by
  unfold State.writeCtrl
  split
  · split
    · exact .inl rfl
    · exact .inr ⟨‹_›, rfl⟩
  · exact .inl rfl

/-- No other register write changes them. -/
theorem State.writeReg_trees (s : State) (r : Reg) (v : Word) : (s.writeReg r v).trees = s.trees ∨
    r = .ctrl ∧ v.getLsbD 0 = true ∧ s.writeReg r v = s.softReset := by
  cases r with
  | ctrl => exact (s.writeCtrl_trees v).imp_right fun h => ⟨rfl, h⟩
  | status =>
    obtain ⟨-, -, -, -, htrees⟩ := s.writeStatus_frame v
    exact .inl htrees
  | cmd =>
    obtain ⟨-, -, -, -, htrees⟩ := s.acceptCmd_frame v
    exact .inl htrees
  | _ => exact .inl rfl

/-- CTRL is the word at offset 8 (10_state.md R33). -/
theorem Reg.ofIndex_eq_ctrl {n : Nat} (h : Reg.ofIndex n = some .ctrl) : n = 2 := by
  unfold Reg.ofIndex at h
  split at h <;> simp_all

/-- An access changes tree `k` only when no command is in flight, by a write into the tree's window or of CTRL. -/
theorem State.access_tree {s : State} {off width : Nat} {op : HostOp} {k : BitVec 5}
    (hne : (s.access off width op).tree k ≠ s.tree k) :
    s.busy = false ∧ width = 4 ∧ ∃ v, op = .write v ∧
      ((0x400 + 16 * k.toNat ≤ off ∧ off < 0x400 + 16 * k.toNat + 16) ∨
        (off = 0x008 ∧ v.getLsbD 0 = true ∧ (s.access off width op).tree k = SymbolTree.reset)) := by
  have hb : s.busy = false := by
    by_contra hb
    obtain ⟨e, c, i, o, b, d, r, de, ee, p, q, hu⟩ := s.access_busy (by simpa using hb) off width op
    exact hne (State.tree_congr (by rw [hu]) k)
  cases hadm : admitted s.params off width with
  | none => cases op <;> exact absurd (by simp only [State.access, hadm]; rfl) hne
  | some target =>
    cases op with
    | read => exact absurd (by simp only [State.access, hadm]; rfl) hne
    | write v =>
      obtain ⟨rfl, h4, hcase⟩ := admitted_cases hadm
      refine ⟨hb, rfl, v, rfl, ?_⟩
      rw [State.access_write_idle hb hadm] at hne ⊢
      rcases hcase with ⟨r, rfl, hlt, hr⟩ | ⟨j, w, rfl, hoff⟩ | ⟨rfl, -⟩ | ⟨rfl, -⟩
      · rcases s.writeReg_trees r v with htrees | ⟨rfl, hv, hreset⟩
        · exact absurd (State.tree_congr htrees k) hne
        · have hindex := Reg.ofIndex_eq_ctrl hr
          exact .inr ⟨by omega, hv, by simp only [State.writeTarget, hreset, State.tree_softReset]⟩
      · have hjk : k = j := by
          by_contra hjk
          exact hne (s.tree_setTree_of_ne hjk _)
        have hw := w.isLt
        subst hjk
        exact .inl (by omega)
      · exact absurd rfl hne
      · exact absurd rfl hne

/-- Settles O15, along the cases of a step: an illegal word's report, a command, nothing, or one host access. -/
theorem treesChangeOnlyAsListed : Obligations.TreesChangeOnlyAsListed := by
  unfold Obligations.TreesChangeOnlyAsListed
  intro s t k h hne
  have pending : s.busy = true → t.tree k = (if s.srstPend then SymbolTree.reset else s.tree k) →
      s.busy = true ∧ s.srstPend = true ∧ t.tree k = SymbolTree.reset := fun hb ht => by
    cases hp : s.srstPend with
    | true => exact ⟨hb, rfl, by simpa [hp] using ht⟩
    | false => exact absurd (by simpa [hp] using ht) hne
  rcases step_cases h with ⟨-, hb, -, rfl⟩ | ⟨-, hb, i, hi, hexec⟩ | ⟨-, -, rfl⟩ |
    ⟨-, a, rest, off, u, hq, ho, rfl, rfl⟩
  · exact .inr (.inr (pending hb ((s.fail .illegal).tree_complete k)))
  · by_cases hread : i = .treeRead k
    · exact .inl ⟨hb, hread ▸ hi⟩
    · exact .inr (.inr (pending hb (exec_tree hexec hread)))
  · exact absurd rfl hne
  · have haddr := busOffset_eq ho
    obtain ⟨hb, hwidth, v, hop, hwhere⟩ :=
      State.access_tree (s := { s with hostq := rest, latency := s.latency - 1 }) hne
    refine .inr (.inl ⟨hb, a, v, by rw [hq, List.head?_cons], hwidth, hop, ?_⟩)
    exact hwhere.imp (fun _ => by omega) fun ⟨hoff, hv, hreset⟩ => ⟨by omega, hv, hreset⟩

end Sys2Proof.Machine

/-! The outputs of the 8×8 IDCT (42_idct8x8.md): the 1-D pass on exact integers, the outputs of a block entry by entry,
and IDCT_INT, which stores them in OBLK. -/

namespace Sys2Proof.Machine

/-! ### The 1-D pass on integers (42_idct8x8.md R191, R192) -/

/-- A vector as a signed integer is the wrap of any integer it stands for. -/
theorem toInt_ofInt_eq_wrap32 (v : Int) : (BitVec.ofInt 32 v).toInt = wrap32 v := by
  rw [BitVec.toInt_ofInt, Int.bmod_def, wrap32]
  split <;> omega

theorem ofInt_sub (v w : Int) : BitVec.ofInt 32 (v - w) = BitVec.ofInt 32 v - BitVec.ofInt 32 w := by
  rw [Int.sub_eq_add_neg, BitVec.ofInt_add, BitVec.ofInt_neg, BitVec.sub_eq_add_neg]

theorem toInt_sshiftRight_eq_div (v : Word) (r : Nat) : (v.sshiftRight r).toInt = v.toInt / 2 ^ r := by
  rw [BitVec.toInt_sshiftRight, Int.shiftRight_eq_div_pow, Int.natCast_pow, Int.cast_ofNat_Int]

/-- A multiplication wraps its product once, whatever integer its operand stands for. -/
theorem mulShift_ofInt (c v : Int) :
    mulShift (BitVec.ofInt 32 c) (BitVec.ofInt 32 v) = BitVec.ofInt 32 (mulExact c v) := by
  apply BitVec.eq_of_toInt_eq
  rw [mulShift, ← BitVec.ofInt_mul, toInt_sshiftRight_eq_div, toInt_ofInt_eq_wrap32, toInt_ofInt_eq_wrap32, mulExact]
  simp only [wrap32]
  omega

/-- The pass on vectors that stand for the exact integers: `ofInt` commutes with every sum and every `mul`, so one wrap
before the last shift is all that is left of the wraps in between. -/
theorem aan1d_ofInt (k : Int) (r : Nat) (x : Line Int) :
    (aan1d (BitVec.ofInt 32 k) r (x.map (BitVec.ofInt 32))).map BitVec.toInt = aanExact k r x := by
  have c0 : Config.c0 = BitVec.ofInt 32 2896 := rfl
  have c1 : Config.c1 = BitVec.ofInt 32 2217 := rfl
  have c2 : Config.c2 = BitVec.ofInt 32 3784 := rfl
  have c3 : Config.c3 = BitVec.ofInt 32 (-5352) := rfl
  simp only [aan1d, aanExact, Line.map, c0, c1, c2, c3, ← BitVec.ofInt_add, ← ofInt_sub, mulShift_ofInt,
    toInt_sshiftRight_eq_div, toInt_ofInt_eq_wrap32]

/-- Settles O32: every vector stands for its own signed value. -/
theorem aan1dIsTheExactPass : Obligations.Aan1dIsTheExactPass := by
  unfold Obligations.Aan1dIsTheExactPass
  intro k r x
  have hx : (x.map BitVec.toInt).map (BitVec.ofInt 32) = x := by simp only [Line.map, BitVec.ofInt_toInt]
  have h := aan1d_ofInt k.toInt r (x.map BitVec.toInt)
  rwa [hx, BitVec.ofInt_toInt] at h

/-! ### Lines and blocks by their entries -/

theorem Line.ofFn_congr {α : Type} {f g : Nat → α} (h : ∀ i, i < 8 → f i = g i) : Line.ofFn f = Line.ofFn g := by
  simp only [Line.ofFn, h _ (show 0 < 8 by decide), h 1, h 2, h 3, h 4, h 5, h 6, h 7, Nat.reduceLT]

theorem Line.getD_toList_ofFn {α : Type} (f : Nat → α) (d : α) {i : Nat} (hi : i < 8) :
    (Line.ofFn f).toList.getD i d = f i := by
  have h : (Line.ofFn f).toList = (List.range 8).map f := rfl
  simp [h, hi]

section Blocks

variable (b : Block) {r c : Nat} (hr : r < 8)

include hr

theorem blockRow_ofFn (f : Nat → Line Word) : blockRow (Line.ofFn f) r = f r := Line.getD_toList_ofFn f _ hr

theorem blockAt_ofFn (f : Nat → Nat → Word) (hc : c < 8) :
    blockAt (Line.ofFn fun i => Line.ofFn (f i)) r c = f r c := by
  rw [blockAt, blockRow_ofFn hr, Line.getD_toList_ofFn _ _ hc]

theorem blockRow_map (f : Line Word → Line Word) : blockRow (b.map f) r = f (blockRow b r) :=
  blockRow_ofFn hr fun i => f (blockRow b i)

theorem blockRow_columns : blockRow b.columns r = Line.ofFn fun i => blockAt b i r :=
  blockRow_ofFn hr fun j => Line.ofFn fun i => blockAt b i j

/-- Output `Y[8r + c]` from the entries: the column pass, then the row pass (42_idct8x8.md R193). -/
theorem blockAt_idct2d : blockAt (idct2d b) r c = (aan1d 127 8 (Line.ofFn fun j =>
    (aan1d 0 0 (Line.ofFn fun i => blockAt b i j)).toList.getD r 0)).toList.getD c 0 := by
  have scratch : blockRow (b.columns.map (aan1d 0 0)).columns r =
      Line.ofFn fun j => (aan1d 0 0 (Line.ofFn fun i => blockAt b i j)).toList.getD r 0 := by
    rw [blockRow_columns _ hr]
    refine Line.ofFn_congr fun j hj => ?_
    rw [blockAt, blockRow_map _ hj, blockRow_columns _ hj]
  rw [blockAt, idct2d, blockRow_map _ hr, scratch]

end Blocks

/-! ### A block with only its DC entry (42_idct8x8.md R201) -/

/-- A line with only its first entry. -/
def Line.first (x : Word) : Line Word := ⟨x, 0, 0, 0, 0, 0, 0, 0⟩

theorem Line.ofFn_eq_first {f : Nat → Word} (h : ∀ i, i < 8 → i ≠ 0 → f i = 0) : Line.ofFn f = Line.first (f 0) := by
  simp only [Line.ofFn, Line.first, h 1, h 2, h 3, h 4, h 5, h 6, h 7, Nat.reduceLT, ne_eq, OfNat.ofNat_ne_zero,
    one_ne_zero, not_false_eq_true]

@[simp] theorem mulShift_zero (c : Word) : mulShift c 0#32 = 0#32 := by simp [mulShift]

/-- The pass spreads the first entry of a line that holds no other. -/
theorem aan1d_first (k : Word) (r : Nat) (x : Word) :
    aan1d k r (Line.first x) = Line.ofFn fun _ => (x + k).sshiftRight r := by
  simp [aan1d, Line.first, Line.ofFn]

theorem getD_aan1d_first (k : Word) (r : Nat) (x : Word) {i : Nat} (hi : i < 8) :
    (aan1d k r (Line.first x)).toList.getD i 0 = (x + k).sshiftRight r := by
  rw [aan1d_first, Line.getD_toList_ofFn _ _ hi]

theorem blockAt_idct2d_of_dc {b : Block} (h : ∀ r c, r < 8 → c < 8 → (r ≠ 0 ∨ c ≠ 0) → blockAt b r c = 0) {r c : Nat}
    (hr : r < 8) (hc : c < 8) : blockAt (idct2d b) r c = (blockAt b 0 0 + 127).sshiftRight 8 := by
  have column : ∀ j, j < 8 →
      (aan1d 0 0 (Line.ofFn fun i => blockAt b i j)).toList.getD r 0 = blockAt b 0 j := fun j hj => by
    rw [Line.ofFn_eq_first fun i hi h0 => h i j hi hj (.inl h0), getD_aan1d_first _ _ _ hr]
    simp
  rw [blockAt_idct2d _ hr, Line.ofFn_congr column,
    Line.ofFn_eq_first fun j hj h0 => h 0 j (by decide) hj (.inr h0), getD_aan1d_first _ _ _ hc]

/-- The rounding constant is too small to reach the next multiple of 256. -/
theorem toInt_round_of_multiple {dc : Word} {v : Int} (hv : dc.toInt = 256 * v) (hmax : 256 * v + 127 < 2 ^ 31) :
    ((dc + 127).sshiftRight 8).toInt = v := by
  have hmin := BitVec.le_toInt dc
  have hsum : (dc + 127).toInt = 256 * v + 127 := by
    have h127 : (127 : Word).toInt = 127 := rfl
    rw [BitVec.toInt_add, h127, hv]
    exact Int.bmod_eq_of_le (by omega) (by omega)
  rw [toInt_sshiftRight_eq_div, hsum]
  omega

/-- Settles O33: the column pass fills only the first column of the scratch, with the DC entry, and the row pass spreads
and rounds it. -/
theorem dcOnlyBlock : Obligations.DcOnlyBlock := by
  unfold Obligations.DcOnlyBlock
  rintro dc b rfl h r c hr hc
  rw [blockAt_idct2d_of_dc h hr hc]
  exact ⟨rfl, fun v => toInt_round_of_multiple⟩

/-! ### IDCT_INT (42_idct8x8.md R199) -/

theorem Line.getElem?_flatMap_toList {α : Type} (ls : List (Line α)) {i j : Nat} (hj : j < 8) :
    (ls.flatMap Line.toList)[8 * i + j]? = ls[i]?.bind fun l => l.toList[j]? := by
  induction ls generalizing i with
  | nil => rfl
  | cons l ls ih =>
    rw [List.flatMap_cons]
    cases i with
    | zero => rw [List.getElem?_append_left (by simpa [Line.toList] using hj)]; simp
    | succ i =>
      have hlen : l.toList.length = 8 := rfl
      have hi : 8 * (i + 1) + j - l.toList.length = 8 * i + j := by omega
      rw [List.getElem?_append_right (by omega), hi, ih, List.getElem?_cons_succ]

theorem Line.getElem?_toList {α : Type} (l : Line α) (d : α) {i : Nat} (hi : i < 8) :
    l.toList[i]? = some (l.toList.getD i d) := by
  rw [List.getD_eq_getElem _ _ hi, List.getElem?_eq_getElem hi]

/-- The words of a block are its entries row by row. -/
theorem getElem_blockWords (y : Block) {r c : Nat} (hr : r < 8) (hc : c < 8) :
    (y.toList.flatMap Line.toList)[8 * r + c]'(by rw [length_blockWords]; omega) = blockAt y r c := by
  rw [List.getElem_eq_iff, Line.getElem?_flatMap_toList _ hc, Line.getElem?_toList _ _ hr, Option.bind_some,
    Line.getElem?_toList _ _ hc]
  rfl

theorem State.blockAt_cblk (s : State) {r c : Nat} (hr : r < 8) (hc : c < 8) :
    blockAt s.cblk r c = s.readWord 0 (cblkBase + 4 * (8 * r + c)) :=
  blockAt_ofFn hr (fun i j => s.readWord 0 (cblkBase + 4 * (8 * i + j))) hc

/-- The outputs from the 64 words of CBLK (42_idct8x8.md R193, 10_state.md R48). -/
theorem State.blockAt_idct2d_cblk (s : State) {r c : Nat} (hr : r < 8) :
    blockAt (idct2d s.cblk) r c = idctEntry (fun i => s.readWord 0 (cblkBase + 4 * i)) r c := by
  have entries : ∀ j, j < 8 → (aan1d 0 0 (Line.ofFn fun i => blockAt s.cblk i j)).toList.getD r 0 =
      (aan1d 0 0 (Line.ofFn fun i => s.readWord 0 (cblkBase + 4 * (8 * i + j)))).toList.getD r 0 := fun j hj => by
    rw [Line.ofFn_congr fun i hi => s.blockAt_cblk hi hj]
  rw [blockAt_idct2d _ hr, Line.ofFn_congr entries]
  rfl

/-- Settles O36: one write of the 64 outputs as consecutive words. -/
theorem idctIntResult : Obligations.IdctIntResult := by
  unfold Obligations.IdctIntResult
  intro s
  refine ⟨s.mem.writeBytes oblkBase (((idct2d s.cblk).toList.flatMap Line.toList).flatMap Word.bytes), rfl, ?_, ?_⟩
  · intro a ha
    refine Memory.held_writeWords_outside ?_
    rw [length_blockWords]
    simp only [inWindow] at ha
    omega
  · intro r c hr hc
    refine ⟨?_, s.blockAt_idct2d_cblk hr⟩
    rw [← getElem_blockWords _ hr hc]
    exact Memory.holdsWord_writeWords _ _ _ _ _

end Sys2Proof.Machine

/-! IDCT_PUT and IDCT_ADD (42_idct8x8.md): rows of eight bytes stored in a block of CUR behind the range check, the last
store on each byte, and the sum of the visits to it. -/

namespace Sys2Proof.Machine

/-! ### Rows stored in CUR (42_idct8x8.md R195, R196) -/

/-- Each row's visit stores eight bytes at its place in the block of CUR at byte offset `a`, and does nothing else. -/
def StoresRows (a : Nat) (row : Nat → State → State) : Prop :=
  ∀ r t, ∃ bs : List Byte, bs.length = 8 ∧ row r t = t.writeBytes (t.curRow a r) bs

theorem putRow_storesRows (y : Block) (a : Nat) : StoresRows a (putRow y a) :=
  fun _ _ => ⟨_, length_rowBytes _, rfl⟩

theorem addRow_storesRows (y : Block) (a : Nat) : StoresRows a (addRow y a) :=
  fun _ _ => ⟨_, length_addBytes _ _ (State.length_readBytes _ _ _ _), rfl⟩

section Rows

variable {s t : State} {a : Nat} {row : Nat → State → State}

theorem State.curRow_congr (h : t.pxStride = s.pxStride) (a r : Nat) : t.curRow a r = s.curRow a r := by
  simp only [State.curRow, State.stride, h]

theorem StoresRows.pxStride_eq (h : StoresRows a row) (r : Nat) (t : State) : (row r t).pxStride = t.pxStride := by
  obtain ⟨bs, -, e⟩ := h r t
  rw [e, State.writeBytes_pxStride]

theorem StoresRows.draws_eq (h : StoresRows a row) (r : Nat) (t : State) : (row r t).draws = t.draws := by
  obtain ⟨bs, -, e⟩ := h r t
  rw [e, State.writeBytes_draws]

/-- A row's visit leaves every byte that none of the row's pixels lies on. -/
theorem StoresRows.held_outside (h : StoresRows a row) {r x : Nat} (hx : ∀ c, c < 8 → x ≠ t.curRow a r + c) :
    (row r t).held x = t.held x := by
  obtain ⟨bs, hlen, e⟩ := h r t
  rw [e, State.held_writeBytes, if_neg]
  rintro ⟨hle, hlt⟩
  exact hx (x - t.curRow a r) (by omega) (by omega)

/-- The eight visits write CUR inside the block alone. -/
theorem StoresRows.frame (h : StoresRows a row) (s : State) :
    s.forRows row = { s with mem := (s.forRows row).mem } ∧
    Memory.sameOutside (inCurBlock a s.pxStride.toNat) s.mem (s.forRows row).mem := by
  constructor
  · obtain ⟨m, e⟩ := s.forRows_state row fun r t => (h r t).elim fun bs hbs => ⟨_, bs, hbs.2⟩
    rw [e]
  · refine (s.forRows_induction row (fun _ t => t.pxStride = s.pxStride ∧
      Memory.sameOutside (inCurBlock a s.pxStride.toNat) s.mem t.mem) ⟨rfl, fun _ _ => rfl⟩ ?_).2
    rintro r t hr ⟨hst, hsame⟩
    refine ⟨(h.pxStride_eq r t).trans hst, fun x hx => (h.held_outside fun c hc hxc => hx ?_).trans (hsame x hx)⟩
    rw [State.curRow_congr hst] at hxc
    exact ⟨r, c, hr, hc, hxc⟩

theorem State.inBlock_dst_iff (s : State) :
    s.inBlock s.dst = true ↔ s.arg0.toNat + 7 * s.pxStride.toNat + 7 < s.pxLen.toNat := by
  rw [State.inBlock, decide_eq_true_eq, State.dst, State.stride]
  omega

/-- A command that visits the rows of its destination block behind the range check: a completion that changed the block
alone, or the report of RANGE. -/
theorem StoresRows.command (h : StoresRows s.dst row) {i : Instr}
    (hi : exec i s = if s.inBlock s.dst then .next (s.forRows row).complete else .next (s.raise .range)) :
    (s.arg0.toNat + 7 * s.pxStride.toNat + 7 < s.pxLen.toNat →
      exec i s = .next ({ s with mem := (s.forRows row).mem } : State).complete) ∧
    (s.pxLen.toNat ≤ s.arg0.toNat + 7 * s.pxStride.toNat + 7 → exec i s = .next (s.failedWith 2)) := by
  refine ⟨fun hin => ?_, fun hout => hi.trans (if_neg ?_)⟩
  · rw [hi, if_pos (s.inBlock_dst_iff.2 hin), ← (h.frame s).1]
  · rw [s.inBlock_dst_iff]
    omega

end Rows

/-! ### IDCT_PUT (42_idct8x8.md R197) -/

theorem getElem?_rowBytes (y : Block) (r : Nat) {c : Nat} (hc : c < 8) :
    (rowBytes (blockRow y r))[c]? = some ((blockAt y r c).setWidth 8) := by
  rw [rowBytes, List.getElem?_map, Line.getElem?_toList _ 0 hc, Option.map_some, blockAt]

theorem held_putRow (y : Block) (a r : Nat) (t : State) {c : Nat} (hc : c < 8) :
    (putRow y a r t).held (t.curRow a r + c) = some ((blockAt y r c).setWidth 8) := by
  rw [putRow, State.held_writeBytes, if_pos (by rw [length_rowBytes]; omega), Nat.add_sub_cancel_left,
    getElem?_rowBytes y r hc]

/-- No row from `r + 1` to `n - 1` covers the pixel; `lastVisit` is the case of all eight rows. -/
def lastVisitBelow (n st r c : Nat) : Prop := ∀ r' c', r < r' → r' < n → c' < 8 → r' * st + c' ≠ r * st + c

theorem lastVisit_iff_below (st r c : Nat) : lastVisit st r c ↔ lastVisitBelow 8 st r c := Iff.rfl

/-- After the visits of IDCT_PUT each pixel that no later row covers holds its output. -/
theorem held_forRows_putRow (y : Block) (a : Nat) (s : State) {r c : Nat} (hr : r < 8) (hc : c < 8)
    (hlast : lastVisit s.stride r c) :
    (s.forRows (putRow y a)).held (s.curRow a r + c) = some ((blockAt y r c).setWidth 8) := by
  refine (s.forRows_induction (putRow y a) (fun n t => t.pxStride = s.pxStride ∧
    ∀ r c, r < n → c < 8 → lastVisitBelow n s.stride r c →
      t.held (s.curRow a r + c) = some ((blockAt y r c).setWidth 8))
    ⟨rfl, fun _ _ h => absurd h (Nat.not_lt_zero _)⟩ ?_).2 r c hr hc ((lastVisit_iff_below _ _ _).1 hlast)
  rintro n t - ⟨hst, hheld⟩
  refine ⟨hst, fun r c hr hc hlast => ?_⟩
  rcases Nat.lt_succ_iff_lt_or_eq.1 hr with hrn | rfl
  · have uncovered : ∀ c', c' < 8 → s.curRow a r + c ≠ t.curRow a n + c' := fun c' hc' => by
      have := hlast n c' hrn (Nat.lt_succ_self n) hc'
      rw [State.curRow_congr hst]
      simp only [State.curRow]
      omega
    rw [(putRow_storesRows y a).held_outside uncovered]
    exact hheld r c hrn hc fun r' c' hlt hr' => hlast r' c' hlt (by omega)
  · rw [← State.curRow_congr hst, held_putRow y a r t hc]

/-- Settles O34: the rows' stores behind the range check, and the last store on each byte. -/
theorem idctPutResult : Obligations.IdctPutResult := by
  unfold Obligations.IdctPutResult
  intro s
  have rows := putRow_storesRows (idct2d s.cblk) s.dst
  obtain ⟨inside, outside⟩ := rows.command (i := .idctPut) rfl
  exact ⟨fun h => ⟨_, inside h, (rows.frame s).2, fun r c hr hc => held_forRows_putRow _ s.dst s hr hc⟩, outside⟩

/-! ### IDCT_ADD (42_idct8x8.md R198) -/

/-- What row `r` adds to the byte at distance `k` from the block's first. -/
def rowVisit (y : Block) (st k r : Nat) : Byte :=
  ((List.range 8).map fun c => if r * st + c = k then (blockAt y r c).setWidth 8 else 0).sum

theorem visitSum_eq_rowVisits (y : Block) (st k : Nat) :
    visitSum y st k = ((List.range 8).map (rowVisit y st k)).sum := rfl

/-- Within a row each byte is visited at most once. -/
theorem rowVisit_of_pixel (y : Block) (st r : Nat) {c : Nat} (hc : c < 8) :
    rowVisit y st (r * st + c) r = (blockAt y r c).setWidth 8 := by
  rw [rowVisit, List.sum_map_eq_nsmul_single c _ fun c' hne _ => if_neg (by omega), List.count_range, if_pos hc,
    one_nsmul, if_pos rfl]

theorem rowVisit_of_not_pixel (y : Block) {st k r : Nat} (hk : ∀ c, c < 8 → k ≠ r * st + c) :
    rowVisit y st k r = 0 := by
  refine List.sum_eq_zero fun v hv => ?_
  obtain ⟨c, hc, rfl⟩ := List.mem_map.1 hv
  exact if_neg fun h => hk c (List.mem_range.1 hc) h.symm

section Add

variable (y : Block) (a r : Nat) (t : State)

theorem held_addRow {c : Nat} (hc : c < 8) : (addRow y a r t).held (t.curRow a r + c) =
    some (t.readByte 0 (t.curRow a r + c) + (blockAt y r c).setWidth 8) := by
  have hold : (t.readBytes 0 (t.curRow a r) 8)[c]? = some (t.readByte 0 (t.curRow a r + c)) := by
    simp [State.readBytes, hc]
  rw [addRow, State.held_writeBytes, if_pos (by rw [length_addBytes _ _ (State.length_readBytes _ _ _ _)]; omega),
    Nat.add_sub_cancel_left, addBytes, List.getElem?_zipWith, hold, getElem?_rowBytes y r hc]

/-- One row's visit adds to each byte what the row has for it. -/
theorem readByte_addRow (k : Nat) : (addRow y a r t).readByte 0 (curBase + a + k) =
    t.readByte 0 (curBase + a + k) + rowVisit y t.stride k r := by
  by_cases hk : ∃ c, c < 8 ∧ k = r * t.stride + c
  · obtain ⟨c, hc, rfl⟩ := hk
    have hx : curBase + a + (r * t.stride + c) = t.curRow a r + c := (Nat.add_assoc _ _ _).symm
    rw [hx, State.readByte_of_held (held_addRow y a r t hc), rowVisit_of_pixel y t.stride r hc]
  · have hout : ∀ c, c < 8 → k ≠ r * t.stride + c := fun c hc h => hk ⟨c, hc, h⟩
    have hheld : (addRow y a r t).held (curBase + a + k) = t.held (curBase + a + k) :=
      (addRow_storesRows y a).held_outside fun c hc hx => hout c hc (by simp only [State.curRow] at hx; omega)
    rw [rowVisit_of_not_pixel y hout, State.readByte_congr hheld ((addRow_storesRows y a).draws_eq r t)]
    exact (BitVec.add_zero _).symm

/-- A byte once written stays written. -/
theorem isSome_held_addRow {x : Nat} (hx : (t.held x).isSome ∨ ∃ c, c < 8 ∧ x = t.curRow a r + c) :
    ((addRow y a r t).held x).isSome := by
  by_cases hpix : ∃ c, c < 8 ∧ x = t.curRow a r + c
  · obtain ⟨c, hc, rfl⟩ := hpix
    rw [held_addRow y a r t hc, Option.isSome_some]
  · rw [(addRow_storesRows y a).held_outside fun c hc h => hpix ⟨c, hc, h⟩]
    exact hx.resolve_right hpix

end Add

theorem State.held_eq_some_readByte {t : State} {x : Nat} (h : (t.held x).isSome) (tag : Nat) :
    t.held x = some (t.readByte tag x) := by
  obtain ⟨b, hb⟩ := Option.isSome_iff_exists.1 h
  rw [hb, State.readByte_of_held hb]

/-- What the first `n` visits of IDCT_ADD have made of the block. -/
structure State.RowsAdded (s : State) (y : Block) (a n : Nat) (t : State) : Prop where
  stride : t.pxStride = s.pxStride
  sum : ∀ k, t.readByte 0 (curBase + a + k) =
    s.readByte 0 (curBase + a + k) + ((List.range n).map (rowVisit y s.stride k)).sum
  written : ∀ r c, r < n → c < 8 → (t.held (s.curRow a r + c)).isSome

theorem State.RowsAdded.step {s t : State} {y : Block} {a n : Nat} (h : s.RowsAdded y a n t) :
    s.RowsAdded y a (n + 1) (addRow y a n t) where
  stride := h.stride
  sum k := by
    have hst : t.stride = s.stride := by simp only [State.stride, h.stride]
    rw [readByte_addRow, h.sum, hst, List.sum_range_succ, BitVec.add_assoc]
  written r c hr hc := by
    refine isSome_held_addRow y a n t ?_
    rcases Nat.lt_succ_iff_lt_or_eq.1 hr with hrn | rfl
    · exact .inl (h.written r c hrn hc)
    · exact .inr ⟨c, hc, by rw [State.curRow_congr h.stride]⟩

theorem State.rowsAdded_forRows (s : State) (y : Block) (a : Nat) : s.RowsAdded y a 8 (s.forRows (addRow y a)) :=
  s.forRows_induction (addRow y a) (s.RowsAdded y a)
    ⟨rfl, fun _ => (BitVec.add_zero _).symm, fun _ _ h => absurd h (Nat.not_lt_zero _)⟩ fun _ _ _ h => h.step

/-- Settles O35: the rows' stores behind the range check, and the sum of the visits to each byte. -/
theorem idctAddResult : Obligations.IdctAddResult := by
  unfold Obligations.IdctAddResult
  intro s
  have rows := addRow_storesRows (idct2d s.cblk) s.dst
  obtain ⟨inside, outside⟩ := rows.command (i := .idctAdd) rfl
  refine ⟨fun h => ⟨_, inside h, (rows.frame s).2, fun r c hr hc => ?_⟩, outside⟩
  have added := s.rowsAdded_forRows (idct2d s.cblk) s.dst
  have sum := added.sum (r * s.stride + c)
  rw [← Nat.add_assoc] at sum
  exact (State.held_eq_some_readByte (added.written r c hr hc) 0).trans (congrArg some sum)

end Sys2Proof.Machine

/-! The motion-compensation unit and NOP (43_motion_copy.md): a run of bytes copied from one place of the RAMs to
another, and MC_COPY8 as IDCT_PUT's store of a block taken from PREV. -/

namespace Sys2Proof.Machine

/-! ### NOP (43_motion_copy.md R230) -/

theorem State.complete_of_not_srstPend {s : State} (h : s.srstPend = false) :
    s.complete = { s with busy := false, irqDone := true, draws := s.draws + 1 } :=
  if_neg (h ▸ Bool.false_ne_true)

/-- Settles O17: NOP's rule is the completion, and no soft reset follows it. -/
theorem nopOnlyCompletes : Obligations.NopOnlyCompletes := by
  unfold Obligations.NopOnlyCompletes
  intro s hp
  have rule : exec .nop s = .next s.complete := rfl
  rw [rule, State.complete_of_not_srstPend hp]

/-! ### FRAME_COPY (43_motion_copy.md R225) -/

theorem State.getElem?_readBytes (s : State) (tag a : Nat) {n i : Nat} (hi : i < n) :
    (s.readBytes tag a n)[i]? = some (s.readByte tag (a + i)) := by
  simp [State.readBytes, hi]

/-- A copy of `n` bytes. All of them are read before the first is stored, so the two places may even overlap. -/
theorem State.sameOutside_copy (s : State) (tag src dst n : Nat) :
    Memory.sameOutside (inWindow dst n) s.mem (s.mem.writeBytes dst (s.readBytes tag src n)) := by
  intro x hx
  refine Memory.held_writeBytes_outside ?_
  rw [State.length_readBytes]
  simp only [inWindow] at hx
  omega

theorem State.held_copy (s : State) (tag src dst : Nat) {n i : Nat} (hi : i < n) :
    (s.mem.writeBytes dst (s.readBytes tag src n)).held (dst + i) = some (s.readByte tag (src + i)) := by
  rw [Memory.held_writeBytes, if_pos (by rw [State.length_readBytes]; omega), Nat.add_sub_cancel_left,
    s.getElem?_readBytes tag src hi]

/-- Settles O31: each direction is one copy of PX_LEN bytes. -/
theorem frameCopyResult : Obligations.FrameCopyResult := by
  unfold Obligations.FrameCopyResult
  intro dir s
  cases dir with
  | prevToCur => exact ⟨prevBase, curBase, _, fun _ => ⟨rfl, rfl⟩, nofun, rfl, s.sameOutside_copy 0 _ _ _,
      fun _ ha => s.held_copy 0 _ _ ha⟩
  | curToPrev => exact ⟨curBase, prevBase, _, nofun, fun _ => ⟨rfl, rfl⟩, rfl, s.sameOutside_copy 0 _ _ _,
      fun _ ha => s.held_copy 0 _ _ ha⟩

/-! ### The block of PREV (43_motion_copy.md R224) -/

/-- The block of PREV at byte offset `src`, each of its bytes as the word that `putRow` stores as that byte. -/
def State.prevBlock (s : State) (src : Nat) : Block :=
  Line.ofFn fun r => Line.ofFn fun c => (s.readByte r (s.prevRow src r + c)).setWidth 32

theorem State.blockAt_prevBlock (s : State) (src : Nat) {r c : Nat} (hr : r < 8) (hc : c < 8) :
    (blockAt (s.prevBlock src) r c).setWidth 8 = s.readByte r (s.prevRow src r + c) := by
  rw [State.prevBlock, blockAt_ofFn hr _ hc]
  exact BitVec.setWidth_setWidth_of_le _ (by decide)

theorem State.rowBytes_prevBlock (s : State) (src : Nat) {r : Nat} (hr : r < 8) :
    rowBytes (blockRow (s.prevBlock src) r) = s.readBytes r (s.prevRow src r) 8 := by
  refine List.ext_getElem? fun c => ?_
  by_cases hc : c < 8
  · rw [getElem?_rowBytes _ r hc, s.blockAt_prevBlock src hr hc, s.getElem?_readBytes r _ hc]
  · rw [List.getElem?_eq_none (by rw [length_rowBytes]; omega),
      List.getElem?_eq_none (by rw [State.length_readBytes]; omega)]

/-! ### The rows of a copy -/

/-- Two row visits that agree wherever `Inv` holds, which each of them keeps, agree over the eight rows. -/
theorem State.forRows_congr (s : State) {f g : Nat → State → State} {Inv : State → Prop} (h0 : Inv s)
    (hrow : ∀ r t, r < 8 → Inv t → f r t = g r t) (hinv : ∀ r t, r < 8 → Inv t → Inv (g r t)) :
    s.forRows f = s.forRows g := by
  refine (s.forRows_induction f (fun n t => Inv t ∧ t = (List.range n).foldl (fun u r => g r u) s) ⟨h0, rfl⟩ ?_).2
  rintro r t hr ⟨ht, e⟩
  refine ⟨hrow r t hr ht ▸ hinv r t hr ht, ?_⟩
  rw [hrow r t hr ht, List.range_succ, List.foldl_concat, ← e]

/-- What the reads of PREV depend on is as it was. -/
structure State.KeepsPrev (s t : State) : Prop where
  stride : t.pxStride = s.pxStride
  draws : t.draws = s.draws
  held : ∀ x, prevBase ≤ x → t.held x = s.held x

section Copy

variable {s t : State} {src a r : Nat}

theorem State.KeepsPrev.readBytes_eq (h : s.KeepsPrev t) (src r : Nat) :
    t.readBytes r (t.prevRow src r) 8 = s.readBytes r (s.prevRow src r) 8 := by
  have hrow : t.prevRow src r = s.prevRow src r := by simp only [State.prevRow, State.stride, h.stride]
  rw [hrow]
  refine List.map_congr_left fun c _ => State.readByte_congr (h.held _ ?_) h.draws r
  simp only [State.prevRow]
  omega

/-- While PREV is as it was, copying a row is storing the row of PREV's block. -/
theorem State.KeepsPrev.copyRow_eq (h : s.KeepsPrev t) (hr : r < 8) :
    copyRow src a r t = putRow (s.prevBlock src) a r t := by
  rw [copyRow, putRow, h.readBytes_eq, s.rowBytes_prevBlock src hr]

/-- A block of CUR that lies inside a buffer of PXM_BYTES ends before PREV. -/
theorem State.curRow_lt_prevBase (hl : s.LengthsLegal) (hin : s.inBlock a = true) (hr : r < 8) :
    s.curRow a r + 7 < prevBase := by
  have hrow := State.inBlock_row hin hr
  have hlen : s.pxLen.toNat ≤ 2 ^ 24 := hl.2.trans (pxm_facts s.params).1
  simp only [State.curRow, curBase, prevBase]
  omega

theorem State.KeepsPrev.after_putRow (h : s.KeepsPrev t) (hl : s.LengthsLegal) (hin : s.inBlock a = true) (hr : r < 8)
    (y : Block) : s.KeepsPrev (putRow y a r t) where
  stride := h.stride
  draws := h.draws
  held x hx := by
    refine ((putRow_storesRows y a).held_outside fun c hc => ?_).trans (h.held x hx)
    have := State.curRow_lt_prevBase hl hin hr
    rw [State.curRow_congr h.stride]
    omega

/-- Copying a block of PREV into CUR is storing that block as IDCT_PUT stores its outputs. -/
theorem State.forRows_copyRow (hl : s.LengthsLegal) (hin : s.inBlock a = true) :
    s.forRows (copyRow src a) = s.forRows (putRow (s.prevBlock src) a) :=
  s.forRows_congr (Inv := s.KeepsPrev) ⟨rfl, rfl, fun _ _ => rfl⟩ (fun _ _ hr h => h.copyRow_eq hr)
    fun _ _ hr h => h.after_putRow hl hin hr _

end Copy

/-! ### MC_COPY8 (43_motion_copy.md R224) -/

theorem State.inBlock_iff (s : State) (a : Int) :
    s.inBlock a = true ↔ 0 ≤ a ∧ a + 7 * s.pxStride.toNat + 7 < s.pxLen.toNat := decide_eq_true_iff

section McCopy

variable {xoff yoff : BitVec 8} {s : State}

theorem exec_mcCopy8_of_outside (h : ¬ (s.inBlock s.dst = true ∧ s.inBlock (s.mcSrc xoff yoff) = true)) :
    exec (.mcCopy8 xoff yoff) s = .next (s.failedWith 2) :=
  if_neg fun hb => h (Bool.and_eq_true_iff.1 hb)

variable (hdst : s.inBlock s.dst = true) (hsrc : s.inBlock (s.mcSrc xoff yoff) = true)

include hdst hsrc

theorem exec_mcCopy8_of_inside : exec (.mcCopy8 xoff yoff) s =
    if s.mcSrc xoff yoff = s.dst then .next s.complete
    else .next (s.forRows (copyRow (s.mcSrc xoff yoff).toNat s.dst)).complete :=
  if_pos (Bool.and_eq_true_iff.2 ⟨hdst, hsrc⟩)

theorem exec_mcCopy8_of_ne (hl : s.LengthsLegal) (hne : s.mcSrc xoff yoff ≠ s.dst) : exec (.mcCopy8 xoff yoff) s =
    .next (s.forRows (putRow (s.prevBlock (s.mcSrc xoff yoff).toNat) s.dst)).complete := by
  rw [exec_mcCopy8_of_inside hdst hsrc, if_neg hne, State.forRows_copyRow hl hdst]

end McCopy

/-- Settles O30: behind the range check the copy is IDCT_PUT's store of the source block, with its frame and its last
visits. -/
theorem mcCopyResult : Obligations.McCopyResult := by
  unfold Obligations.McCopyResult
  intro xoff yoff s src hl heq
  obtain rfl : src = s.mcSrc xoff yoff := heq
  constructor
  · intro hout
    refine exec_mcCopy8_of_outside fun ⟨hdst, hsrc⟩ => hout ?_
    exact ⟨s.inBlock_dst_iff.1 hdst, (s.inBlock_iff _).1 hsrc⟩
  · intro hdstEnd hnonneg hsrcEnd
    have hdst := s.inBlock_dst_iff.2 hdstEnd
    have hsrc := (s.inBlock_iff _).2 ⟨hnonneg, hsrcEnd⟩
    refine ⟨fun hzero => (exec_mcCopy8_of_inside hdst hsrc).trans (if_pos hzero), fun hne => ?_⟩
    obtain ⟨onlyMem, outside⟩ := (putRow_storesRows (s.prevBlock (s.mcSrc xoff yoff).toNat) s.dst).frame s
    refine ⟨_, ?_, outside, fun r c hr hc hlast => ?_⟩
    · rw [exec_mcCopy8_of_ne hdst hsrc hl hne, ← onlyMem]
    · exact (held_forRows_putRow _ s.dst s hr hc hlast).trans (congrArg some (s.blockAt_prevBlock _ hr hc))

end Sys2Proof.Machine

/-! Binary32 arithmetic (44_audio_transform.md R241 to R244): the value of a pattern, rounding to the nearest number,
and what each operator of the reference instantiation gives. -/

namespace Sys2Proof.Machine

/-! ### Patterns and their values -/

theorem toNat_f32Pack (s : Bool) {n : Nat} (hn : n < 2 ^ 31) : (f32Pack s n).toNat = 2 ^ 31 * s.toNat + n := by
  unfold f32Pack
  rw [toNat_append_eq_add, BitVec.toNat_ofNat, Nat.mod_eq_of_lt hn, BitVec.toNat_ofBool, Nat.mul_comm]

theorem getLsbD_f32Pack (s : Bool) (n : Nat) {i : Nat} (hi : i < 32) :
    (f32Pack s n).getLsbD i = if i = 31 then s else n.testBit i := by
  unfold f32Pack
  rw [BitVec.getLsbD_append, BitVec.getLsbD_ofNat, BitVec.getLsbD_ofBool]
  rcases (by omega : i < 31 ∨ i = 31) with h | rfl
  · simp [h, h.ne]
  · simp

/-- Every pattern is a sign bit and 31 bits below it. -/
theorem exists_f32Pack (x : F32) : ∃ s n, n < 2 ^ 31 ∧ x = f32Pack s n := by
  refine ⟨decide (2 ^ 31 ≤ x.toNat), x.toNat % 2 ^ 31, Nat.mod_lt _ (by decide), BitVec.eq_of_toNat_eq ?_⟩
  rw [toNat_f32Pack _ (Nat.mod_lt _ (by decide))]
  have := x.isLt
  by_cases h : 2 ^ 31 ≤ x.toNat
  · simp only [h, decide_true, Bool.toNat_true]; omega
  · simp only [h, decide_false, Bool.toNat_false]; omega

/-- `⊖` flips bit 31 and no other (44_audio_transform.md R242 item 4). -/
theorem getLsbD_f32Neg (a : F32) {i : Nat} (hi : i < 32) :
    (f32Neg a).getLsbD i = if i = 31 then !a.getLsbD 31 else a.getLsbD i := by
  have bit31 : ∀ i < 32, (0x80000000 : F32).getLsbD i = decide (i = 31) := by decide
  rw [f32Neg, BitVec.getLsbD_xor, bit31 i hi]
  split
  · next h => simp [h]
  · next h => simp [h]

theorem f32Neg_f32Pack (s : Bool) (n : Nat) : f32Neg (f32Pack s n) = f32Pack (!s) n := by
  refine BitVec.eq_of_getLsbD_eq fun i hi => ?_
  rw [getLsbD_f32Neg _ hi, getLsbD_f32Pack s n hi, getLsbD_f32Pack s n (by decide), getLsbD_f32Pack (!s) n hi]
  split <;> rfl

/-- The value of a pattern by its exponent field `n / 2^23` and its fraction. -/
theorem f32Value_f32Pack (s : Bool) {n : Nat} (hn : n < 2 ^ 31) : f32Value (f32Pack s n) =
    if n / 2 ^ 23 = 255 then (if n % 2 ^ 23 = 0 then .inf s else .nan)
    else if n / 2 ^ 23 = 0 then .fin s (n % 2 ^ 23) (-149)
    else .fin s (2 ^ 23 + n % 2 ^ 23) ((n / 2 ^ 23 : Nat) - 150) := by
  have hsign : f32Sign (f32Pack s n) = s := getLsbD_f32Pack s n (by decide)
  have hexp : ((f32Pack s n).extractLsb' 23 8).toNat = n / 2 ^ 23 := by
    rw [BitVec.extractLsb'_toNat, toNat_f32Pack s hn, Nat.shiftRight_eq_div_pow]
    have := s.toNat_le
    omega
  have hfrac : ((f32Pack s n).extractLsb' 0 23).toNat = n % 2 ^ 23 := by
    rw [BitVec.extractLsb'_toNat, toNat_f32Pack s hn, Nat.shiftRight_zero]
    omega
  simp only [f32Value, hsign, hexp, hfrac]

/-- `m` is the significand of a finite number `m·2^(k − 149)` as its pattern has it: `k` is 0 for the subnormal numbers,
and with any other `k` the leading bit is there. -/
structure Significand (m k : Nat) : Prop where
  lt : m < 2 ^ 24
  normal : k = 0 ∨ 2 ^ 23 ≤ m

/-- The finite values: the 31 bits are `k·2^23 + m`. -/
theorem f32Value_f32Pack_finite (s : Bool) {m k : Nat} (h : Significand m k) (hk : k < 254) :
    f32Value (f32Pack s (k * 2 ^ 23 + m)) = .fin s m (k - 149) := by
  obtain ⟨hlt, hnorm⟩ := h
  rw [f32Value_f32Pack s (by omega), if_neg (by omega)]
  split
  · rw [FValue.fin.injEq]
    refine ⟨rfl, ?_, ?_⟩ <;> omega
  · rw [FValue.fin.injEq]
    refine ⟨rfl, ?_, ?_⟩ <;> omega

theorem f32Value_f32Pack_inf (s : Bool) : f32Value (f32Pack s f32InfBits) = .inf s := by cases s <;> rfl

theorem f32_of_fin {x : F32} {s : Bool} {m : Nat} {e : Int} (h : f32Value x = .fin s m e) :
    ∃ k, k < 254 ∧ Significand m k ∧ e = (k : Int) - 149 ∧ x = f32Pack s (k * 2 ^ 23 + m) := by
  obtain ⟨s', n, hn, rfl⟩ := exists_f32Pack x
  rw [f32Value_f32Pack s' hn] at h
  split at h
  · split at h <;> cases h
  · split at h <;> cases h
    · exact ⟨0, by omega, ⟨by omega, .inl rfl⟩, rfl, by congr 1; omega⟩
    · exact ⟨n / 2 ^ 23 - 1, by omega, ⟨by omega, .inr (by omega)⟩, by omega, by congr 1; omega⟩

theorem f32_of_inf {x : F32} {s : Bool} (h : f32Value x = .inf s) : x = f32Pack s f32InfBits := by
  obtain ⟨s', n, hn, rfl⟩ := exists_f32Pack x
  rw [f32Value_f32Pack s' hn] at h
  split at h
  · split at h <;> cases h
    congr 1
    unfold f32InfBits
    omega
  · split at h <;> cases h

theorem f32Value_f32Neg_eq_nan (x : F32) : f32Value (f32Neg x) = .nan ↔ f32Value x = .nan := by
  obtain ⟨s, n, hn, rfl⟩ := exists_f32Pack x
  rw [f32Neg_f32Pack, f32Value_f32Pack _ hn, f32Value_f32Pack _ hn]
  split
  · split <;> simp
  · split <;> simp

/-- The rational number of this sign and this absolute value. -/
def signedRat (s : Bool) (v : Rat) : Rat := if s then -v else v

theorem abs_signedRat (s : Bool) {v : Rat} (hv : 0 ≤ v) : |signedRat s v| = v := by
  cases s <;> simp [signedRat, abs_of_nonneg hv]

theorem f32Rat_of_fin {x : F32} {s : Bool} {m : Nat} {e : Int} (h : f32Value x = .fin s m e) :
    f32Rat x = some (signedRat s (m * 2 ^ e)) := by
  cases s <;> simp [f32Rat, h, signedRat]

theorem f32Rat_eq_some {x : F32} {v : Rat} (h : f32Rat x = some v) :
    ∃ s m e, f32Value x = .fin s m e ∧ v = signedRat s (m * 2 ^ e) := by
  match hx : f32Value x with
  | .fin s m e =>
    rw [f32Rat_of_fin hx, Option.some.injEq] at h
    exact ⟨s, m, e, rfl, h.symm⟩
  | .inf s => simp [f32Rat, hx] at h
  | .nan => simp [f32Rat, hx] at h

/-! ### The nearest integer -/

/-- `q` is the integer nearest `w`, the even one of two. -/
structure NearestInt (w : Rat) (q : Nat) : Prop where
  close : |w - q| ≤ 1 / 2
  tie : |w - q| = 1 / 2 → q % 2 = 0

theorem nearestInt_self (q : Nat) : NearestInt q q := ⟨by simp, by simp⟩

/-- No integer is nearer. -/
theorem NearestInt.le {w : Rat} {q : Nat} (h : NearestInt w q) (j : Int) :
    |(q : Rat) - w| ≤ |j - w| ∧ (|(q : Rat) - w| = |j - w| → (q : Int) = j ∨ q % 2 = 0) := by
  by_cases hj : (q : Int) = j
  · subst hj
    simp
  · have apart : (1 : Rat) ≤ |(q : Rat) - j| := by
      have : (1 : Int) ≤ |(q : Int) - j| := Int.one_le_abs (sub_ne_zero.2 hj)
      exact_mod_cast this
    have triangle : |(q : Rat) - j| ≤ |(q : Rat) - w| + |j - w| := by
      rw [abs_sub_comm (j : Rat) w]
      exact abs_sub_le _ _ _
    have close : |(q : Rat) - w| ≤ 1 / 2 := abs_sub_comm w (q : Rat) ▸ h.close
    refine ⟨by linarith, fun heq => .inr (h.tie ?_)⟩
    rw [abs_sub_comm]
    linarith

/-- A quotient is within one half of `q` where its numerator lies between the odd multiples of half the denominator. -/
theorem nearestInt_div_iff {x d : Rat} (hd : 0 < d) {q : Nat} : NearestInt (x / d) q ↔
    ((2 * q - 1) * d ≤ 2 * x ∧ 2 * x ≤ (2 * q + 1) * d) ∧
      (2 * x = (2 * q - 1) * d ∨ 2 * x = (2 * q + 1) * d → q % 2 = 0) := by
  obtain ⟨w, rfl⟩ : ∃ w, x = w * d := ⟨x / d, (div_mul_cancel₀ x hd.ne').symm⟩
  have half : (2 : Rat) * (w * d) = 2 * w * d := by ring
  rw [mul_div_cancel_right₀ w hd.ne', half, mul_le_mul_iff_left₀ hd, mul_le_mul_iff_left₀ hd,
    mul_left_inj' hd.ne', mul_left_inj' hd.ne']
  have close : |w - q| ≤ 1 / 2 ↔ 2 * (q : Rat) - 1 ≤ 2 * w ∧ 2 * w ≤ 2 * q + 1 := by
    rw [abs_le]
    constructor <;> rintro ⟨h, h'⟩ <;> constructor <;> linarith
  have tie : |w - q| = 1 / 2 ↔ 2 * w = 2 * q - 1 ∨ 2 * w = 2 * (q : Rat) + 1 := by
    rw [abs_eq (by norm_num)]
    constructor <;> rintro (h | h)
    · exact .inr (by linarith)
    · exact .inl (by linarith)
    · exact .inr (by linarith)
    · exact .inl (by linarith)
  rw [← close, ← tie]
  exact ⟨fun h => ⟨h.close, h.tie⟩, fun h => ⟨h.1, h.2⟩⟩

theorem NearestInt.bounds {w : Rat} {q : Nat} (h : NearestInt w q) : 2 * (q : Rat) - 1 ≤ 2 * w ∧ 2 * w ≤ 2 * q + 1 := by
  have := abs_le.1 h.close
  constructor <;> linarith

theorem NearestInt.le_nat {w : Rat} {q n : Nat} (h : NearestInt w q) (hw : w < n) : q ≤ n := by
  by_contra hq
  have : ((n + 1 : Nat) : Rat) ≤ q := by exact_mod_cast Nat.lt_of_not_le hq
  push_cast at this
  linarith [h.bounds.1]

theorem NearestInt.nat_le {w : Rat} {q n : Nat} (h : NearestInt w q) (hw : n ≤ w) : n ≤ q := by
  by_contra hq
  have : ((q + 1 : Nat) : Rat) ≤ n := by exact_mod_cast Nat.lt_of_not_le hq
  push_cast at this
  linarith [h.bounds.2]

theorem roundShift_zero (m : Nat) : roundShift m 0 = m := by simp [roundShift, Nat.mod_one]

theorem nearestInt_roundShift (m k : Nat) : NearestInt (m / 2 ^ k) (roundShift m k) := by
  have hdiv : (m : Rat) = 2 ^ k * (m / 2 ^ k : Nat) + (m % 2 ^ k : Nat) := by exact_mod_cast (Nat.div_add_mod m _).symm
  have hmod : m % 2 ^ k < 2 ^ k := Nat.mod_lt m (by positivity)
  rw [nearestInt_div_iff (by positivity), hdiv]
  unfold roundShift
  simp only
  generalize m / 2 ^ k = q, m % 2 ^ k = r at hmod ⊢
  split
  · next hup =>
    have hr : (2 : Rat) ^ k ≤ 2 * r := by exact_mod_cast (by omega : 2 ^ k ≤ 2 * r)
    have hr' : (r : Rat) < 2 ^ k := by exact_mod_cast hmod
    push_cast
    refine ⟨⟨by linarith, by linarith⟩, ?_⟩
    rintro (h | h)
    · have : 2 * r = 2 ^ k := by exact_mod_cast (by linarith : (2 : Rat) * r = 2 ^ k)
      omega
    · linarith
  · next hdown =>
    have hr : (2 : Rat) * r ≤ 2 ^ k := by exact_mod_cast (by omega : 2 * r ≤ 2 ^ k)
    have hr' : (0 : Rat) ≤ r := r.cast_nonneg
    have hk : (0 : Rat) < 2 ^ k := by positivity
    refine ⟨⟨by linarith, by linarith⟩, ?_⟩
    rintro (h | h)
    · linarith
    · have : 2 * r = 2 ^ k := by exact_mod_cast (by linarith : (2 : Rat) * r = 2 ^ k)
      omega

/-- `m` stands for `x` wherever it is compared with an even integer: what the sticky bit of a quotient is for. -/
structure StandsFor (m : Nat) (x : Rat) : Prop where
  le_iff (a : Nat) : 2 * a ≤ x ↔ 2 * a ≤ m
  ge_iff (a : Nat) : x ≤ 2 * a ↔ m ≤ 2 * a

theorem StandsFor.nearestInt {m k q : Nat} {x : Rat} (hx : StandsFor m x) (hk : 2 ≤ k)
    (h : NearestInt (m / 2 ^ k) q) : NearestInt (x / 2 ^ k) q := by
  obtain ⟨j, rfl⟩ := Nat.exists_eq_add_of_le' hk
  have hpos : (0 : Rat) < 2 ^ (j + 2) := by positivity
  have cast (c : Nat) : (c : Rat) * 2 ^ (j + 2) = 2 * (2 * (c * 2 ^ j : Nat)) := by push_cast; ring
  have le_iff (c : Nat) : c * 2 ^ (j + 2) ≤ 2 * x ↔ (c : Rat) * 2 ^ (j + 2) ≤ 2 * m := by
    rw [cast, mul_le_mul_iff_right₀ two_pos, mul_le_mul_iff_right₀ two_pos, hx.le_iff]
    exact_mod_cast Iff.rfl
  have ge_iff (c : Nat) : 2 * x ≤ c * 2 ^ (j + 2) ↔ 2 * (m : Rat) ≤ c * 2 ^ (j + 2) := by
    rw [cast, mul_le_mul_iff_right₀ two_pos, mul_le_mul_iff_right₀ two_pos, hx.ge_iff]
    exact_mod_cast Iff.rfl
  have eq_iff (c : Nat) : 2 * x = c * 2 ^ (j + 2) ↔ 2 * (m : Rat) = c * 2 ^ (j + 2) := by
    rw [le_antisymm_iff, le_antisymm_iff, le_iff, ge_iff]
  have upper : (2 : Rat) * q + 1 = (2 * q + 1 : Nat) := by push_cast; rfl
  rw [nearestInt_div_iff hpos] at h ⊢
  cases q with
  | zero =>
    have hx0 : 0 ≤ x := by simpa using (hx.le_iff 0).2 (by omega)
    have below : (2 * (0 : Nat) - 1) * 2 ^ (j + 2) < 2 * x := by
      rw [Nat.cast_zero, mul_zero, zero_sub, neg_one_mul]
      linarith
    rw [upper] at h ⊢
    exact ⟨⟨below.le, (ge_iff _).2 h.1.2⟩, fun _ => rfl⟩
  | succ p =>
    have lower : 2 * ((p + 1 : Nat) : Rat) - 1 = (2 * p + 1 : Nat) := by push_cast; ring
    rw [upper, lower] at h ⊢
    rw [le_iff, ge_iff, eq_iff, eq_iff]
    exact h

theorem standsFor_stickyQuotient (m : Nat) {n : Nat} (hn : 0 < n) :
    StandsFor (stickyQuotient m n) (m / n * 2 ^ 65) := by
  have hn' : (0 : Rat) < n := by exact_mod_cast hn
  have key : (m : Rat) / n * 2 ^ 65 = 2 * ((m * 2 ^ 64 : Nat) / n) := by push_cast; ring
  rw [key]
  unfold stickyQuotient
  generalize m * 2 ^ 64 = p
  constructor
  · intro a
    have quot : (a : Rat) ≤ p / n ↔ a ≤ p / n := by
      rw [le_div_iff₀ hn', Nat.le_div_iff_mul_le hn]
      exact_mod_cast Iff.rfl
    rw [mul_le_mul_iff_right₀ two_pos, quot]
    split <;> omega
  · intro a
    have quot : (p : Rat) / n ≤ a ↔ p ≤ a * n := by
      rw [div_le_iff₀ hn']
      exact_mod_cast Iff.rfl
    rw [mul_le_mul_iff_right₀ two_pos, quot]
    split
    · next hexact =>
      rw [← Nat.div_le_iff_le_mul_of_dvd hn.ne' (Nat.dvd_of_mod_eq_zero hexact)]
      omega
    · next inexact =>
      have hne : p ≠ a * n := fun h => inexact (h ▸ Nat.mul_mod_left a n)
      have := Nat.div_lt_iff_lt_mul hn (x := p) (y := a)
      omega

/-! ### Rounding -/

/-- The last place of the numbers whose exponent field's place is `k`. -/
def lastPlace (k : Nat) : Rat := 2 ^ ((k : Int) - 149)

theorem lastPlace_pos (k : Nat) : 0 < lastPlace k := zpow_pos two_pos _

theorem lastPlace_add (k j : Nat) : lastPlace (k + j) = 2 ^ j * lastPlace k := by
  unfold lastPlace
  rw [← zpow_natCast, ← zpow_add₀ two_ne_zero]
  congr 1
  push_cast
  ring

theorem lastPlace_mono {k j : Nat} (h : k ≤ j) : lastPlace k ≤ lastPlace j :=
  zpow_le_zpow_right₀ one_le_two (by omega)

theorem lastPlace_253 : lastPlace 253 = 2 * 2 ^ 103 := by norm_num [lastPlace]

/-- A rounded significand may have reached `2^24`: the sum with the exponent field carries, and the value is right. -/
theorem f32Rat_f32Pack (s : Bool) {k q : Nat} (hq : q ≤ 2 ^ 24) (hnormal : k = 0 ∨ 2 ^ 23 ≤ q)
    (hfin : k * 2 ^ 23 + q < f32InfBits) :
    f32Rat (f32Pack s (k * 2 ^ 23 + q)) = some (signedRat s (q * lastPlace k)) := by
  unfold f32InfBits at hfin
  rcases hq.lt_or_eq with hlt | rfl
  · exact f32Rat_of_fin (f32Value_f32Pack_finite s ⟨hlt, hnormal⟩ (by omega))
  · have carry : k * 2 ^ 23 + 2 ^ 24 = (k + 1) * 2 ^ 23 + 2 ^ 23 := by ring
    have value : ((2 ^ 24 : Nat) : Rat) * lastPlace k = (2 ^ 23 : Nat) * lastPlace (k + 1) := by
      rw [lastPlace_add]
      push_cast
      ring
    rw [carry, value]
    exact f32Rat_of_fin (f32Value_f32Pack_finite s ⟨by omega, .inr le_rfl⟩ (by omega))

/-- A number is a multiple of the last place at `k`, or it is smaller than the normal numbers there. -/
def OnGrid (k : Nat) (v : Rat) : Prop := (∃ j : Int, v = j * lastPlace k) ∨ (k ≠ 0 ∧ |v| < 2 ^ 23 * lastPlace k)

theorem OnGrid.signedRat {k : Nat} {v : Rat} (h : OnGrid k v) (s : Bool) : OnGrid k (signedRat s v) := by
  cases s with
  | false => exact h
  | true =>
    rcases h with ⟨j, rfl⟩ | ⟨hk, hv⟩
    · exact .inl ⟨-j, by simp [Machine.signedRat]⟩
    · exact .inr ⟨hk, by simpa [Machine.signedRat] using hv⟩

theorem onGrid_of_f32Rat {y : F32} {v : Rat} (h : f32Rat y = some v) (k : Nat) : OnGrid k v := by
  obtain ⟨s, m, e, hy, rfl⟩ := f32Rat_eq_some h
  obtain ⟨i, -, ⟨hlt, -⟩, rfl, -⟩ := f32_of_fin hy
  refine OnGrid.signedRat ?_ s
  change OnGrid k (m * lastPlace i)
  rcases le_or_gt k i with hki | hik
  · obtain ⟨j, rfl⟩ := Nat.exists_eq_add_of_le hki
    exact .inl ⟨m * 2 ^ j, by rw [lastPlace_add]; push_cast; ring⟩
  · obtain ⟨k, rfl⟩ : ∃ k', k = k' + 1 := ⟨k - 1, by omega⟩
    refine .inr ⟨k.succ_ne_zero, ?_⟩
    have hm : (m : Rat) < 2 ^ 24 := by exact_mod_cast hlt
    rw [abs_of_nonneg (mul_nonneg m.cast_nonneg (lastPlace_pos i).le)]
    calc (m : Rat) * lastPlace i ≤ m * lastPlace k := by gcongr; exact lastPlace_mono (by omega)
      _ < 2 ^ 24 * lastPlace k := by gcongr; exact lastPlace_pos k
      _ = 2 ^ 23 * lastPlace (k + 1) := by rw [lastPlace_add]; ring

section Nearest

variable {w : Rat} {k q : Nat} (hnormal : k = 0 ∨ 2 ^ 23 ≤ w) (hq : NearestInt w q)

include hnormal hq

/-- No number is nearer to `w` last places than `q` last places. -/
theorem nearest_of_onGrid {v : Rat} (hv : OnGrid k v) :
    |q * lastPlace k - w * lastPlace k| ≤ |v - w * lastPlace k| ∧
      (|q * lastPlace k - w * lastPlace k| = |v - w * lastPlace k| → q * lastPlace k = v ∨ q % 2 = 0) := by
  have hpos := lastPlace_pos k
  have scale (a : Rat) : |a * lastPlace k - w * lastPlace k| = |a - w| * lastPlace k := by
    rw [← sub_mul, abs_mul, abs_of_pos hpos]
  rcases hv with ⟨j, rfl⟩ | ⟨hk, hv⟩
  · obtain ⟨hle, htie⟩ := hq.le j
    rw [scale, scale, mul_le_mul_iff_left₀ hpos, mul_left_inj' hpos.ne']
    refine ⟨hle, fun h => (htie h).imp (fun hj => ?_) id⟩
    rw [← hj]
    rfl
  · have hw : 2 ^ 23 ≤ w := hnormal.resolve_left hk
    have least : |q - w| ≤ w - 2 ^ 23 := by
      have := (hq.le (2 ^ 23)).1
      rwa [Int.cast_pow, Int.cast_ofNat, abs_sub_comm (2 ^ 23) w, abs_of_nonneg (sub_nonneg.2 hw)] at this
    have closer : |q * lastPlace k - w * lastPlace k| < |v - w * lastPlace k| := by
      calc |q * lastPlace k - w * lastPlace k| ≤ (w - 2 ^ 23) * lastPlace k := by rw [scale]; gcongr
        _ = w * lastPlace k - 2 ^ 23 * lastPlace k := sub_mul _ _ _
        _ < w * lastPlace k - v := by linarith [le_abs_self v]
        _ ≤ |v - w * lastPlace k| := by rw [abs_sub_comm]; exact le_abs_self _
    exact ⟨closer.le, fun h => absurd h closer.ne⟩

/-- Rounding reaches an infinity from half a last place below `2^128` on. -/
theorem f32InfBits_le_iff (hlt : w < 2 ^ 24) :
    f32InfBits ≤ k * 2 ^ 23 + q ↔ (2 ^ 25 - 1) * 2 ^ 103 ≤ w * lastPlace k := by
  have hq24 : q ≤ 2 ^ 24 := hq.le_nat (by exact_mod_cast hlt)
  obtain ⟨lower, upper⟩ := hq.bounds
  unfold f32InfBits
  rcases lt_trichotomy k 253 with hk | rfl | hk
  · have hplace : 2 * lastPlace k ≤ lastPlace 253 := by
      have := lastPlace_mono (show k + 1 ≤ 253 from hk)
      rwa [lastPlace_add, pow_one] at this
    rw [lastPlace_253] at hplace
    have hpos := lastPlace_pos k
    have small : w * lastPlace k < 2 ^ 24 * lastPlace k := by gcongr
    exact iff_of_false (by omega) (by linarith)
  · rw [lastPlace_253]
    constructor
    · intro h
      have : ((2 ^ 24 : Nat) : Rat) ≤ q := by exact_mod_cast (by omega : 2 ^ 24 ≤ q)
      push_cast at this
      linarith
    · intro h
      have hw : (2 : Rat) ^ 25 - 1 ≤ 2 * w := by linarith
      by_contra hlow
      have hq' : q ≤ 2 ^ 24 - 1 := by omega
      have : (q : Rat) ≤ (2 ^ 24 - 1 : Nat) := by exact_mod_cast hq'
      push_cast at this
      have : q = 2 ^ 24 - 1 := by
        have : ((2 ^ 24 - 1 : Nat) : Rat) ≤ q := by push_cast; linarith
        exact le_antisymm hq' (by exact_mod_cast this)
      have := hq.tie (by rw [abs_of_nonneg] <;> linarith)
      omega
  · have hplace := lastPlace_mono (show 253 + 1 ≤ k from hk)
    rw [lastPlace_add, lastPlace_253] at hplace
    have hw : 2 ^ 23 ≤ w := hnormal.resolve_left (by omega)
    have hq23 : 2 ^ 23 ≤ q := hq.nat_le (by exact_mod_cast hw)
    have large : 2 ^ 23 * lastPlace k ≤ w * lastPlace k := by gcongr
    exact iff_of_true (by omega) (by linarith)

end Nearest

theorem abs_signedRat_sub (s : Bool) (a b : Rat) : |signedRat s a - signedRat s b| = |a - b| := by
  cases s with
  | false => rfl
  | true => rw [abs_sub_comm a b]; congr 1; simp only [signedRat, if_true]; ring

theorem signedRat_signedRat (s : Bool) (a : Rat) : signedRat s (signedRat s a) = a := by
  cases s <;> simp [signedRat]

/-- The number with significand `w` rounded to `q` at place `k`. -/
theorem roundsTo_f32Pack (s : Bool) {w : Rat} {k q : Nat} (h0 : 0 ≤ w) (hlt : w < 2 ^ 24) (hnormal : k = 0 ∨ 2 ^ 23 ≤ w)
    (hq : NearestInt w q) :
    roundsTo (signedRat s (w * lastPlace k)) (f32Pack s (min (k * 2 ^ 23 + q) f32InfBits)) := by
  have overflow := f32InfBits_le_iff hnormal hq hlt
  unfold roundsTo
  rw [abs_signedRat s (mul_nonneg h0 (lastPlace_pos k).le)]
  constructor
  · intro h
    have hpos : 0 < w * lastPlace k := lt_of_lt_of_le (by norm_num) h
    have hsign : decide (signedRat s (w * lastPlace k) < 0) = s := by
      cases s <;> simp only [signedRat] <;> simp [hpos, hpos.le]
    rw [min_eq_right (overflow.2 h), f32Value_f32Pack_inf, hsign]
  · intro h
    have hfin : k * 2 ^ 23 + q < f32InfBits := Nat.lt_of_not_le (overflow.not.2 (not_le.2 h))
    have hrat := f32Rat_f32Pack s (hq.le_nat (by exact_mod_cast hlt))
      (hnormal.imp id fun hw => hq.nat_le (by exact_mod_cast hw)) hfin
    rw [min_eq_left hfin.le]
    refine ⟨_, hrat, fun y vy hy => ?_⟩
    obtain ⟨v, rfl⟩ : ∃ v, vy = signedRat s v := ⟨_, (signedRat_signedRat s vy).symm⟩
    have hgrid : OnGrid k v := signedRat_signedRat s v ▸ (onGrid_of_f32Rat hy k).signedRat s
    obtain ⟨hle, htie⟩ := nearest_of_onGrid hnormal hq hgrid
    rw [abs_signedRat_sub, abs_signedRat_sub]
    refine ⟨hle, fun h => (htie h).imp (congrArg _) fun heven => ?_⟩
    rw [getLsbD_f32Pack _ _ (by decide), if_neg (by decide), Nat.testBit_zero, decide_eq_false_iff_not]
    omega

/-- The place of the last bit that `f32Round` keeps: the numbers there reach up to `m·2^e`, and no
lower place would do. -/
theorem f32Ulp_spec (m : Nat) (e : Int) : ∃ k : Nat, f32Ulp m e = (k : Int) - 149 ∧
    (m.log2 : Int) + e - 23 ≤ (k : Int) - 149 ∧ (k = 0 ∨ (m.log2 : Int) + e - 23 = (k : Int) - 149) := by
  refine ⟨(f32Ulp m e + 149).toNat, ?_⟩
  unfold f32Ulp
  omega

section Round

variable (s : Bool) {m k j : Nat} {e : Int} (hm : m ≠ 0) (hu : f32Ulp m e = (k : Int) - 149)

theorem f32Round_zero (e : Int) : f32Round s 0 e = f32Pack s 0 := rfl

include hm hu

/-- Rounding where the number has no bit below the last place. -/
theorem f32Round_of_le (hj : (k : Int) - 149 + j = e) :
    f32Round s m e = f32Pack s (min (k * 2 ^ 23 + m * 2 ^ j) f32InfBits) := by
  have place : ((k : Int) - 149 + 149).toNat = k := by omega
  have shift : (e - ((k : Int) - 149)).toNat = j := by omega
  rw [f32Round, if_neg hm]
  simp only [hu, place, shift]
  rw [if_pos (by omega)]

/-- Rounding where `j` bits lie below the last place. -/
theorem f32Round_of_ge (hj : (k : Int) - 149 = e + j) :
    f32Round s m e = f32Pack s (min (k * 2 ^ 23 + roundShift m j) f32InfBits) := by
  rcases Nat.eq_zero_or_pos j with rfl | hpos
  · rw [roundShift_zero, f32Round_of_le s hm hu (j := 0) (by omega), Nat.pow_zero, Nat.mul_one]
  · have place : ((k : Int) - 149 + 149).toNat = k := by omega
    have shift : ((k : Int) - 149 - e).toNat = j := by omega
    rw [f32Round, if_neg hm]
    simp only [hu, place, shift]
    rw [if_neg (by omega)]

end Round

/-- What a nonzero significand stands for has the significand's leading bit. -/
theorem log2_bounds {m : Nat} {x : Rat} (hm : m ≠ 0) (hx : x = m ∨ 2 ^ 25 ≤ m ∧ StandsFor m x) :
    2 ^ m.log2 ≤ x ∧ x < 2 * 2 ^ m.log2 := by
  have lower : 2 ^ m.log2 ≤ m := Nat.log2_self_le hm
  have upper : m < 2 * 2 ^ m.log2 := by rw [← Nat.pow_succ']; exact Nat.lt_log2_self
  rcases hx with rfl | ⟨hlarge, hx⟩
  · exact ⟨by exact_mod_cast lower, by exact_mod_cast upper⟩
  · obtain ⟨l, hl⟩ : ∃ l, m.log2 = l + 1 := Nat.exists_eq_succ_of_ne_zero fun h => by rw [h] at upper; omega
    have below := (hx.le_iff (2 ^ l)).2 (by rw [← Nat.pow_succ', Nat.succ_eq_add_one, ← hl]; exact lower)
    have above := (hx.le_iff (2 ^ m.log2)).not.2 (by omega)
    push_cast at below above
    exact ⟨by rw [hl, pow_succ']; exact below, not_le.1 above⟩

/-- The number `x·2^e` counted in last places at `k`. -/
def inPlaces (x : Rat) (e : Int) (k : Nat) : Rat := x * 2 ^ (e - (k - 149))

section InPlaces

variable {x : Rat} {e : Int} {k j l : Nat}

theorem inPlaces_mul_lastPlace (x : Rat) (e : Int) (k : Nat) : inPlaces x e k * lastPlace k = x * 2 ^ e := by
  rw [inPlaces, lastPlace, mul_assoc, ← zpow_add₀ two_ne_zero, sub_add_cancel]

theorem inPlaces_of_le (h : (k : Int) - 149 + j = e) : inPlaces x e k = x * 2 ^ j := by
  rw [inPlaces, show e - (k - 149) = (j : Int) by omega, zpow_natCast]

theorem inPlaces_of_ge (h : (k : Int) - 149 = e + j) : inPlaces x e k = x / 2 ^ j := by
  rw [inPlaces, show e - (k - 149) = -(j : Int) by omega, zpow_neg, zpow_natCast, div_eq_mul_inv]

theorem inPlaces_two_pow (e : Int) (k l : Nat) : inPlaces (2 ^ l) e k = 2 ^ ((l : Int) + e - (k - 149)) := by
  rw [inPlaces, ← zpow_natCast, ← zpow_add₀ two_ne_zero, add_sub_assoc]

/-- At the place that `f32Round` takes, a number has at most 24 bits, and 24 if it is normal. -/
theorem inPlaces_bounds (hlow : 2 ^ l ≤ x) (hhigh : x < 2 * 2 ^ l) (hle : (l : Int) + e - 23 ≤ (k : Int) - 149)
    (hnormal : k = 0 ∨ (l : Int) + e - 23 = (k : Int) - 149) :
    0 ≤ inPlaces x e k ∧ inPlaces x e k < 2 ^ 24 ∧ (k = 0 ∨ 2 ^ 23 ≤ inPlaces x e k) := by
  have hpos : (0 : Rat) < 2 ^ (e - (k - 149)) := zpow_pos two_pos _
  have lower : inPlaces (2 ^ l) e k ≤ inPlaces x e k := mul_le_mul_of_nonneg_right hlow hpos.le
  have upper : inPlaces x e k < 2 * inPlaces (2 ^ l) e k :=
    (mul_lt_mul_of_pos_right hhigh hpos).trans_eq (mul_assoc _ _ _)
  rw [inPlaces_two_pow] at lower upper
  refine ⟨(zpow_pos two_pos _).le.trans lower, ?_, hnormal.imp id fun h => ?_⟩
  · calc inPlaces x e k < 2 * 2 ^ ((l : Int) + e - (k - 149)) := upper
      _ ≤ 2 * 2 ^ (23 : Int) := by gcongr <;> [norm_num; omega]
      _ = 2 ^ 24 := by norm_num
  · rwa [show (l : Int) + e - (k - 149) = (23 : Nat) by omega, zpow_natCast] at lower

end InPlaces

/-- Rounding gives the number nearest to what its significand stands for. -/
theorem roundsTo_f32Round (s : Bool) {m : Nat} {x : Rat} (e : Int) (hx : x = m ∨ 2 ^ 25 ≤ m ∧ StandsFor m x) :
    roundsTo (signedRat s (x * 2 ^ e)) (f32Round s m e) := by
  by_cases hm : m = 0
  · subst hm
    obtain rfl : x = 0 := by simpa using hx
    have := roundsTo_f32Pack s (k := 0) le_rfl (by norm_num) (.inl rfl) (nearestInt_self 0)
    rw [f32Round_zero, zero_mul]
    rwa [zero_mul] at this
  · obtain ⟨k, hu, hle, hplace⟩ := f32Ulp_spec m e
    obtain ⟨lower, upper⟩ := log2_bounds hm hx
    obtain ⟨h0, hlt, hnormal⟩ := inPlaces_bounds lower upper hle hplace
    have hlog : 2 ^ 25 ≤ m → 25 ≤ m.log2 := (Nat.le_log2 hm).2
    rw [← inPlaces_mul_lastPlace x e k]
    rcases le_or_gt ((k : Int) - 149) e with hj | hj
    · obtain ⟨j, hj⟩ := Int.le.dest hj
      obtain rfl : x = m := hx.resolve_right fun h => by have := hlog h.1; omega
      have integer : inPlaces m e k = (m * 2 ^ j : Nat) := by rw [inPlaces_of_le hj, Nat.cast_mul, Nat.cast_pow]; rfl
      rw [f32Round_of_le s hm hu hj]
      exact roundsTo_f32Pack s h0 hlt hnormal (integer ▸ nearestInt_self _)
    · obtain ⟨j, hj'⟩ := Int.le.dest hj.le
      rw [f32Round_of_ge s hm hu hj'.symm]
      refine roundsTo_f32Pack s h0 hlt hnormal (inPlaces_of_ge hj'.symm ▸ ?_)
      rcases hx with rfl | ⟨hlarge, hx⟩
      · exact nearestInt_roundShift m j
      · exact hx.nearestInt (by have := hlog hlarge; omega) (nearestInt_roundShift m j)

/-! ### The operators on finite numbers -/

theorem signedScaled_cast (s : Bool) (m : Nat) {e g : Int} (h : g ≤ e) :
    (signedScaled s m (e - g).toNat : Rat) * 2 ^ g = signedRat s (m * 2 ^ e) := by
  obtain ⟨j, rfl⟩ := Int.le.dest h
  rw [add_sub_cancel_left, Int.toNat_natCast, zpow_add₀ two_ne_zero, zpow_natCast]
  cases s <;> simp only [signedScaled, signedRat, if_true, Bool.false_eq_true, if_false] <;> push_cast <;> ring

theorem signedRat_natAbs (i : Int) (v : Rat) : signedRat (decide (i < 0)) (i.natAbs * v) = i * v := by
  rw [Nat.cast_natAbs]
  rcases lt_or_ge i 0 with h | h
  · simp [signedRat, h, abs_of_neg]
  · simp [signedRat, h.not_gt, abs_of_nonneg h]

theorem signedRat_zero (s : Bool) : signedRat s 0 = 0 := by cases s <;> simp [signedRat]

theorem signedRat_mul (s t : Bool) (a b : Rat) : signedRat s a * signedRat t b = signedRat (s ^^ t) (a * b) := by
  cases s <;> cases t <;> simp [signedRat]

theorem signedRat_div (s t : Bool) (a b : Rat) : signedRat s a / signedRat t b = signedRat (s ^^ t) (a / b) := by
  cases s <;> cases t <;> simp [signedRat, neg_div, div_neg]

theorem roundsTo_zero (s : Bool) : roundsTo 0 (f32Pack s 0) := by
  have := roundsTo_f32Round s (m := 0) 0 (.inl rfl)
  rwa [f32Round_zero, Nat.cast_zero, zero_mul, signedRat_zero] at this

section Finite

variable {a b : F32} {s t : Bool} {m n : Nat} {e f : Int} (ha : f32Value a = .fin s m e) (hb : f32Value b = .fin t n f)

include ha hb

theorem f32Add_of_fin : f32Add a b =
    if signedScaled s m (e - min e f).toNat + signedScaled t n (f - min e f).toNat = 0 then f32Pack (s && t) 0
    else f32Round (decide (signedScaled s m (e - min e f).toNat + signedScaled t n (f - min e f).toNat < 0))
      (signedScaled s m (e - min e f).toNat + signedScaled t n (f - min e f).toNat).natAbs (min e f) := by
  simp only [f32Add, ha, hb]

theorem f32Mul_of_fin : f32Mul a b = f32Round (s ^^ t) (m * n) (e + f) := by
  simp only [f32Mul, ha, hb]

theorem f32Div_of_fin (hn : n ≠ 0) : f32Div a b = f32Round (s ^^ t) (stickyQuotient m n) (e - f - 65) := by
  simp only [f32Div, ha, hb, hn, if_false]

end Finite

theorem roundsTo_f32Add {a b : F32} {va vb : Rat} (ha : f32Rat a = some va) (hb : f32Rat b = some vb) :
    roundsTo (va + vb) (f32Add a b) := by
  obtain ⟨s, m, e, hx, rfl⟩ := f32Rat_eq_some ha
  obtain ⟨t, n, f, hy, rfl⟩ := f32Rat_eq_some hb
  rw [f32Add_of_fin hx hy, ← signedScaled_cast s m (min_le_left e f), ← signedScaled_cast t n (min_le_right e f),
    ← add_mul, ← Int.cast_add]
  generalize signedScaled s m _ + signedScaled t n _ = sum
  split
  · next h =>
    rw [h, Int.cast_zero, zero_mul]
    exact roundsTo_zero _
  · rw [← signedRat_natAbs]
    exact roundsTo_f32Round _ _ (.inl rfl)

theorem f32Rat_f32Neg {a : F32} {v : Rat} (h : f32Rat a = some v) : f32Rat (f32Neg a) = some (-v) := by
  obtain ⟨s, m, e, hx, rfl⟩ := f32Rat_eq_some h
  obtain ⟨k, hk, hm, rfl, rfl⟩ := f32_of_fin hx
  rw [f32Neg_f32Pack, f32Rat_of_fin (f32Value_f32Pack_finite _ hm hk)]
  cases s <;> simp [signedRat]

theorem roundsTo_f32Sub {a b : F32} {va vb : Rat} (ha : f32Rat a = some va) (hb : f32Rat b = some vb) :
    roundsTo (va - vb) (f32Sub a b) :=
  sub_eq_add_neg va vb ▸ roundsTo_f32Add ha (f32Rat_f32Neg hb)

theorem roundsTo_f32Mul {a b : F32} {va vb : Rat} (ha : f32Rat a = some va) (hb : f32Rat b = some vb) :
    roundsTo (va * vb) (f32Mul a b) := by
  obtain ⟨s, m, e, hx, rfl⟩ := f32Rat_eq_some ha
  obtain ⟨t, n, f, hy, rfl⟩ := f32Rat_eq_some hb
  have product : (m : Rat) * 2 ^ e * (n * 2 ^ f) = (m * n : Nat) * 2 ^ (e + f) := by
    rw [zpow_add₀ two_ne_zero]
    push_cast
    ring
  rw [f32Mul_of_fin hx hy, signedRat_mul, product]
  exact roundsTo_f32Round _ _ (.inl rfl)

/-- The quotient has enough bits for its sticky bit to stand below every bit that rounding looks at. -/
theorem two_pow_le_stickyQuotient {m n : Nat} (hm : m ≠ 0) (hn : 0 < n) (hlt : n < 2 ^ 24) :
    2 ^ 25 ≤ stickyQuotient m n := by
  have : 2 ^ 24 ≤ m * 2 ^ 64 / n := by
    rw [Nat.le_div_iff_mul_le hn]
    calc 2 ^ 24 * n ≤ 1 * 2 ^ 64 := by omega
      _ ≤ m * 2 ^ 64 := Nat.mul_le_mul_right _ (Nat.pos_of_ne_zero hm)
  unfold stickyQuotient
  omega

theorem roundsTo_f32Div {a b : F32} {va vb : Rat} (ha : f32Rat a = some va) (hb : f32Rat b = some vb) (h0 : vb ≠ 0) :
    roundsTo (va / vb) (f32Div a b) := by
  obtain ⟨s, m, e, hx, rfl⟩ := f32Rat_eq_some ha
  obtain ⟨t, n, f, hy, rfl⟩ := f32Rat_eq_some hb
  have hn : n ≠ 0 := by
    rintro rfl
    exact h0 (by rw [Nat.cast_zero, zero_mul, signedRat_zero])
  obtain ⟨-, -, ⟨hlt, -⟩, -⟩ := f32_of_fin hy
  have quotient : (m : Rat) * 2 ^ e / (n * 2 ^ f) = m / n * 2 ^ 65 * 2 ^ (e - f - 65) := by
    rw [mul_assoc, ← zpow_natCast, ← zpow_add₀ two_ne_zero, mul_div_mul_comm, ← zpow_sub₀ two_ne_zero]
    congr 2
    push_cast
    ring
  rw [f32Div_of_fin hx hy hn, signedRat_div, quotient]
  refine roundsTo_f32Round _ _ ?_
  by_cases hm : m = 0
  · subst hm
    exact .inl (by simp [stickyQuotient])
  · exact .inr ⟨two_pow_le_stickyQuotient hm (Nat.pos_of_ne_zero hn) hlt,
      standsFor_stickyQuotient m (Nat.pos_of_ne_zero hn)⟩

/-! ### Exact results -/

theorem roundShift_mul_two (m k : Nat) : roundShift (m * 2) (k + 1) = roundShift m k := by
  unfold roundShift
  simp only
  rw [Nat.pow_succ, Nat.mul_div_mul_right _ _ two_pos, Nat.mul_mod_mul_right]
  generalize 2 ^ k = d
  exact if_congr (by omega) rfl rfl

/-- Rounding looks at the value alone: a factor 2 may stand in the significand or in the exponent. -/
theorem f32Round_mul_two (s : Bool) (m : Nat) (e : Int) : f32Round s (m * 2) e = f32Round s m (e + 1) := by
  by_cases hm : m = 0
  · rw [hm, Nat.zero_mul, f32Round_zero, f32Round_zero]
  · have hm2 : m * 2 ≠ 0 := by omega
    obtain ⟨k, hu, -⟩ := f32Ulp_spec m (e + 1)
    have hu2 : f32Ulp (m * 2) e = (k : Int) - 149 := by
      have hlog : (m * 2).log2 = m.log2 + 1 := by rw [Nat.mul_comm, Nat.log2_two_mul hm]
      unfold f32Ulp at hu ⊢
      omega
    rcases le_or_gt ((k : Int) - 149) e with h | h
    · obtain ⟨j, hj⟩ := Int.le.dest h
      rw [f32Round_of_le s hm2 hu2 hj, f32Round_of_le s hm hu (j := j + 1) (by omega), Nat.mul_assoc,
        Nat.pow_succ' (n := j)]
    · obtain ⟨j, hj⟩ := Int.le.dest h
      rw [f32Round_of_ge s hm2 hu2 (j := j + 1) (by omega), f32Round_of_ge s hm hu hj.symm, roundShift_mul_two]

theorem f32Round_mul_two_pow (s : Bool) (m : Nat) (e : Int) (j : Nat) :
    f32Round s (m * 2 ^ j) e = f32Round s m (e + j) := by
  induction j generalizing e with
  | zero => simp
  | succ j ih =>
    rw [Nat.pow_succ, ← Nat.mul_assoc, f32Round_mul_two, ih]
    congr 1
    push_cast
    ring

/-- A binary32 number is its own rounding. -/
theorem f32Round_of_fin {x : F32} {s : Bool} {m : Nat} {e : Int} (h : f32Value x = .fin s m e) :
    f32Round s m e = x := by
  obtain ⟨k, hk, ⟨hlt, hnormal⟩, rfl, rfl⟩ := f32_of_fin h
  by_cases hm : m = 0
  · subst hm
    obtain rfl : k = 0 := by omega
    rfl
  · have hlog : m.log2 < 24 := (Nat.log2_lt hm).2 hlt
    have hlog' : 2 ^ 23 ≤ m → 23 ≤ m.log2 := (Nat.le_log2 hm).2
    have hu : f32Ulp m ((k : Int) - 149) = (k : Int) - 149 := by
      unfold f32Ulp
      omega
    rw [f32Round_of_le s hm hu (j := 0) (by simp), Nat.pow_zero, Nat.mul_one, min_eq_left]
    unfold f32InfBits
    omega

/-- `f32(q)` is the pattern whose value is `q`. -/
theorem f32OfNat_eq {q j : Nat} {x : F32} (h : f32Value x = .fin false (q * 2 ^ j) (-j)) : f32OfNat q = x := by
  rw [f32OfNat, ← f32Round_of_fin h, f32Round_mul_two_pow]
  congr 1
  omega

theorem f32Rat_f32OfNat_of_lt {q : Nat} (hpos : 0 < q) (hlt : q < 2 ^ 24) : f32Rat (f32OfNat q) = some (q : Rat) := by
  have hlog : q.log2 < 24 := (Nat.log2_lt hpos.ne').2 hlt
  obtain ⟨j, hj⟩ := Nat.exists_eq_add_of_le (Nat.le_of_lt_succ hlog)
  have lower : 2 ^ 23 ≤ q * 2 ^ j := by
    rw [hj, Nat.pow_add]
    exact Nat.mul_le_mul_right _ (Nat.log2_self_le hpos.ne')
  have upper : q * 2 ^ j < 2 ^ 24 := by
    rw [show 24 = q.log2 + 1 + j by omega, Nat.pow_add]
    exact Nat.mul_lt_mul_of_pos_right Nat.lt_log2_self (by positivity)
  have value := f32Value_f32Pack_finite false (k := 149 - j) ⟨upper, .inr lower⟩ (by omega)
  rw [show ((149 - j : Nat) : Int) - 149 = -j by omega] at value
  rw [f32OfNat_eq value, f32Rat_of_fin value, zpow_neg, zpow_natCast, Nat.cast_mul, Nat.cast_pow, Nat.cast_ofNat,
    mul_inv_cancel_right₀ (by positivity)]
  rfl

/-- `f32(q)` is exact up to `2^24` (44_audio_transform.md R243). -/
theorem f32Rat_f32OfNat {q : Nat} (hq : q ≤ 2 ^ 24) : f32Rat (f32OfNat q) = some (q : Rat) := by
  rcases hq.lt_or_eq with hlt | rfl
  · rcases Nat.eq_zero_or_pos q with rfl | hpos
    · have value : f32Value (f32OfNat 0) = .fin false 0 (-149) := by decide
      rw [f32Rat_of_fin value]
      simp [signedRat]
    · exact f32Rat_f32OfNat_of_lt hpos hlt
  · have value : f32Value 0x4B800000 = .fin false (2 ^ 23) (0 + 1) := by decide
    have pattern : f32OfNat (2 ^ 24) = 0x4B800000 := (f32Round_mul_two false (2 ^ 23) 0).trans (f32Round_of_fin value)
    rw [pattern, f32Rat_of_fin value]
    norm_num [signedRat]

/-- Settles O43: each operator rounds the exact result once. -/
theorem referenceOperatorsRoundToNearest : Obligations.ReferenceOperatorsRoundToNearest := by
  unfold Obligations.ReferenceOperatorsRoundToNearest
  refine ⟨fun a b va vb ha hb => ?_, fun x e f => ⟨rfl, rfl, rfl, rfl, rfl, rfl⟩, fun a i hi => getLsbD_f32Neg a hi,
    fun q hq => f32Rat_f32OfNat hq⟩
  exact ⟨roundsTo_f32Add ha hb, roundsTo_f32Sub ha hb, roundsTo_f32Mul ha hb, roundsTo_f32Div ha hb⟩

/-! ### NaNs and infinities -/

/-- If the pattern is a NaN, it is the canonical one. -/
def CanonicalIfNan (x : F32) : Prop := f32IsNan x → x = f32Nan

theorem canonicalIfNan_f32Nan : CanonicalIfNan f32Nan := fun _ => rfl

/-- Up to the infinity no pattern is a NaN. -/
theorem canonicalIfNan_f32Pack (s : Bool) {n : Nat} (hn : n ≤ f32InfBits) : CanonicalIfNan (f32Pack s n) := by
  unfold f32InfBits at hn
  intro h
  rw [f32IsNan, f32Value_f32Pack s (by omega)] at h
  split at h
  · rw [if_pos (by omega)] at h
    cases h
  · split at h <;> cases h

theorem canonicalIfNan_f32Round (s : Bool) (m : Nat) (e : Int) : CanonicalIfNan (f32Round s m e) := by
  unfold f32Round
  split
  · exact canonicalIfNan_f32Pack s (Nat.zero_le _)
  · exact canonicalIfNan_f32Pack s (min_le_right _ _)

section Nan

variable {a b : F32}

theorem canonicalIfNan_f32Add (a b : F32) : CanonicalIfNan (f32Add a b) := by
  unfold f32Add
  split
  · exact canonicalIfNan_f32Nan
  · exact canonicalIfNan_f32Nan
  · split
    · exact canonicalIfNan_f32Pack _ le_rfl
    · exact canonicalIfNan_f32Nan
  · exact canonicalIfNan_f32Pack _ le_rfl
  · exact canonicalIfNan_f32Pack _ le_rfl
  · simp only
    split
    · exact canonicalIfNan_f32Pack _ (Nat.zero_le _)
    · exact canonicalIfNan_f32Round _ _ _

theorem canonicalIfNan_f32Mul (a b : F32) : CanonicalIfNan (f32Mul a b) := by
  unfold f32Mul
  split
  · exact canonicalIfNan_f32Nan
  · exact canonicalIfNan_f32Nan
  · exact canonicalIfNan_f32Pack _ le_rfl
  · split
    · exact canonicalIfNan_f32Nan
    · exact canonicalIfNan_f32Pack _ le_rfl
  · split
    · exact canonicalIfNan_f32Nan
    · exact canonicalIfNan_f32Pack _ le_rfl
  · exact canonicalIfNan_f32Round _ _ _

theorem canonicalIfNan_f32Div (a b : F32) : CanonicalIfNan (f32Div a b) := by
  unfold f32Div
  split
  · exact canonicalIfNan_f32Nan
  · exact canonicalIfNan_f32Nan
  · exact canonicalIfNan_f32Nan
  · exact canonicalIfNan_f32Pack _ le_rfl
  · exact canonicalIfNan_f32Pack _ (Nat.zero_le _)
  · split
    · split
      · exact canonicalIfNan_f32Nan
      · exact canonicalIfNan_f32Pack _ le_rfl
    · exact canonicalIfNan_f32Round _ _ _

variable (h : f32Value a = .nan ∨ f32Value b = .nan)

include h

theorem f32Add_of_nan : f32Add a b = f32Nan := by
  rcases h with ha | hb
  · simp only [f32Add, ha]
  · cases ha : f32Value a <;> simp only [f32Add, ha, hb]

theorem f32Sub_of_nan : f32Sub a b = f32Nan := f32Add_of_nan (h.imp id (f32Value_f32Neg_eq_nan b).2)

theorem f32Mul_of_nan : f32Mul a b = f32Nan := by
  rcases h with ha | hb
  · simp only [f32Mul, ha]
  · cases ha : f32Value a <;> simp only [f32Mul, ha, hb]

theorem f32Div_of_nan : f32Div a b = f32Nan := by
  rcases h with ha | hb
  · simp only [f32Div, ha]
  · cases ha : f32Value a <;> simp only [f32Div, ha, hb]

end Nan

/-- Settles O44: every branch of an operator gives the canonical NaN, an infinity, or a rounded number. -/
theorem nanResultsAreCanonical : Obligations.NanResultsAreCanonical := by
  unfold Obligations.NanResultsAreCanonical
  rintro op a b (rfl | rfl | rfl | rfl)
  · exact ⟨canonicalIfNan_f32Add a b, f32Add_of_nan⟩
  · exact ⟨canonicalIfNan_f32Add a (f32Neg b), f32Sub_of_nan⟩
  · exact ⟨canonicalIfNan_f32Mul a b, f32Mul_of_nan⟩
  · exact ⟨canonicalIfNan_f32Div a b, f32Div_of_nan⟩

section InfFinite

variable {a b : F32} {s t : Bool} {n : Nat} {f : Int} (ha : f32Value a = .inf s) (hb : f32Value b = .fin t n f)

include ha hb

theorem f32Mul_of_inf (hn : n ≠ 0) : f32Mul a b = f32Pack (s ^^ t) f32InfBits := by
  simp only [f32Mul, ha, hb, hn, if_false]

theorem f32Div_of_inf : f32Div a b = f32Pack (s ^^ t) f32InfBits := by
  simp only [f32Div, ha, hb]

end InfFinite

/-! ### Factors that are powers of two (44_audio_transform.md R243, R263) -/

/-- Settles O45: with the divisor a power of two the quotient has no sticky bit, and both sides round one value. -/
theorem divisionByTwoIsTimesOneHalf : Obligations.DivisionByTwoIsTimesOneHalf := by
  unfold Obligations.DivisionByTwoIsTimesOneHalf
  intro a
  have two : f32Value (f32OfNat 2) = .fin false (2 ^ 23) (-22) := by
    rw [f32OfNat_eq (q := 2) (j := 22) (x := 0x40000000) (by decide)]
    decide
  have half : f32Value 0x3F000000 = .fin false (2 ^ 23) (-24) := by decide
  match ha : f32Value a with
  | .nan => rw [f32Div_of_nan (.inl ha), f32Mul_of_nan (.inl ha)]
  | .inf s => rw [f32Div_of_inf ha two, f32Mul_of_inf ha half (by decide)]
  | .fin s m e =>
    have sticky : stickyQuotient m (2 ^ 23) = m * 2 ^ 42 := by
      have : m * 2 ^ 64 = m * 2 ^ 41 * 2 ^ 23 := by ring
      rw [stickyQuotient, this, Nat.mul_div_cancel _ (by positivity), Nat.mul_mod_left, if_pos rfl]
      ring
    rw [f32Div_of_fin ha two (by decide), f32Mul_of_fin ha half, sticky, f32Round_mul_two_pow, f32Round_mul_two_pow]
    congr 1
    push_cast
    ring

/-- Settles O46: a number is its own rounding. -/
theorem scaleByOne : Obligations.ScaleByOne := by
  unfold Obligations.ScaleByOne
  intro x
  have one : f32Value 0x3F800000 = .fin false (2 ^ 23) (-23) := by decide
  unfold f32IsNan
  match hx : f32Value x with
  | .nan => exact ⟨fun h => absurd rfl h, fun _ => f32Mul_of_nan (.inl hx)⟩
  | .inf s => exact ⟨fun _ => by rw [f32Mul_of_inf hx one (by decide), f32_of_inf hx, Bool.xor_false], nofun⟩
  | .fin s m e =>
    refine ⟨fun _ => ?_, nofun⟩
    rw [f32Mul_of_fin hx one, Bool.xor_false, f32Round_mul_two_pow, ← f32Round_of_fin hx]
    congr 1
    push_cast
    ring

end Sys2Proof.Machine

/-! The procedures of the audio core (44_audio_transform.md R248 to R254): their loops in place, as the rules write
them, against the functions of the model. -/

namespace Sys2Proof.Machine

/-! ### The bit reversal (44_audio_transform.md R248) -/

theorem bitRev_lt (m k : Nat) : bitRev m k < 2 ^ m := by
  induction m generalizing k with
  | zero => exact Nat.one_pos
  | succ m ih =>
    have hbit : k % 2 * 2 ^ m ≤ 1 * 2 ^ m := Nat.mul_le_mul_right _ (by omega)
    have := ih (k / 2)
    rw [bitRev, Nat.pow_succ]
    omega

theorem testBit_bitRev {m j : Nat} (k : Nat) (hj : j < m) : (bitRev m k).testBit j = k.testBit (m - 1 - j) := by
  induction m generalizing k with
  | zero => omega
  | succ m ih =>
    rw [bitRev, Nat.mul_comm, Nat.testBit_two_pow_mul_add _ (bitRev_lt m (k / 2))]
    split
    · next hlow =>
      rw [ih (k / 2) hlow, Nat.testBit_div_two]
      congr 1
      omega
    · next hhigh =>
      obtain rfl : j = m := by omega
      simp [Nat.testBit_zero]

/-- Settles O42, by induction on the number of bits. -/
theorem bitReversal : Obligations.BitReversal := by
  unfold Obligations.BitReversal
  exact fun m k _ => ⟨bitRev_lt m k, fun j hj => testBit_bitRev k hj⟩

/-! ### Parts of a buffer -/

section Segments

variable {α : Type}

/-- The `n` entries from `off` on. -/
def segment (d : List α) (off n : Nat) : List α := (d.drop off).take n

theorem getElem?_segment (d : List α) (off : Nat) {n i : Nat} (hi : i < n) : (segment d off n)[i]? = d[off + i]? := by
  rw [segment, List.getElem?_take_of_lt hi, List.getElem?_drop]

theorem getD_segment (d : List α) (off : Nat) {n i : Nat} (x : α) (hi : i < n) :
    (segment d off n).getD i x = d.getD (off + i) x :=
  congrArg (Option.getD · x) (getElem?_segment d off hi)

theorem length_segment {d : List α} {off n : Nat} (h : off + n ≤ d.length) : (segment d off n).length = n := by
  rw [segment, List.length_take, List.length_drop]
  omega

/-- A segment by its entries. -/
theorem segment_eq {d xs : List α} {off n : Nat} (hd : off + n ≤ d.length) (hxs : xs.length = n)
    (h : ∀ i < n, d[off + i]? = xs[i]?) : segment d off n = xs := by
  refine List.ext_getElem? fun i => ?_
  by_cases hi : i < n
  · rw [getElem?_segment d off hi, h i hi]
  · rw [List.getElem?_eq_none (by rw [length_segment hd]; omega), List.getElem?_eq_none (by omega)]

/-- `d'` differs from `d` at most in the `n` entries from `off` on. -/
structure ChangesOnly (off n : Nat) (d d' : List α) : Prop where
  length : d'.length = d.length
  outside : ∀ j, j < off ∨ off + n ≤ j → d'[j]? = d[j]?

variable {off n : Nat} {d d' d'' : List α}

theorem ChangesOnly.trans (h : ChangesOnly off n d d') (h' : ChangesOnly off n d' d'') : ChangesOnly off n d d'' :=
  ⟨h'.length.trans h.length, fun j hj => (h'.outside j hj).trans (h.outside j hj)⟩

theorem ChangesOnly.mono {off' n' : Nat} (h : ChangesOnly off n d d') (hoff : off' ≤ off) (hn : off + n ≤ off' + n') :
    ChangesOnly off' n' d d' :=
  ⟨h.length, fun j hj => h.outside j (by omega)⟩

/-- A segment apart from the changed entries is as it was. -/
theorem ChangesOnly.segment_eq {off' n' : Nat} (h : ChangesOnly off n d d')
    (hapart : off' + n' ≤ off ∨ off + n ≤ off') :
    segment d' off' n' = segment d off' n' := by
  refine List.ext_getElem? fun i => ?_
  by_cases hi : i < n'
  · rw [getElem?_segment _ _ hi, getElem?_segment _ _ hi, h.outside _ (by omega)]
  · rw [List.getElem?_eq_none (by rw [segment, List.length_take]; omega),
      List.getElem?_eq_none (by rw [segment, List.length_take]; omega)]

/-- The whole buffer, by what surrounds the changed entries. -/
theorem ChangesOnly.eq_append (h : ChangesOnly off n d d') :
    d' = d.take off ++ segment d' off n ++ d.drop (off + n) := by
  have hpre : d'.take off = d.take off := h.segment_eq (off' := 0) (.inl (by omega))
  have hpost : d'.drop (off + n) = d.drop (off + n) := by
    refine List.ext_getElem? fun i => ?_
    rw [List.getElem?_drop, List.getElem?_drop, h.outside _ (.inr (by omega))]
  rw [← hpre, ← hpost, segment, ← List.drop_drop, List.append_assoc, List.take_append_drop, List.take_append_drop]

end Segments

/-! ### Loops whose iterations work on disjoint entries -/

section Loops

variable {α ι : Type}

/-- Iteration `i` reads and writes only the entries `touches i` of the buffer. -/
structure WorksOn (f : List α → ι → List α) (touches : ι → Nat → Prop) : Prop where
  frame : ∀ d i j, ¬ touches i j → (f d i)[j]? = d[j]?
  reads : ∀ d d' i, (∀ j, touches i j → d[j]? = d'[j]?) → ∀ j, touches i j → (f d i)[j]? = (f d' i)[j]?

variable {f : List α → ι → List α} {touches : ι → Nat → Prop} (hf : WorksOn f touches)

include hf

theorem WorksOn.foldl_frame {l : List ι} {j : Nat} (d : List α) (hj : ∀ i ∈ l, ¬ touches i j) :
    (l.foldl f d)[j]? = d[j]? := by
  induction l generalizing d with
  | nil => rfl
  | cons i l ih =>
    rw [List.forall_mem_cons] at hj
    rw [List.foldl_cons, ih _ hj.2, hf.frame d i j hj.1]

/-- Each iteration finds its entries as they were before the loop, and no other iteration touches what it leaves. -/
theorem WorksOn.foldl_touched {l : List ι} {i : ι} {j : Nat} (d : List α) (hnodup : l.Nodup)
    (hdisjoint : ∀ i ∈ l, ∀ i' ∈ l, ∀ j, touches i j → touches i' j → i = i') (hi : i ∈ l) (hj : touches i j) :
    (l.foldl f d)[j]? = (f d i)[j]? := by
  induction l generalizing d with
  | nil => cases hi
  | cons a l ih =>
    obtain ⟨ha, hnodup⟩ := List.nodup_cons.1 hnodup
    rw [List.foldl_cons]
    rcases List.mem_cons.1 hi with rfl | hi'
    · refine hf.foldl_frame _ fun i' hi' hj' => ha ?_
      exact hdisjoint i hi i' (List.mem_cons_of_mem _ hi') j hj hj' ▸ hi'
    · rw [ih _ hnodup (fun b hb c hc => hdisjoint b (List.mem_cons_of_mem _ hb) c (List.mem_cons_of_mem _ hc)) hi']
      refine hf.reads _ _ i (fun j' hj' => hf.frame d a j' fun haj => ha ?_) j hj
      exact hdisjoint a (List.mem_cons_self ..) i hi j' haj hj' ▸ hi'

omit hf

/-- An iteration that sets two entries to values of what these two held. -/
def setPair (p q : ι → Nat) (v w : ι → Option α → Option α → α) (d : List α) (i : ι) : List α :=
  (d.set (p i) (v i d[p i]? d[q i]?)).set (q i) (w i d[p i]? d[q i]?)

variable (p q : ι → Nat) (v w : ι → Option α → Option α → α)

theorem setPair_worksOn : WorksOn (setPair p q v w) fun i j => j = p i ∨ j = q i where
  frame d i j hj := by
    rw [not_or] at hj
    rw [setPair, List.getElem?_set_ne (Ne.symm hj.2), List.getElem?_set_ne (Ne.symm hj.1)]
  reads d d' i h j hj := by
    rw [setPair, setPair, h _ (.inl rfl), h _ (.inr rfl)]
    simp only [List.getElem?_set', h j hj]

variable {p q v w}

/-- A loop of such iterations, entry by entry. -/
theorem foldl_setPair {l : List ι} {i : ι} {d : List α} (hnodup : l.Nodup)
    (hdisjoint : ∀ i ∈ l, ∀ i' ∈ l, p i = p i' ∨ p i = q i' ∨ q i = q i' → i = i')
    (hi : i ∈ l) (hne : p i ≠ q i) (hp : p i < d.length) (hq : q i < d.length) :
    (l.foldl (setPair p q v w) d)[p i]? = some (v i d[p i]? d[q i]?) ∧
      (l.foldl (setPair p q v w) d)[q i]? = some (w i d[p i]? d[q i]?) := by
  have disjoint : ∀ a ∈ l, ∀ b ∈ l, ∀ j, (j = p a ∨ j = q a) → (j = p b ∨ j = q b) → a = b := by
    rintro a ha b hb j (rfl | rfl) (h | h)
    · exact hdisjoint a ha b hb (.inl h)
    · exact hdisjoint a ha b hb (.inr (.inl h))
    · exact (hdisjoint b hb a ha (.inr (.inl h.symm))).symm
    · exact hdisjoint a ha b hb (.inr (.inr h))
  have touched (j : Nat) (hj : j = p i ∨ j = q i) :=
    (setPair_worksOn p q v w).foldl_touched (j := j) d hnodup disjoint hi hj
  rw [touched _ (.inl rfl), touched _ (.inr rfl), setPair, List.getElem?_set_ne hne.symm, List.getElem?_set_self hp,
    List.getElem?_set_self (by rwa [List.length_set])]
  exact ⟨rfl, rfl⟩

theorem length_foldl_setPair (l : List ι) (d : List α) : (l.foldl (setPair p q v w) d).length = d.length := by
  induction l generalizing d with
  | nil => rfl
  | cons i l ih => rw [List.foldl_cons, ih, setPair, List.length_set, List.length_set]

end Loops

/-! ### INV (44_audio_transform.md R253) -/

section Inv

variable (afp : Afp) {half off : Nat} {d t : List F32}

/-- The sum that the first loop stores for i ≥ 1. -/
def splitSum (off : Nat) (d : List F32) (i : Nat) : F32 :=
  evalLine afp (.add (.val (d.getD (off + 2 * i - 1) 0)) (.val (d.getD (off + 2 * i + 1) 0)))

/-- `x ⊕ y` of the last loop. -/
def combineSum (half off : Nat) (t : List F32) (i : Nat) : F32 :=
  evalLine afp (.add (.val (t.getD (off + i) 0)) (invTerm (2 * half) i (t.getD (off + i + half) 0)))

/-- `x ⊖ y` of the last loop. -/
def combineDiff (half off : Nat) (t : List F32) (i : Nat) : F32 :=
  evalLine afp (.sub (.val (t.getD (off + i) 0)) (invTerm (2 * half) i (t.getD (off + i + half) 0)))

theorem inPlaceSplit_eq_foldl (half off : Nat) (d t : List F32) : inPlaceSplit afp half off d t =
    (List.range' 1 (half - 1)).foldl
      (setPair (off + ·) (off + · + half) (fun i _ _ => d.getD (off + 2 * i) 0) fun i _ _ => splitSum afp off d i)
      ((t.set off (d.getD off 0)).set (off + half) (d.getD (off + 1) 0)) := rfl

theorem inPlaceCombine_eq_foldl (half off : Nat) (d t : List F32) : inPlaceCombine afp half off d t =
    (List.range half).foldl
      (setPair (off + ·) (off + 2 * half - 1 - ·) (fun i _ _ => combineSum afp half off t i)
        fun i _ _ => combineDiff afp half off t i) d := rfl

/-- Entries that the loop of the split does not reach are as the two lines before it leave them. -/
theorem inPlaceSplit_frame {j : Nat} (hj : ∀ i, 1 ≤ i → i < half → j ≠ off + i ∧ j ≠ off + i + half) :
    (inPlaceSplit afp half off d t)[j]? = ((t.set off (d.getD off 0)).set (off + half) (d.getD (off + 1) 0))[j]? := by
  rw [inPlaceSplit_eq_foldl, (setPair_worksOn ..).foldl_frame _ fun i hi => ?_]
  rw [List.mem_range'_1] at hi
  have := hj i hi.1 (by omega)
  omega

theorem inPlaceSplit_changesOnly (hhalf : 0 < half) :
    ChangesOnly off (2 * half) t (inPlaceSplit afp half off d t) where
  length := by rw [inPlaceSplit_eq_foldl, length_foldl_setPair, List.length_set, List.length_set]
  outside j hj := by
    rw [inPlaceSplit_frame afp (by omega), List.getElem?_set_ne (by omega), List.getElem?_set_ne (by omega)]

theorem getElem?_inPlaceSplit_zero (ht : off + 2 * half ≤ t.length) (hhalf : 0 < half) :
    (inPlaceSplit afp half off d t)[off]? = some (d.getD off 0) ∧
      (inPlaceSplit afp half off d t)[off + half]? = some (d.getD (off + 1) 0) := by
  rw [inPlaceSplit_frame afp (by omega), inPlaceSplit_frame afp (by omega), List.getElem?_set_ne (by omega),
    List.getElem?_set_self (by omega), List.getElem?_set_self (by rw [List.length_set]; omega)]
  exact ⟨rfl, rfl⟩

theorem getElem?_inPlaceSplit (ht : off + 2 * half ≤ t.length) {i : Nat} (h0 : i ≠ 0) (hi : i < half) :
    (inPlaceSplit afp half off d t)[off + i]? = some (d.getD (off + 2 * i) 0) ∧
      (inPlaceSplit afp half off d t)[off + i + half]? = some (splitSum afp off d i) := by
  rw [inPlaceSplit_eq_foldl]
  refine foldl_setPair (p := (off + ·)) (q := (off + · + half)) List.nodup_range' (fun a ha b hb => ?_)
    (List.mem_range'_1.2 (by omega)) (by omega) ?_ ?_
  · rw [List.mem_range'_1] at ha hb
    omega
  all_goals
    rw [List.length_set, List.length_set]
    omega

/-- The split leaves in the scratch the two lists that the model's function starts from. -/
theorem segment_inPlaceSplit (hhalf : 0 < half) (ht : off + 2 * half ≤ t.length) :
    segment (inPlaceSplit afp half off d t) off half = invEvens half (segment d off (2 * half)) ∧
      segment (inPlaceSplit afp half off d t) (off + half) half =
        invOdds afp half (segment d off (2 * half)) (segment d off (2 * half)) := by
  have hlen := (inPlaceSplit_changesOnly afp (d := d) (t := t) (off := off) hhalf).length
  have zero := getElem?_inPlaceSplit_zero afp (d := d) ht hhalf
  constructor
  · refine segment_eq (by omega) (length_invEvens _ _) fun i hi => ?_
    rw [invEvens, List.getElem?_map, List.getElem?_range hi, Option.map_some, getD_segment _ _ _ (by omega)]
    by_cases h0 : i = 0
    · subst h0
      exact zero.1
    · exact (getElem?_inPlaceSplit afp ht h0 hi).1
  · refine segment_eq (by omega) (length_invOdds _ _ _ _) fun i hi => ?_
    rw [invOdds, List.getElem?_map, List.getElem?_range hi, Option.map_some]
    by_cases h0 : i = 0
    · subst h0
      rw [if_pos rfl, getD_segment _ _ _ (by omega)]
      exact zero.2
    · rw [if_neg h0, Nat.add_right_comm, (getElem?_inPlaceSplit afp ht h0 hi).2, getD_segment _ _ _ (by omega),
        getD_segment _ _ _ (by omega), splitSum, Nat.add_sub_assoc (by omega), Nat.add_assoc]

theorem inPlaceCombine_changesOnly : ChangesOnly off (2 * half) d (inPlaceCombine afp half off d t) where
  length := by rw [inPlaceCombine_eq_foldl, length_foldl_setPair]
  outside j hj := by
    rw [inPlaceCombine_eq_foldl, (setPair_worksOn ..).foldl_frame _ fun i hi => ?_]
    rw [List.mem_range] at hi
    omega

theorem getElem?_inPlaceCombine (hd : off + 2 * half ≤ d.length) {i : Nat} (hi : i < half) :
    (inPlaceCombine afp half off d t)[off + i]? = some (combineSum afp half off t i) ∧
      (inPlaceCombine afp half off d t)[off + 2 * half - 1 - i]? = some (combineDiff afp half off t i) := by
  rw [inPlaceCombine_eq_foldl]
  refine foldl_setPair (p := (off + ·)) (q := (off + 2 * half - 1 - ·)) List.nodup_range (fun a ha b hb => ?_)
    (List.mem_range.2 hi) (by omega) (by omega) (by omega)
  rw [List.mem_range] at ha hb
  omega

theorem segment_inPlaceCombine (hd : off + 2 * half ≤ d.length) :
    segment (inPlaceCombine afp half off d t) off (2 * half) =
      invCombine afp half (segment t off half) (segment t (off + half) half) := by
  have hlen := (inPlaceCombine_changesOnly afp (d := d) (t := t) (off := off) (half := half)).length
  refine segment_eq (by omega) (length_invCombine _ _ _ _) fun i hi => ?_
  rw [invCombine]
  by_cases hlow : i < half
  · rw [(getElem?_inPlaceCombine afp hd hlow).1, List.getElem?_append_left (by simpa using hlow), List.getElem?_map,
      List.getElem?_range hlow, Option.map_some, getD_segment _ _ _ hlow, getD_segment _ _ _ hlow, Nat.add_right_comm]
    rfl
  · obtain ⟨k, hk, rfl⟩ : ∃ k, k < half ∧ i = 2 * half - 1 - k := ⟨2 * half - 1 - i, by omega, by omega⟩
    have mirrored : half - 1 - (2 * half - 1 - k - half) = k := by omega
    rw [show off + (2 * half - 1 - k) = off + 2 * half - 1 - k by omega, (getElem?_inPlaceCombine afp hd hk).2,
      List.getElem?_append_right (by simp; omega), List.getElem?_reverse (by simp; omega)]
    simp only [List.length_map, List.length_range, mirrored]
    rw [List.getElem?_map, List.getElem?_range hk, Option.map_some, getD_segment _ _ _ hk, getD_segment _ _ _ hk,
      Nat.add_right_comm]
    rfl

/-- What the procedure in place does to its two buffers. -/
theorem inPlaceInv_spec (bits : Nat) (hd : off + 2 ^ bits ≤ d.length) (ht : off + 2 ^ bits ≤ t.length) :
    ChangesOnly off (2 ^ bits) d (inPlaceInv afp bits off d t).1 ∧
      ChangesOnly off (2 ^ bits) t (inPlaceInv afp bits off d t).2 ∧
      segment (inPlaceInv afp bits off d t).1 off (2 ^ bits) =
        inv afp bits (segment d off (2 ^ bits)) (segment d off (2 ^ bits)) := by
  induction bits generalizing off d t with
  | zero => exact ⟨⟨rfl, fun _ _ => rfl⟩, ⟨rfl, fun _ _ => rfl⟩, rfl⟩
  | succ bits ih =>
    rw [Nat.pow_succ'] at hd ht ⊢
    have hhalf : 0 < 2 ^ bits := by positivity
    obtain ⟨t1, ht1⟩ : ∃ t1, t1 = inPlaceSplit afp (2 ^ bits) off d t := ⟨_, rfl⟩
    obtain ⟨first, hfirst⟩ : ∃ first, first = inPlaceInv afp bits off t1 d := ⟨_, rfl⟩
    obtain ⟨second, hsecond⟩ : ∃ second, second = inPlaceInv afp bits (off + 2 ^ bits) first.1 first.2 := ⟨_, rfl⟩
    have result : inPlaceInv afp (bits + 1) off d t =
        (inPlaceCombine afp (2 ^ bits) off second.2 second.1, second.1) := by
      rw [hsecond, hfirst, ht1, inPlaceInv]
    have split := inPlaceSplit_changesOnly afp (d := d) (t := t) (off := off) hhalf
    obtain ⟨evens, odds⟩ := segment_inPlaceSplit afp (d := d) hhalf ht
    rw [← ht1] at split evens odds
    obtain ⟨first1, first2, firstHalf⟩ := ih (off := off) (d := t1) (t := d) (by have := split.length; omega) (by omega)
    rw [← hfirst] at first1 first2 firstHalf
    obtain ⟨second1, second2, secondHalf⟩ := ih (off := off + 2 ^ bits) (d := first.1) (t := first.2)
      (by have := split.length; have := first1.length; omega) (by have := first2.length; omega)
    rw [← hsecond] at second1 second2 secondHalf
    have data : ChangesOnly off (2 * 2 ^ bits) d second.2 :=
      (first2.mono le_rfl (by omega)).trans (second2.mono (by omega) (by omega))
    have scratch : ChangesOnly off (2 * 2 ^ bits) t second.1 :=
      split.trans ((first1.mono le_rfl (by omega)).trans (second1.mono (by omega) (by omega)))
    rw [result]
    refine ⟨data.trans (inPlaceCombine_changesOnly afp), scratch, ?_⟩
    rw [segment_inPlaceCombine afp (by have := data.length; omega), second1.segment_eq (.inl le_rfl), firstHalf, evens,
      secondHalf, first1.segment_eq (.inr le_rfl), odds, inv]

end Inv

/-- Settles O40: the entries outside are those of D, and the segment is the model's function of the segment. -/
theorem invIsTheInPlaceProcedure : Obligations.InvIsTheInPlaceProcedure := by
  unfold Obligations.InvIsTheInPlaceProcedure
  intro afp bits off d t hd ht
  obtain ⟨changes, -, value⟩ := inPlaceInv_spec afp bits hd ht
  rw [changes.eq_append, value]
  rfl

/-! ### FFT (44_audio_transform.md R252) -/

section Fft

variable (afp : Afp) {h m : Nat}

/-- The butterfly as an iteration that sets two values. -/
theorem inPlaceButterfly_eq_setPair (h base : Nat) : inPlaceButterfly afp h base =
    setPair (base + ·) (base + · + h)
      (fun k e o => butterflyLow afp (twiddle (2 * h) k) (e.getD ⟨0, 0⟩) (o.getD ⟨0, 0⟩))
      (fun k e o => butterflyHigh afp (twiddle (2 * h) k) (e.getD ⟨0, 0⟩) (o.getD ⟨0, 0⟩)) := rfl

/-- The butterflies of one group in place. -/
def inPlaceGroup (h base : Nat) (z : List Cx) : List Cx := (List.range h).foldl (inPlaceButterfly afp h base) z

theorem inPlaceGroup_changesOnly (h base : Nat) (z : List Cx) :
    ChangesOnly base (2 * h) z (inPlaceGroup afp h base z) where
  length := by rw [inPlaceGroup, inPlaceButterfly_eq_setPair, length_foldl_setPair]
  outside j hj := by
    rw [inPlaceGroup, inPlaceButterfly_eq_setPair, (setPair_worksOn ..).foldl_frame _ fun i hi => ?_]
    rw [List.mem_range] at hi
    omega

theorem getElem?_inPlaceGroup {base : Nat} {z : List Cx} (hz : base + 2 * h ≤ z.length) {k : Nat} (hk : k < h) :
    (inPlaceGroup afp h base z)[base + k]? = some (butterflyLow afp (twiddle (2 * h) k)
        (z.getD (base + k) ⟨0, 0⟩) (z.getD (base + k + h) ⟨0, 0⟩)) ∧
      (inPlaceGroup afp h base z)[base + k + h]? = some (butterflyHigh afp (twiddle (2 * h) k)
        (z.getD (base + k) ⟨0, 0⟩) (z.getD (base + k + h) ⟨0, 0⟩)) := by
  rw [inPlaceGroup, inPlaceButterfly_eq_setPair]
  refine foldl_setPair (p := (base + ·)) (q := (base + · + h)) List.nodup_range (fun a ha b hb => ?_)
    (List.mem_range.2 hk) (by omega) (by omega) (by omega)
  rw [List.mem_range] at ha hb
  omega

theorem segment_inPlaceGroup {base : Nat} {z : List Cx} (hz : base + 2 * h ≤ z.length) :
    segment (inPlaceGroup afp h base z) base (2 * h) = butterflies afp h (segment z base (2 * h)) := by
  have hlen := (inPlaceGroup_changesOnly afp h base z).length
  refine segment_eq (by omega) (length_butterflies _ _ _) fun i hi => ?_
  rw [butterflies]
  by_cases hlow : i < h
  · rw [(getElem?_inPlaceGroup afp hz hlow).1, List.getElem?_append_left (by simpa using hlow), List.getElem?_map,
      List.getElem?_range hlow, Option.map_some, getD_segment _ _ _ hi, getD_segment _ _ _ (by omega), Nat.add_assoc]
  · obtain ⟨k, rfl⟩ := Nat.exists_eq_add_of_le' (Nat.le_of_not_lt hlow)
    have hk : k < h := by omega
    rw [← Nat.add_assoc, (getElem?_inPlaceGroup afp hz hk).2, List.getElem?_append_right (by simp)]
    simp only [List.length_map, List.length_range, Nat.add_sub_cancel]
    rw [List.getElem?_map, List.getElem?_range hk, Option.map_some, getD_segment _ _ _ (by omega),
      getD_segment _ _ _ (by omega), Nat.add_assoc]

/-- A group that follows `pre`. -/
theorem inPlaceGroup_append {pre z : List Cx} (hz : 2 * h ≤ z.length) :
    inPlaceGroup afp h pre.length (pre ++ z) = pre ++ butterflies afp h (z.take (2 * h)) ++ z.drop (2 * h) := by
  rw [(inPlaceGroup_changesOnly afp h pre.length (pre ++ z)).eq_append,
    segment_inPlaceGroup afp (by rw [List.length_append]; omega), segment, List.drop_left, List.take_left,
    ← List.drop_drop, List.drop_left]

/-- The loop over the groups is the model's stage. -/
theorem foldl_inPlaceGroup (groups g : Nat) (pre z : List Cx) (hpre : pre.length = g * (2 * h))
    (hz : 2 * h * groups ≤ z.length) :
    (List.range' g groups).foldl (fun z g => inPlaceGroup afp h (g * (2 * h)) z) (pre ++ z) =
      pre ++ fftStage afp h groups z := by
  induction groups generalizing g pre z with
  | zero => rfl
  | succ groups ih =>
    rw [Nat.mul_succ] at hz
    rw [List.range'_succ, List.foldl_cons, ← hpre, inPlaceGroup_append afp (by omega), ih, fftStage, List.append_assoc]
    · rw [List.length_append, length_butterflies, hpre, Nat.succ_mul g]
    · rw [List.length_drop]
      omega

/-- The groups of a stage cover the values. -/
theorem stage_covers {j : Nat} (hj : j < m) : 2 * 2 ^ j * 2 ^ (m - (j + 1)) = 2 ^ m := by
  rw [← Nat.pow_succ', ← Nat.pow_add]
  congr 1
  omega

/-- The loops over the groups of a stage, in place. -/
def inPlaceStage (m : Nat) (z : List Cx) (j : Nat) : List Cx :=
  (List.range (2 ^ (m - (j + 1)))).foldl (fun z g => inPlaceGroup afp (2 ^ j) (g * (2 * 2 ^ j)) z) z

theorem inPlaceFft_eq_foldl (m : Nat) (z : List Cx) :
    inPlaceFft afp m z = (List.range m).foldl (inPlaceStage afp m) z := rfl

theorem inPlaceStage_eq {j : Nat} {z : List Cx} (hj : j < m) (hz : z.length = 2 ^ m) :
    inPlaceStage afp m z j = fftStage afp (2 ^ j) (2 ^ (m - (j + 1))) z := by
  rw [inPlaceStage, List.range_eq_range']
  exact foldl_inPlaceGroup afp _ 0 [] z (by simp) (by rw [stage_covers hj, hz])

theorem foldl_inPlaceStage (n j : Nat) (z : List Cx) (hn : j + n ≤ m) (hz : z.length = 2 ^ m) :
    (List.range' j n).foldl (inPlaceStage afp m) z = fftStages afp m n j z := by
  induction n generalizing j z with
  | zero => rfl
  | succ n ih =>
    rw [List.range'_succ, List.foldl_cons, inPlaceStage_eq afp (by omega) hz, ih _ _ (by omega), fftStages]
    rw [length_fftStage _ _ _ _ (by rw [stage_covers (by omega), hz]), hz]

theorem inPlaceFft_eq {z : List Cx} (hz : z.length = 2 ^ m) : inPlaceFft afp m z = fftStages afp m m 0 z := by
  rw [inPlaceFft_eq_foldl, List.range_eq_range', foldl_inPlaceStage afp m 0 z (by omega) hz]

theorem bitReverse_toComplex {d : List F32} (hd : d.length = 2 ^ (m + 1)) :
    bitReverse m (toComplex d) = fftInput m d := by
  rw [toComplex_eq d (2 ^ m) (by rw [hd, Nat.pow_succ']), bitReverse, fftInput]
  refine List.map_congr_left fun k _ => ?_
  rw [List.getD_eq_getElem?_getD, List.getElem?_map, List.getElem?_range (bitRev_lt m k)]
  rfl

/-- The FFT as the rule's loops on the permuted pairs; with no stage it is the pairs themselves. -/
theorem getD_fft {d : List F32} (hd : d.length = 2 ^ (m + 1)) {k : Nat} (hk : k < 2 ^ m) :
    (fft afp m d).getD (2 * k) 0 = ((inPlaceFft afp m (fftInput m d)).getD k ⟨0, 0⟩).re ∧
      (fft afp m d).getD (2 * k + 1) 0 = ((inPlaceFft afp m (fftInput m d)).getD k ⟨0, 0⟩).im := by
  have hlen : (fftInput m d).length = 2 ^ m := by rw [fftInput, List.length_map, List.length_range]
  rw [fft]
  split
  · next h0 =>
    subst h0
    obtain rfl : k = 0 := by omega
    exact ⟨rfl, rfl⟩
  · rw [bitReverse_toComplex hd, ← inPlaceFft_eq afp hlen]
    exact getD_ofComplex _ k

end Fft

/-! ### The exact twiddles (44_audio_transform.md R247) -/

theorem fixAngle_zero (q : Nat) : fixAngle 0 q = 0 := Nat.zero_div q

theorem fixMul_zero (a : Nat) : fixMul 0 a = 0 := by rw [fixMul, Nat.zero_mul, Nat.zero_div]

theorem fixCosSmall_zero : fixCosSmall 0 = fixOne := by
  rw [fixCosSmall, fixMul_zero, fixSeries, fixMul_zero, Nat.zero_div, Nat.sub_zero]

theorem fixSinSmall_zero : fixSinSmall 0 = 0 := fixMul_zero _

theorem fixCos_zero (q : Nat) : fixCos 0 q = fixOne := by
  rw [fixCos, if_pos (Nat.zero_le q), fixAngle_zero, fixCosSmall_zero]

theorem fixSin_zero (q : Nat) : fixSin 0 q = 0 := by
  rw [fixSin, if_pos (Nat.zero_le q), fixAngle_zero, fixSinSmall_zero]

/-- The cosine of a quarter turn. -/
theorem fixCos_quarter {k : Nat} (hk : 0 < k) : fixCos k (4 * k) = 0 := by
  rw [fixCos, if_neg (by omega), Nat.sub_self, fixAngle_zero, fixSinSmall_zero]

theorem romWr_zero (size : Nat) : romWr size 0 = 0x3F800000 := by
  have one : f32Value 0x3F800000 = .fin false (2 ^ 23) (-23) := by decide
  rw [romWr, if_pos (Nat.zero_le size), fixCos_zero, fixRound, if_neg (by decide)]
  exact (f32Round_mul_two_pow false (2 ^ 23) (-128) 105).trans (f32Round_of_fin one)

theorem romWi_zero (size : Nat) : romWi size 0 = 0 := by
  rw [romWi, if_pos (Nat.zero_le size), fixSin_zero]
  rfl

theorem romWr_quarter {k : Nat} (hk : 0 < k) : romWr (4 * k) k = 0 := by
  rw [romWr, if_pos le_rfl, fixCos_quarter hk]
  rfl

/-- Settles O41: each group of butterflies is a loop on disjoint pairs, and the groups and the stages follow by
induction. -/
theorem fftIsTheInPlaceProcedure : Obligations.FftIsTheInPlaceProcedure := by
  unfold Obligations.FftIsTheInPlaceProcedure
  refine ⟨fun afp m z hz => inPlaceFft_eq afp hz,
    fun afp m d hd => ⟨length_fft afp m d hd, fun k hk => getD_fft afp hd hk⟩,
    fun j _ _ => ⟨romWr_zero _, romWi_zero _, fun h2 => ?_⟩⟩
  obtain ⟨i, rfl⟩ := Nat.exists_eq_add_of_le h2
  rw [Nat.pow_add, Nat.mul_div_cancel_left _ (by decide)]
  exact romWr_quarter (by positivity)

/-! ### IRDFT_PRE (44_audio_transform.md R254) -/

/-- The four entries of iteration i. -/
def irdftTouches (n i j : Nat) : Prop := j = 2 * i ∨ j = 2 * i + 1 ∨ j = n - 2 * i ∨ j = n - 2 * i + 1

theorem irdftStep_worksOn (afp : Afp) (sign : SinSign) (n : Nat) : WorksOn (irdftStep afp sign n) (irdftTouches n) where
  frame d i j hj := by
    simp only [irdftTouches, not_or] at hj
    obtain ⟨h1, h2, h3, h4⟩ := hj
    simp only [irdftStep]
    rw [List.getElem?_set_ne (Ne.symm h4), List.getElem?_set_ne (Ne.symm h3), List.getElem?_set_ne (Ne.symm h2),
      List.getElem?_set_ne (Ne.symm h1)]
  reads d d' i h j hj := by
    have inputs {k : Nat} (hk : irdftTouches n i k) : d.getD k 0 = d'.getD k 0 := congrArg (Option.getD · 0) (h k hk)
    simp only [irdftStep, inputs (.inl rfl), inputs (.inr (.inl rfl)), inputs (.inr (.inr (.inl rfl))),
      inputs (.inr (.inr (.inr rfl))), List.getElem?_set', h j hj]

theorem getElem?_irdftFirst (afp : Afp) (d : List F32) {j : Nat} (hj : 2 ≤ j) : (irdftFirst afp d)[j]? = d[j]? := by
  simp only [irdftFirst]
  rw [List.getElem?_set_ne (by omega), List.getElem?_set_ne (by omega)]

section IrdftPre

variable (afp : Afp) (sign : SinSign) {n : Nat} (d : List F32)

/-- An entry that no iteration reaches is as the first lines leave it. -/
theorem getElem?_irdftPre_of_untouched {j : Nat} (hj : ∀ i, 1 ≤ i → 4 * i + 4 ≤ n → ¬ irdftTouches n i j) :
    (irdftPre afp sign n d)[j]? = (irdftFirst afp d)[j]? := by
  refine (irdftStep_worksOn afp sign n).foldl_frame _ fun i hi => ?_
  rw [List.mem_range'_1] at hi
  exact hj i hi.1 (by omega)

/-- An entry of iteration i is as that iteration alone leaves it. -/
theorem getElem?_irdftPre_of_touched {i j : Nat} (h1 : 1 ≤ i) (hi : 4 * i + 4 ≤ n) (hj : irdftTouches n i j) :
    (irdftPre afp sign n d)[j]? = (irdftStep afp sign n d i)[j]? := by
  have works := irdftStep_worksOn afp sign n
  rw [irdftPre, works.foldl_touched _ List.nodup_range' ?_ (List.mem_range'_1.2 (by omega)) hj]
  · refine works.reads _ _ i (fun j hj => getElem?_irdftFirst afp d ?_) j hj
    unfold irdftTouches at hj
    omega
  · intro a ha b hb j hja hjb
    rw [List.mem_range'_1] at ha hb
    unfold irdftTouches at hja hjb
    omega

end IrdftPre

/-- The model's IRDFT_PRE leaves the entries of the rule. -/
theorem isIrdftPre_irdftPre (afp : Afp) (sign : SinSign) {n : Nat} (heven : n % 2 = 0) (h2 : 2 ≤ n) {d : List F32}
    (hd : d.length = n) : isIrdftPre afp sign n d (irdftPre afp sign n d) := by
  have untouched {j : Nat} (hj : j < 2 ∨ j = n / 2 ∨ j = n / 2 + 1) :
      (irdftPre afp sign n d).getD j 0 = (irdftFirst afp d).getD j 0 := by
    refine congrArg (Option.getD · 0) (getElem?_irdftPre_of_untouched afp sign d fun i h1 hi => ?_)
    unfold irdftTouches
    omega
  have passed {j : Nat} (hj : 2 ≤ j) : (irdftFirst afp d).getD j 0 = d.getD j 0 :=
    congrArg (Option.getD · 0) (getElem?_irdftFirst afp d hj)
  refine ⟨length_irdftPre afp sign n d, ?_, ?_, fun i h1 hi => ?_, fun h4 => ⟨?_, ?_⟩⟩
  · rw [untouched (by omega), irdftFirst, List.getD_eq_getElem?_getD, List.getElem?_set_ne (by omega),
      List.getElem?_set_self (by omega)]
    rfl
  · rw [untouched (by omega), irdftFirst, List.getD_eq_getElem?_getD, List.getElem?_set_self (by simp; omega)]
    rfl
  · have touched {j : Nat} (hj : irdftTouches n i j) :
        (irdftPre afp sign n d).getD j 0 = (irdftStep afp sign n d i).getD j 0 :=
      congrArg (Option.getD · 0) (getElem?_irdftPre_of_touched afp sign d h1 (by omega) hj)
    rw [touched (.inl rfl), touched (.inr (.inl rfl)), touched (.inr (.inr (.inl rfl))),
      touched (.inr (.inr (.inr rfl)))]
    simp only [irdftStep, List.getD_eq_getElem?_getD]
    refine ⟨?_, ?_, ?_, ?_⟩
    · rw [List.getElem?_set_ne (by omega), List.getElem?_set_ne (by omega), List.getElem?_set_ne (by omega),
        List.getElem?_set_self (by omega)]
      rfl
    · rw [List.getElem?_set_ne (by omega), List.getElem?_set_ne (by omega),
        List.getElem?_set_self (by simp only [List.length_set]; omega)]
      rfl
    · rw [List.getElem?_set_ne (by omega), List.getElem?_set_self (by simp only [List.length_set]; omega)]
      rfl
    · rw [List.getElem?_set_self (by simp only [List.length_set]; omega)]
      rfl
  · rw [untouched (.inr (.inl rfl)), passed (by omega)]
  · rw [untouched (.inr (.inr rfl)), passed (by omega)]

end Sys2Proof.Machine

/-! The audio commands (44_audio_transform.md R260 to R264): what each leaves in AC and OW, and that it leaves every
other byte. -/

namespace Sys2Proof.Machine

/-! ### Writes of words -/

theorem Memory.sameOutside.trans {r r' : Nat → Prop} {m m' m'' : Memory} (h : Memory.sameOutside r m m')
    (h' : Memory.sameOutside r' m' m'') : Memory.sameOutside (fun a => r a ∨ r' a) m m'' :=
  fun a ha => (h' a fun hr => ha (.inr hr)).trans (h a fun hr => ha (.inl hr))

theorem Memory.sameOutside.mono {r r' : Nat → Prop} {m m' : Memory} (h : Memory.sameOutside r m m')
    (hr : ∀ a, r a → r' a) : Memory.sameOutside r' m m' :=
  fun a ha => h a fun hra => ha (hr a hra)

/-- A word apart from what changed is held as before. -/
theorem Memory.holdsWord.congr {m m' : Memory} {a : Nat} {w : Word} (h : m.holdsWord a w)
    (hm : ∀ i, i < 4 → m'.held (a + i) = m.held (a + i)) : m'.holdsWord a w := by
  obtain ⟨h0, h1, h2, h3⟩ := h
  exact ⟨(hm 0 (by decide)).trans h0, (hm 1 (by decide)).trans h1, (hm 2 (by decide)).trans h2,
    (hm 3 (by decide)).trans h3⟩

theorem Memory.sameOutside_writeWords (m : Memory) (a : Nat) {ws : List Word} {n : Nat} (hn : ws.length = n) :
    Memory.sameOutside (inWindow a (4 * n)) m (m.writeBytes a (ws.flatMap Word.bytes)) := by
  intro x hx
  refine Memory.held_writeWords_outside ?_
  simp only [inWindow] at hx
  omega

theorem Memory.holdsWord_writeWords_getD (m : Memory) (a : Nat) {ws : List Word} {i : Nat} (hi : i < ws.length) :
    (m.writeBytes a (ws.flatMap Word.bytes)).holdsWord (a + 4 * i) (ws.getD i 0) := by
  rw [List.getD_eq_getElem _ _ hi]
  exact Memory.holdsWord_writeWords m a ws i hi

/-- A write of words given entry by entry. -/
theorem Memory.holdsWord_writeWords_map (m : Memory) (a : Nat) (f : Nat → Word) {n i : Nat} (hi : i < n) :
    (m.writeBytes a (((List.range n).map f).flatMap Word.bytes)).holdsWord (a + 4 * i) (f i) := by
  have h := Memory.holdsWord_writeWords_getD m a (ws := (List.range n).map f) (i := i) (by simpa using hi)
  rwa [List.getD_eq_getElem?_getD, List.getElem?_map, List.getElem?_range hi] at h

theorem State.getElem?_readWords (s : State) (tag a : Nat) {n i : Nat} (hi : i < n) :
    (s.readWords tag a n)[i]? = some (s.readWord tag (a + 4 * i)) := by
  rw [State.readWords, List.getElem?_map, List.getElem?_range hi, Option.map_some]

/-! ### The commands that write one channel (44_audio_transform.md R260 to R263) -/

/-- A command that writes the first `n` entries of its channel changes these alone. -/
theorem exists_of_setChannel {i : Instr} {s : State} {ch : BitVec 1} {ws : List Word} {n : Nat}
    (hi : exec i s = .next (s.setChannel ch ws).complete) (hn : ws.length = n) :
    ∃ m : Memory, exec i s = .next ({ s with mem := m } : State).complete ∧
      Memory.sameOutside (inWindow (acBase ch.toNat) (4 * n)) s.mem m ∧
      ∀ k, k < n → m.holdsWord (acBase ch.toNat + 4 * k) (ws.getD k 0) :=
  ⟨_, hi, Memory.sameOutside_writeWords _ _ hn, fun _ hk => Memory.holdsWord_writeWords_getD _ _ (hn ▸ hk)⟩

section Channel

variable (ch : BitVec 1) {nbits : BitVec 4} (s : State)

theorem exec_audScale_of_le (h : nbits.toNat ≤ 12) : exec (.audScale ch nbits) s =
    .next (s.setChannel ch ((s.readWords 0 (acBase ch.toNat) (2 ^ nbits.toNat)).map fun x =>
      evalLine s.params.afp (.mul (.val x) (.val s.arg0)))).complete :=
  if_pos ⟨Nat.zero_le _, h⟩

theorem exec_audScale_of_lt (h : 12 < nbits.toNat) : exec (.audScale ch nbits) s = .next (s.failedWith 1) :=
  if_neg fun legal => absurd legal.2 (by omega)

theorem exec_audIdct3_of_zero (h : nbits.toNat = 0) : exec (.audIdct3 ch nbits) s = .next s.complete :=
  (if_pos ⟨Nat.zero_le _, by omega⟩).trans (if_pos h)

theorem exec_audIdct3_of_le (h1 : 1 ≤ nbits.toNat) (h12 : nbits.toNat ≤ 12) : exec (.audIdct3 ch nbits) s =
    .next (s.setChannel ch (inv s.params.afp nbits.toNat (s.readWords 0 (acBase ch.toNat) (2 ^ nbits.toNat))
      (s.readWords 1 (acBase ch.toNat) (2 ^ nbits.toNat)))).complete :=
  (if_pos ⟨Nat.zero_le _, h12⟩).trans (if_neg (by omega))

theorem exec_audIdct3_of_lt (h : 12 < nbits.toNat) : exec (.audIdct3 ch nbits) s = .next (s.failedWith 1) :=
  if_neg fun legal => absurd legal.2 (by omega)

theorem exec_audIrdft_of_le (h1 : 1 ≤ nbits.toNat) (h12 : nbits.toNat ≤ 12) : exec (.audIrdft ch nbits) s =
    .next (s.setChannel ch (fft s.params.afp (nbits.toNat - 1) (irdftPre s.params.afp s.params.sinSign (2 ^ nbits.toNat)
      (s.readWords 0 (acBase ch.toNat) (2 ^ nbits.toNat))))).complete :=
  if_pos ⟨h1, h12⟩

theorem exec_audIrdft_of_illegal (h : nbits.toNat = 0 ∨ 12 < nbits.toNat) :
    exec (.audIrdft ch nbits) s = .next (s.failedWith 1) :=
  if_neg fun ⟨h1, h12⟩ => by omega

theorem exec_audFft_of_zero (h : nbits.toNat = 0) : exec (.audFft ch nbits) s = .next s.complete :=
  (if_pos ⟨Nat.zero_le _, by omega⟩).trans (if_pos h)

theorem exec_audFft_of_le (h1 : 1 ≤ nbits.toNat) (h11 : nbits.toNat ≤ 11) : exec (.audFft ch nbits) s =
    .next (s.setChannel ch (fft s.params.afp nbits.toNat
      (s.readWords 0 (acBase ch.toNat) (2 ^ (nbits.toNat + 1))))).complete :=
  (if_pos ⟨Nat.zero_le _, h11⟩).trans (if_neg (by omega))

theorem exec_audFft_of_lt (h : 11 < nbits.toNat) : exec (.audFft ch nbits) s = .next (s.failedWith 1) :=
  if_neg fun legal => absurd legal.2 (by omega)

end Channel

/-- Settles O37: the entries are read, scaled and written back as one list. -/
theorem audScaleResult : Obligations.AudScaleResult := by
  unfold Obligations.AudScaleResult
  refine fun ch nbits s => ⟨fun hle => ?_, exec_audScale_of_lt ch s⟩
  obtain ⟨m, hexec, frame, entries⟩ := exists_of_setChannel (exec_audScale_of_le ch s hle)
    ((List.length_map _).trans (s.length_readWords ..))
  refine ⟨m, hexec, frame, fun i hi => ?_⟩
  have entry := entries i hi
  rwa [List.getD_eq_getElem?_getD, List.getElem?_map, s.getElem?_readWords _ _ hi] at entry

/-- Settles O39: each transform is one write of what its procedures give. -/
theorem audTransformResults : Obligations.AudTransformResults := by
  unfold Obligations.AudTransformResults
  intro ch nbits s
  refine ⟨
    fun h0 => ⟨exec_audIdct3_of_zero ch s h0, exec_audFft_of_zero ch s h0, exec_audIrdft_of_illegal ch s (.inl h0)⟩,
    fun h1 h12 => ?_, fun h1 h12 => ?_, fun h1 afp sign d hd => ?_, fun h1 h11 => ?_,
    fun h12 => ⟨exec_audIdct3_of_lt ch s h12, exec_audIrdft_of_illegal ch s (.inr h12)⟩, exec_audFft_of_lt ch s⟩
  · exact exists_of_setChannel (exec_audIdct3_of_le ch s h1 h12) (length_inv _ _ _ _ (s.length_readWords ..))
  · refine exists_of_setChannel (exec_audIrdft_of_le ch s h1 h12) ?_
    have hbits : nbits.toNat - 1 + 1 = nbits.toNat := by omega
    rw [length_fft, hbits]
    rw [length_irdftPre, State.length_readWords, hbits]
  · have hpow : 2 ^ nbits.toNat = 2 * 2 ^ (nbits.toNat - 1) := by
      rw [← Nat.pow_succ', Nat.succ_eq_add_one, Nat.sub_add_cancel h1]
    have hpos : 0 < 2 ^ (nbits.toNat - 1) := by positivity
    exact isIrdftPre_irdftPre afp sign (by omega) (by omega) hd
  · have hexec := exec_audFft_of_le ch s h1 h11
    have hlen := length_fft s.params.afp nbits.toNat _ (s.length_readWords 0 (acBase ch.toNat) (2 ^ (nbits.toNat + 1)))
    rw [Nat.pow_succ'] at hexec hlen
    have := exists_of_setChannel hexec hlen
    rwa [← Nat.mul_assoc] at this

/-! ### The overlap (44_audio_transform.md R264) -/

/-- The bytes that AUD_OLA may change in one channel. -/
def olaRegion (first : Bool) (ovl ch a : Nat) : Prop :=
  inWindow (owBase ch) (4 * ovl) a ∨ (first = false ∧ inWindow (acBase ch) (4 * ovl) a)

/-- The memory `m` has the window and the mixed entries of channel `ch` as computed from the state `s`. -/
structure State.OlaDone (s : State) (n ich ch : Nat) (m : Memory) : Prop where
  saved : ∀ i, i < n / 16 → m.holdsWord (owBase ch + 4 * i) (s.readWord 0 (acBase ch + 4 * (n - n / 16 + i)))
  mixed : s.audFirst = false → ∀ i, i < n / 16 → m.holdsWord (acBase ch + 4 * i)
    (evalLine s.params.afp (mixLine ich (n / 16 * ich) ch i (s.readWord 0 (owBase ch + 4 * i))
      (s.readWord 0 (acBase ch + 4 * i))))

theorem State.readWord_of_sameOutside {s t : State} {r : Nat → Prop} {a : Nat} (h : Memory.sameOutside r s.mem t.mem)
    (hd : t.draws = s.draws) (ha : ∀ i, i < 4 → ¬ r (a + i)) (tag : Nat) : t.readWord tag a = s.readWord tag a :=
  State.readWord_congr (fun i hi => h _ (ha i hi)) hd tag

theorem Memory.holdsWord.of_sameOutside {m m' : Memory} {r : Nat → Prop} {a : Nat} {w : Word} (hw : m.holdsWord a w)
    (h : Memory.sameOutside r m m') (ha : ∀ i, i < 4 → ¬ r (a + i)) : m'.holdsWord a w :=
  hw.congr fun i hi => h _ (ha i hi)

/-- The saving stores the last entries as the window. -/
theorem State.olaSave_spec (s : State) (n ovl ch : Nat) :
    Memory.sameOutside (inWindow (owBase ch) (4 * ovl)) s.mem (s.olaSave n ovl ch).mem ∧
      ∀ i, i < ovl →
        (s.olaSave n ovl ch).mem.holdsWord (owBase ch + 4 * i) (s.readWord 0 (acBase ch + 4 * (n - ovl + i))) := by
  refine ⟨Memory.sameOutside_writeWords _ _ (s.length_readWords ..), fun i hi => ?_⟩
  rw [Nat.mul_add, ← Nat.add_assoc]
  exact Memory.holdsWord_writeWords_map _ _ _ hi

/-- The mixing stores the mixed entries over the first ones. -/
theorem State.olaMix_spec (s : State) (ich ovl ch : Nat) :
    Memory.sameOutside (inWindow (acBase ch) (4 * ovl)) s.mem (s.olaMix ich ovl ch).mem ∧
      ∀ i, i < ovl → (s.olaMix ich ovl ch).mem.holdsWord (acBase ch + 4 * i)
        (evalLine s.params.afp (mixLine ich (ovl * ich) ch i (s.readWord 0 (owBase ch + 4 * i))
          (s.readWord 0 (acBase ch + 4 * i)))) :=
  ⟨Memory.sameOutside_writeWords _ _ ((List.length_map _).trans List.length_range),
    fun _ hi => Memory.holdsWord_writeWords_map _ _ _ hi⟩

/-- A channel's mixing and saving: each reads nothing that the other has written. -/
theorem State.olaChannel_spec (s : State) {n : Nat} (ich ch : Nat) (hn : n ≤ 4096) :
    Memory.sameOutside (olaRegion s.audFirst (n / 16) ch) s.mem (s.olaChannel n ich ch).mem ∧
      s.OlaDone n ich ch (s.olaChannel n ich ch).mem := by
  cases hfirst : s.audFirst with
  | true =>
    obtain ⟨frame, saved⟩ := s.olaSave_spec n (n / 16) ch
    have only : s.olaChannel n ich ch = s.olaSave n (n / 16) ch := by rw [State.olaChannel, if_pos hfirst]
    rw [only]
    exact ⟨frame.mono fun _ => .inl, saved, fun h => absurd (hfirst.symm.trans h) (by decide)⟩
  | false =>
    obtain ⟨t, ht⟩ : ∃ t, t = s.olaMix ich (n / 16) ch := ⟨_, rfl⟩
    have both : s.olaChannel n ich ch = t.olaSave n (n / 16) ch := by
      rw [State.olaChannel, if_neg (by rw [hfirst]; decide), ht]
    obtain ⟨mixFrame, mixed⟩ := s.olaMix_spec ich (n / 16) ch
    obtain ⟨saveFrame, saved⟩ := t.olaSave_spec n (n / 16) ch
    rw [← ht] at mixFrame mixed
    rw [both]
    refine ⟨(mixFrame.trans saveFrame).mono fun a ha => ha.symm.imp id fun h => ⟨rfl, h⟩, fun i hi => ?_,
      fun _ i hi => ?_⟩
    · rw [← State.readWord_of_sameOutside mixFrame (by rw [ht]; rfl) fun j hj => ?_]
      · exact saved i hi
      · omega
    · refine (mixed i hi).of_sameOutside saveFrame fun j hj => ?_
      unfold owBase acBase
      omega

section Apart

variable {first : Bool} {ovl ch ch' i j : Nat} (hovl : ovl ≤ 256) (hc : ch ≤ 1) (hc' : ch' ≤ 1) (hne : ch ≠ ch')
  (hj : j < 4)

include hovl hc hc' hne hj

/-- The entries of a channel lie apart from what the other channel's work changes. -/
theorem not_olaRegion_acBase (hi : i < 4096) : ¬ olaRegion first ovl ch' (acBase ch + 4 * i + j) := by
  unfold olaRegion inWindow owBase acBase
  omega

/-- The window of a channel lies apart from what the other channel's work changes. -/
theorem not_olaRegion_owBase (hi : i < 256) : ¬ olaRegion first ovl ch' (owBase ch + 4 * i + j) := by
  unfold olaRegion inWindow owBase acBase
  omega

end Apart

section TwoChannels

variable {s : State} {n ich ch ch' : Nat} {first : Bool} (hn : n ≤ 4096) (hc : ch ≤ 1) (hc' : ch' ≤ 1) (hne : ch ≠ ch')

include hn hc hc' hne

/-- What a channel's work left stays when the other channel is worked on. -/
theorem State.OlaDone.after_other {m m' : Memory} (h : s.OlaDone n ich ch m)
    (hm : Memory.sameOutside (olaRegion first (n / 16) ch') m m') : s.OlaDone n ich ch m' where
  saved i hi := (h.saved i hi).of_sameOutside hm fun _ hj =>
    not_olaRegion_owBase (by omega) hc hc' hne hj (by omega)
  mixed hf i hi := (h.mixed hf i hi).of_sameOutside hm fun _ hj =>
    not_olaRegion_acBase (by omega) hc hc' hne hj (by omega)

/-- A channel's work is the same from the state `t` that the other channel's work has left. -/
theorem State.OlaDone.of_other {t : State} {m : Memory} (h : t.OlaDone n ich ch m)
    (hm : Memory.sameOutside (olaRegion first (n / 16) ch') s.mem t.mem) (hdraws : t.draws = s.draws)
    (hparams : t.params = s.params) (haudFirst : t.audFirst = s.audFirst) : s.OlaDone n ich ch m := by
  have ac {i : Nat} (hi : i < n) : t.readWord 0 (acBase ch + 4 * i) = s.readWord 0 (acBase ch + 4 * i) :=
    State.readWord_of_sameOutside hm hdraws
      (fun _ hj => not_olaRegion_acBase (by omega) hc hc' hne hj (by omega)) 0
  have ow {i : Nat} (hi : i < n / 16) : t.readWord 0 (owBase ch + 4 * i) = s.readWord 0 (owBase ch + 4 * i) :=
    State.readWord_of_sameOutside hm hdraws
      (fun _ hj => not_olaRegion_owBase (by omega) hc hc' hne hj (by omega)) 0
  refine ⟨fun i hi => ?_, fun hfirst i hi => ?_⟩
  · rw [← ac (by omega)]
    exact h.saved i hi
  · rw [← ac (by omega), ← ow hi, ← hparams]
    exact h.mixed (haudFirst.trans hfirst) i hi

end TwoChannels

theorem exec_audOla_of_illegal (i2 : BitVec 1) {nbits : BitVec 4} (s : State) (h : nbits.toNat < 4 ∨ 12 < nbits.toNat) :
    exec (.audOla i2 nbits) s = .next (s.failedWith 1) :=
  if_neg fun ⟨h4, h12⟩ => by omega

/-- The work of AUD_OLA on its channels. -/
def State.olaChannels (s : State) (n ich : Nat) : State :=
  if ich = 1 then s.olaChannel n ich 0 else (s.olaChannel n ich 0).olaChannel n ich 1

theorem exec_audOla_of_legal (i2 : BitVec 1) {nbits : BitVec 4} (s : State) (h4 : 4 ≤ nbits.toNat)
    (h12 : nbits.toNat ≤ 12) :
    exec (.audOla i2 nbits) s =
      .next ({ s.olaChannels (2 ^ nbits.toNat) (1 + i2.toNat) with audFirst := false } : State).complete := by
  have one : i2 = 0 ↔ 1 + i2.toNat = 1 := by
    rw [← BitVec.toNat_inj]
    simp
  rw [State.olaChannels]
  simp only [← one]
  exact if_pos ⟨h4, h12⟩

/-- AUD_OLA's work changes the RAMs alone, and does each channel's part. -/
theorem State.olaChannels_spec (s : State) {n ich : Nat} (hn : n ≤ 4096) (h1 : 1 ≤ ich) (h2 : ich ≤ 2) :
    ∃ m : Memory, s.olaChannels n ich = { s with mem := m } ∧
      Memory.sameOutside (fun a => ∃ ch, ch < ich ∧ olaRegion s.audFirst (n / 16) ch a) s.mem m ∧
      ∀ ch, ch < ich → s.OlaDone n ich ch m := by
  obtain ⟨m0, onlyMem0⟩ := s.olaChannel_state n ich 0
  obtain ⟨frame0, done0⟩ := s.olaChannel_spec ich 0 hn
  unfold State.olaChannels
  rw [onlyMem0] at frame0 done0 ⊢
  split
  · refine ⟨m0, rfl, frame0.mono fun a ha => ⟨0, by omega, ha⟩, fun ch hch => ?_⟩
    obtain rfl : ch = 0 := by omega
    exact done0
  · obtain ⟨m1, onlyMem1⟩ := ({ s with mem := m0 } : State).olaChannel_state n ich 1
    obtain ⟨frame1, done1⟩ := ({ s with mem := m0 } : State).olaChannel_spec ich 1 hn
    rw [onlyMem1] at frame1 done1 ⊢
    refine ⟨m1, rfl, (frame0.trans frame1).mono ?_, fun ch hch => ?_⟩
    · rintro a (ha | ha)
      · exact ⟨0, by omega, ha⟩
      · exact ⟨1, by omega, ha⟩
    · rcases (by omega : ch = 0 ∨ ch = 1) with rfl | rfl
      · exact done0.after_other hn (by omega) (by omega) (by omega) frame1
      · exact done1.of_other hn (by omega) (by omega) (by omega) frame0 rfl rfl rfl

/-- Settles O38: each channel's mixing and saving, and no channel's work reads or writes the other's entries. -/
theorem audOlaResult : Obligations.AudOlaResult := by
  unfold Obligations.AudOlaResult
  rintro i2 nbits s n ovl ich rfl rfl rfl
  refine ⟨fun h4 h12 => ?_, exec_audOla_of_illegal i2 s⟩
  obtain ⟨m, onlyMem, frame, done⟩ := s.olaChannels_spec (ich := 1 + i2.toNat) (two_pow_le_acLen h12) (by omega)
    (by omega)
  refine ⟨m, ?_, frame, fun ch i hch hi => ⟨(done ch hch).saved i hi, fun hfirst => (done ch hch).mixed hfirst i hi⟩⟩
  rw [exec_audOla_of_legal i2 s h4 h12, onlyMem]

end Sys2Proof.Machine

/-! The lifecycle of a command and its exceptions (60_exceptions.md): the write that starts a command, the engine's step
on it, its completion and its error report, the acknowledgement of an error, and the interrupt. -/

namespace Sys2Proof.Machine

/-! ### The engine's step (60_exceptions.md R300) -/

theorem State.engineTurn_iff (s : State) : s.engineTurn = true ↔ s.busy = true ∧ (s.hostq = [] ∨ s.latency = 0) := by
  simp [State.engineTurn]

theorem engineStep_of_ok {s : State} {i : Instr} (hi : decode s.cmdl = .ok i) : engineStep s = exec i s := by
  rw [engineStep, hi]

/-- Settles O5: the step is the engine's, and the engine's step is the command's meaning. -/
theorem stepRunsTheCommand : Obligations.StepRunsTheCommand := by
  unfold Obligations.StepRunsTheCommand
  intro s i hbusy hturn hi
  calc step s = engineStep s := if_pos (s.engineTurn_iff.2 ⟨hbusy, hturn⟩)
    _ = exec i s := engineStep_of_ok hi

/-! ### Completion and error reports (60_exceptions.md R300, R302, R303) -/

/-- Settles O6: the two branches of the completion. -/
theorem completionOfEveryCommand : Obligations.CompletionOfEveryCommand := by
  unfold Obligations.CompletionOfEveryCommand
  exact fun s => ⟨State.complete_of_not_srstPend, fun hpend => if_pos hpend⟩

/-- An error report and the completion after it, field by field, when no soft reset is pending. -/
theorem State.raise_of_not_srstPend {s : State} (hp : s.srstPend = false) (c : ErrCode) : s.raise c = { s with
    err := true
    errcode := c.bits
    errinfo := s.cmdl
    irqErri := true
    busy := false
    irqDone := true
    draws := s.draws + 1 } :=
  State.complete_of_not_srstPend (s := s.fail c) hp

/-- A command that ends without an error report leaves ERR. -/
theorem State.Completed.err_eq {s t : State} (h : s.Completed t) (hp : s.srstPend = false) : t.err = s.err := by
  obtain ⟨r, p, tr, m, f, rfl⟩ := h
  exact State.complete_err hp

/-- Settles O7: a command either reports an error and does nothing else, or leaves ERR as it was. -/
theorem errorsArePrecise : Obligations.ErrorsArePrecise := by
  unfold Obligations.ErrorsArePrecise
  intro i s t herr hp h ht
  rcases exec_shape h with ⟨c, rfl⟩ | completed
  · rw [State.raise_of_not_srstPend hp c]
    exact ⟨c.bits_cases, rfl⟩
  · rw [completed.err_eq hp, herr] at ht
    contradiction

/-! ### The command gate (60_exceptions.md R300, R301, R308) -/

/-- A write that a command in flight drops sets OVERRUN and ERRI alone. -/
theorem State.access_write_dropped {s : State} {k : Nat} {r : Reg} (hr : Reg.ofIndex k = some r)
    (hd : Target.busyWrite (.reg r) = .dropped) (hb : s.busy = true) (v : Word) :
    s.access (4 * k) 4 (.write v) = s.setOverrun := by
  rw [State.access_write (admitted_ofIndex s.params hr)]
  simp [State.busWrite, hb, hd]

/-- Settles O47: the overrun, and the two branches of the gate that a write to an idle block's CMD meets. -/
theorem commandWriteHasOneOfThreeEffects : Obligations.CommandWriteHasOneOfThreeEffects := by
  unfold Obligations.CommandWriteHasOneOfThreeEffects
  intro s w
  have hcmd : Reg.ofIndex 3 = some .cmd := rfl
  have gate (hb : s.busy = false) : s.access 0x00C 4 (.write w) = s.acceptCmd w :=
    State.access_write_reg hcmd (.inl hb) w
  refine ⟨fun hb => State.access_write_dropped hcmd rfl hb w, fun hb herr => ?_, fun hb herr => ?_⟩
  · rw [gate hb]
    exact if_pos herr
  · rw [gate hb]
    exact if_neg (herr ▸ Bool.false_ne_true)

/-- Settles O48: bit 1 acknowledges the error, and the write to CMD that follows is one with ERR = 0. -/
theorem acknowledgementReopensTheGate : Obligations.AcknowledgementReopensTheGate := by
  unfold Obligations.AcknowledgementReopensTheGate
  intro s v w hb hv
  have ack : s.access 0x004 4 (.write v) = s.writeStatus v :=
    State.access_write_reg (k := 1) (r := .status) rfl (.inl hb) v
  obtain ⟨herr, hcode, hinfo⟩ : (s.writeStatus v).err = false ∧ (s.writeStatus v).errcode = 0 ∧
      (s.writeStatus v).errinfo = 0 := by simp [State.writeStatus_eq, hv]
  obtain ⟨herri, hbusy⟩ : (s.writeStatus v).irqErri = s.irqErri ∧ (s.writeStatus v).busy = false := by
    simp [State.writeStatus_eq, hb]
  obtain ⟨-, -, accepted⟩ := commandWriteHasOneOfThreeEffects (s.writeStatus v) w
  refine ⟨_, ack, herr, hcode, hinfo, herri, hbusy, ?_⟩
  rw [accepted hbusy herr]
  exact ⟨rfl, rfl⟩

/-! ### The interrupt (60_exceptions.md R306) -/

theorem State.irq_iff (s : State) :
    s.irq = true ↔ (s.irqDone = true ∧ s.doneEn = true) ∨ (s.irqErri = true ∧ s.erriEn = true) := by
  simp [State.irq]

/-- A write to IRQ_STATUS clears the bits that are written as 1 (10_state.md R38). -/
theorem State.writeIrqStatus_eq (s : State) (v : Word) : s.writeIrqStatus v = { s with
    irqDone := if v.getLsbD 0 then false else s.irqDone
    irqErri := if v.getLsbD 1 then false else s.irqErri } := by
  have hclear : ∀ b x : Bool, (if b then false else x) = (x && !b) := by decide
  rw [hclear, hclear]
  rfl

/-- With both sources enabled the interrupt is high when one of them is pending. -/
theorem State.irq_writeIrqEn_both (s : State) : (s.writeIrqEn 3).irq = true ↔ s.irqDone = true ∨ s.irqErri = true := by
  simp [State.irq_iff]

/-- With both sources cleared the interrupt is low, whatever is enabled. -/
theorem State.irq_writeIrqStatus_both (s : State) : (s.writeIrqStatus 3).irq = false := by
  simp [State.irq]

/-- Settles O50: both writes land in every state, and the level follows from the flags that they leave. -/
theorem interruptLevel : Obligations.InterruptLevel := by
  unfold Obligations.InterruptLevel
  intro s v
  have enable : s.access 0x020 4 (.write v) = s.writeIrqEn v :=
    State.access_write_reg (k := 8) (r := .irqEn) rfl (.inr rfl) v
  have clear : s.access 0x01C 4 (.write v) = s.writeIrqStatus v :=
    State.access_write_reg (k := 7) (r := .irqStatus) rfl (.inr rfl) v
  rw [enable, clear]
  refine ⟨s.irq_iff, rfl, s.writeIrqStatus_eq v, ?_, ?_⟩
  · rintro pending rfl
    exact s.irq_writeIrqEn_both.2 pending
  · rintro rfl
    exact s.irq_writeIrqStatus_both

end Sys2Proof.Machine

/-! The pending soft reset and the hazards (70_reset_and_hazards.md): what the host's accesses do while a command is in
flight, the soft reset as a request and as the end of a command, and that an accepted command is executed. -/

namespace Sys2Proof.Machine

/-! ### Commands with a soft reset pending (70_reset_and_hazards.md R341) -/

/-- The state with the soft reset requested while a command is in flight. -/
def State.pend (s : State) : State := { s with srstPend := true }

/-- The second outcome is the first one followed by the soft reset. -/
def ResetFollows (o o' : Host.Outcome State Fault Refusal) : Prop := ∀ t, o = .next t → o' = .next t.softReset

section Completions

variable {s u u' : State} (hp : s.srstPend = false)

include hp

theorem State.complete_pend : s.pend.complete = s.complete.softReset := by
  rw [State.complete_of_not_srstPend hp]
  rfl

/-- A command that runs the same with the request held ends with the soft reset of what it leaves without. -/
theorem ResetFollows.complete (hu : u' = u.pend) (hkeep : u.srstPend = s.srstPend) :
    ResetFollows (.next u.complete) (.next u'.complete) := by
  rintro t ht
  rw [← Host.Outcome.next.inj ht, hu, State.complete_pend (hkeep.trans hp)]

theorem ResetFollows.complete_of_mem (hu : u' = u.pend) (hmem : ∃ m, u = { s with mem := m }) :
    ResetFollows (.next u.complete) (.next u'.complete) := by
  obtain ⟨m, rfl⟩ := hmem
  exact .complete hp hu rfl

theorem ResetFollows.raise (c : ErrCode) : ResetFollows (.next (s.raise c)) (.next (s.pend.raise c)) :=
  .complete hp (u := s.fail c) rfl rfl

end Completions

theorem ResetFollows.ite {c : Prop} [Decidable c] {o₁ o₂ o₁' o₂' : Host.Outcome State Fault Refusal}
    (h₁ : ResetFollows o₁ o₁') (h₂ : ResetFollows o₂ o₂') :
    ResetFollows (if c then o₁ else o₂) (if c then o₁' else o₂') := by
  split
  · exact h₁
  · exact h₂

/-- A check of the operands with the error report in its place. -/
theorem ResetFollows.guard {s : State} (hp : s.srstPend = false) {c : Prop} [Decidable c] {code : ErrCode}
    {o o' : Host.Outcome State Fault Refusal} (h : ResetFollows o o') :
    ResetFollows (if c then o else .next (s.raise code)) (if c then o' else .next (s.pend.raise code)) :=
  h.ite (.raise hp code)

/-! The operations whose recursion hides that none of them reads or writes the request. -/

section Pend

variable (s : State)

@[simp] theorem State.bitsFrom_pend (p n : Nat) : s.pend.bitsFrom p n = s.bitsFrom p n := by
  induction n generalizing p with
  | zero => rfl
  | succ n ih => rw [State.bitsFrom, ih]; rfl

@[simp] theorem State.peekBits_pend (n : Nat) : s.pend.peekBits n = s.peekBits n := s.bitsFrom_pend _ n

@[simp] theorem State.advance_pend (n : Nat) : s.pend.advance n = (s.advance n).pend := rfl

theorem readSymbols_pend (n : Nat) :
    readSymbols n s.pend = (readSymbols n s).map id State.pend := by
  induction n generalizing s with
  | zero => rfl
  | succ n ih => simp [readSymbols, ih]

theorem orderMode_pend : orderMode s.pend = (orderMode s).map id State.pend := by
  simp [orderMode, readSymbols_pend]

theorem merge_pend (fuel : Nat) (as bs : List (BitVec 4)) :
    merge fuel as bs s.pend = (merge fuel as bs s).map id State.pend := by
  induction fuel generalizing as bs s with
  | zero => simp [merge]
  | succ fuel ih =>
    match as, bs with
    | [], bs => simp [merge_nil_left]
    | as, [] => simp [merge_nil_right]
    | a :: as, b :: bs => by_cases hbit : s.peekBits 1 = 0 <;> simp [merge, hbit, ih]

theorem mergePass_pend (size blocks : Nat) (l : List (BitVec 4)) :
    mergePass size blocks l s.pend = (mergePass size blocks l s).map id State.pend := by
  induction blocks generalizing l s with
  | zero => rfl
  | succ blocks ih => simp [mergePass, merge_pend, ih]

theorem mergePasses_pend (n d : Nat) (l : List (BitVec 4)) :
    mergePasses n d l s.pend = (mergePasses n d l s).map id State.pend := by
  induction n generalizing d l s with
  | zero => rfl
  | succ n ih => simp [mergePasses, mergePass_pend, ih]

theorem shuffleMode_pend : shuffleMode s.pend = (shuffleMode s).map id State.pend := by
  simp [shuffleMode, mergePasses_pend]

theorem readTree_pend : readTree s.pend = (readTree s).map id State.pend := by
  by_cases htable : s.peekBits 4 = 0
  · simp [readTree, htable]
  · by_cases hmode : (s.advance 4).peekBits 1 = 1
    · simp [readTree, htable, hmode, orderMode_pend]
    · simp [readTree, htable, hmode, shuffleMode_pend]

theorem State.forRows_pend (row : Nat → State → State) (h : ∀ r t, row r t.pend = (row r t).pend) :
    s.pend.forRows row = (s.forRows row).pend := by
  simp only [State.forRows, h]

theorem State.olaChannel_pend (n ich ch : Nat) : s.pend.olaChannel n ich ch = (s.olaChannel n ich ch).pend := by
  have hfirst : s.pend.audFirst = s.audFirst := rfl
  unfold State.olaChannel
  rw [hfirst]
  split <;> rfl

end Pend

section Commands

variable {s : State} (hp : s.srstPend = false)

include hp

theorem resetFollows_hufDecode (k : BitVec 5) :
    ResetFollows (exec (.hufDecode k) s) (exec (.hufDecode k) s.pend) := by
  have hparams : s.pend.params = s.params := rfl
  have htable : s.pend.codeTable k = s.codeTable k := rfl
  simp only [exec, execHufDecode, hparams, htable, State.peekBits_pend]
  split
  · split
    · exact .raise hp .hufNoMatch
    · exact .complete hp rfl rfl
  · exact fun t ht => by cases ht

theorem resetFollows_treeRead (k : BitVec 5) : ResetFollows (exec (.treeRead k) s) (exec (.treeRead k) s.pend) := by
  obtain ⟨n, -, -, hn⟩ := readTree_state s
  simp only [exec, execTreeRead, readTree_pend, Prod.map_fst, Prod.map_snd, hn]
  exact .complete hp rfl rfl

theorem resetFollows_audOla (i2 : BitVec 1) (nbits : BitVec 4) :
    ResetFollows (exec (.audOla i2 nbits) s) (exec (.audOla i2 nbits) s.pend) := by
  refine .guard hp ?_
  obtain ⟨m, e⟩ := s.olaChannel_state (2 ^ nbits.toNat) (1 + i2.toNat) 0
  obtain ⟨m', e'⟩ := ({ s with mem := m } : State).olaChannel_state (2 ^ nbits.toNat) (1 + i2.toNat) 1
  simp only [State.olaChannel_pend, e, e']
  split <;> exact .complete hp rfl rfl

/-- With the request held every command runs as without it, and the soft reset follows its completion. -/
theorem exec_resetFollows (i : Instr) : ResetFollows (exec i s) (exec i s.pend) := by
  cases i with
  | nop => exact .complete hp rfl rfl
  | bsRead n => exact .guard hp (.complete hp (by rw [State.readBits_fst, State.peekBits_pend]; rfl) rfl)
  | bsPeek n => exact .guard hp (.complete hp (by rw [State.peekBits_pend]; rfl) rfl)
  | bsRead1 => exact .complete hp rfl rfl
  | bsSkip k => exact .complete hp rfl rfl
  | bsAlign32 => exact .complete hp rfl rfl
  | bsLeft => exact .complete hp rfl rfl
  | bsSign => exact .complete hp rfl rfl
  | hufDecode k => exact resetFollows_hufDecode hp k
  | treeRead k => exact resetFollows_treeRead hp k
  | mcCopy8 xoff yoff =>
    exact .guard hp (.ite (.complete hp rfl rfl)
      (.complete_of_mem hp (s.forRows_pend _ fun _ _ => rfl) (s.forRows_state _ (copyRow_writes _ _))))
  | frameCopy dir => cases dir <;> exact .complete hp rfl rfl
  | idctPut =>
    exact .guard hp (.complete_of_mem hp (s.forRows_pend _ fun _ _ => rfl) (s.forRows_state _ (putRow_writes _ _)))
  | idctAdd =>
    exact .guard hp (.complete_of_mem hp (s.forRows_pend _ fun _ _ => rfl) (s.forRows_state _ (addRow_writes _ _)))
  | idctInt => exact .complete hp rfl rfl
  | audIdct3 ch nbits => exact .guard hp (.ite (.complete hp rfl rfl) (.complete hp rfl rfl))
  | audIrdft ch nbits => exact .guard hp (.complete hp rfl rfl)
  | audFft ch nbits => exact .guard hp (.ite (.complete hp rfl rfl) (.complete hp rfl rfl))
  | audScale ch nbits => exact .guard hp (.complete hp rfl rfl)
  | audOla i2 nbits => exact resetFollows_audOla hp i2 nbits

end Commands

/-- Settles O8: no command reads the request before its completion, which then takes the soft reset. -/
theorem pendingResetFollowsCommand : Obligations.PendingResetFollowsCommand := by
  unfold Obligations.PendingResetFollowsCommand
  exact fun i s t hp => exec_resetFollows hp i t

/-! ### An accepted command is executed (70_reset_and_hazards.md R360) -/

theorem run_succ_of_step {s t : State} (k : Nat) (h : step s = .next t) : core.run (k + 1) s = core.run k t := by
  have hstep : core.step s = .next t := h
  simp only [Host.Core.run, hstep]

/-- With a command in flight, and no access waiting or none left to let by, the step is the engine's. -/
theorem step_eq_engineStep {s : State} (hb : s.busy = true) (hturn : s.hostq = [] ∨ s.latency = 0) :
    step s = engineStep s :=
  if_pos (s.engineTurn_iff.2 ⟨hb, hturn⟩)

/-- A host access taken while a command is in flight: the command stays, and one access less is waiting and let by. -/
theorem step_hostAccess_busy {s : State} {a : HostAccess} {rest : List HostAccess} (hb : s.busy = true)
    (hq : s.hostq = a :: rest) (hl : 0 < s.latency) (ha : HostAccess.toBlock s.params a) :
    ∃ t, step s = .next t ∧ t.busy = true ∧ t.cmdl = s.cmdl ∧ t.hostq = rest ∧ t.latency = s.latency - 1 ∧
      t.params = s.params := by
  obtain ⟨-, taken⟩ := hostAccessesTakeEffectInOrder s
  obtain ⟨u, hu, hstep⟩ := taken a rest hq (.inr hl) ha
  obtain ⟨hparams, hbusy, -, -, -, -, -, -, -, -, hcmdl, -, hlatency, -, hhostq⟩ :=
    State.access_busy_frame (s := { s with hostq := rest, latency := s.latency - 1 }) hb hu
  exact ⟨_, hstep, hbusy.trans hb, hcmdl, hhostq, hlatency, hparams⟩

/-- Settles O9, by induction on the accesses that wait: it is the engine's turn, or the host's step leaves one access
less. -/
theorem acceptedCommandIsExecuted : Obligations.AcceptedCommandIsExecuted := by
  unfold Obligations.AcceptedCommandIsExecuted
  intro s hb hblock
  induction hq : s.hostq generalizing s with
  | nil => exact ⟨0, s, Nat.zero_le _, Nat.zero_le _, rfl, hb, rfl, step_eq_engineStep hb (.inl hq)⟩
  | cons a rest ih =>
    rcases Nat.eq_zero_or_pos s.latency with hl | hl
    · exact ⟨0, s, Nat.zero_le _, Nat.zero_le _, rfl, hb, rfl, step_eq_engineStep hb (.inr hl)⟩
    · rw [hq, List.forall_mem_cons] at hblock
      obtain ⟨ha, hrest⟩ := hblock
      obtain ⟨u, hstep, hbusy, hcmdl, hhostq, hlatency, hparams⟩ := step_hostAccess_busy hb hq hl ha
      obtain ⟨k, t, hk, hlen, hrun, htb, htc, hts⟩ := ih u hbusy (by rwa [hhostq, hparams]) hhostq
      refine ⟨k + 1, t, by omega, ?_, (run_succ_of_step k hstep).trans hrun, htb, htc.trans hcmdl, hts⟩
      rw [List.length_cons]
      omega

/-! ### What an admitted offset reaches while a command is in flight (70_reset_and_hazards.md R350, R351) -/

/-- A register is its place in the control page. -/
theorem Reg.eq_ctorIdx_of_ofIndex {k : Nat} {r : Reg} (hr : Reg.ofIndex k = some r) : k = r.ctorIdx := by
  unfold Reg.ofIndex at hr
  split at hr <;> cases hr <;> rfl

/-- The words of the control page are its registers. -/
theorem exists_reg_of_lt {off : Nat} (h4 : off % 4 = 0) (hlt : off < 0x40) :
    ∃ k r, off = 4 * k ∧ Reg.ofIndex k = some r := by
  have hk : off / 4 < 16 := by omega
  obtain ⟨r, hr⟩ : ∃ r, Reg.ofIndex (off / 4) = some r := by
    generalize off / 4 = k at hk
    interval_cases k <;> exact ⟨_, rfl⟩
  exact ⟨off / 4, r, by omega, hr⟩

/-- The words of the tree window are the four of each tree. -/
theorem exists_treeWord_of_lt {off : Nat} (h4 : off % 4 = 0) (hlo : 0x400 ≤ off) (hhi : off < 0x600) :
    ∃ (k : BitVec 5) (j : Nat), j < 4 ∧ off = 0x400 + 16 * k.toNat + 4 * j := by
  refine ⟨BitVec.ofNat 5 ((off - 0x400) / 16), off / 4 % 4, by omega, ?_⟩
  rw [BitVec.toNat_ofNat]
  omega

/-- The registers whose writes a command in flight drops, by their places. -/
theorem Reg.busyWrite_eq_dropped_iff (r : Reg) : Target.busyWrite (.reg r) = .dropped ↔
    r.ctorIdx = 3 ∨ r.ctorIdx = 4 ∨ (9 ≤ r.ctorIdx ∧ r.ctorIdx ≤ 13) ∨ r.ctorIdx = 15 := by
  cases r <;> decide

/-- The registers that no command writes, by their places. -/
theorem Reg.steady_iff (r : Reg) : Target.steady (.reg r) = true ↔
    r.ctorIdx ≠ 5 ∧ r.ctorIdx ≠ 6 ∧ r.ctorIdx ≠ 10 ∧ r.ctorIdx ≠ 13 := by
  cases r <;> decide

/-- The rows of 20_memory.md R71 are the admitted offsets. -/
theorem admitted_of_mappedOffset {p : Params} {off : Nat} (h4 : off % 4 = 0) (hm : mappedOffset p off) :
    ∃ t, admitted p off 4 = some t := by
  by_cases hreg : off < 0x40
  · obtain ⟨k, r, rfl, hr⟩ := exists_reg_of_lt h4 hreg
    exact ⟨_, admitted_ofIndex p hr⟩
  by_cases htree : 0x400 ≤ off ∧ off < 0x600
  · obtain ⟨hlo, hhi⟩ := htree
    obtain ⟨k, j, hj, rfl⟩ := exists_treeWord_of_lt h4 hlo hhi
    exact ⟨_, admitted_tree p k j hj⟩
  by_cases hoblk : inWindow oblkBase 0x100 off
  · exact ⟨_, admitted_oblk h4 hoblk⟩
  have hram : ramWindow p off := by
    rw [ramWindow_iff]
    simp only [inWindow, oblkBase] at hoblk
    unfold mappedOffset at hm
    omega
  exact ⟨_, admitted_ram h4 hram⟩

section Targets

variable {p : Params} {off : Nat} {t : Target} (h : admitted p off 4 = some t)

include h

/-- The targets whose writes a command in flight drops, by their offsets. -/
theorem busyWrite_eq_dropped_iff : t.busyWrite = .dropped ↔
    off = 0x00C ∨ off = 0x010 ∨ (0x024 ≤ off ∧ off ≤ 0x034) ∨ off = 0x03C ∨ (0x400 ≤ off ∧ off < 0x600) ∨
      (0x800 ≤ off ∧ off < 0x900) ∨ 0xA00 ≤ off := by
  obtain ⟨-, h4, ⟨r, rfl, hlt, hr⟩ | ⟨k, w, rfl, hoff⟩ | ⟨rfl, hw⟩ | ⟨rfl, hw⟩⟩ := admitted_cases h
  · have hk := Reg.eq_ctorIdx_of_ofIndex hr
    rw [Reg.busyWrite_eq_dropped_iff]
    omega
  · have hk := k.isLt
    have hw := w.isLt
    simp only [Target.busyWrite, true_iff]
    omega
  · simp only [inWindow, oblkBase] at hw
    simp only [Target.busyWrite, reduceCtorEq, false_iff]
    omega
  · rw [ramWindow_iff] at hw
    simp only [Target.busyWrite, true_iff]
    omega

/-- The targets whose reads are defined while a command is in flight, by their offsets. -/
theorem steady_iff : t.steady = true ↔ off < 0x040 ∧ off ≠ 0x014 ∧ off ≠ 0x018 ∧ off ≠ 0x028 ∧ off ≠ 0x034 := by
  obtain ⟨-, h4, ⟨r, rfl, hlt, hr⟩ | ⟨k, w, rfl, hoff⟩ | ⟨rfl, hw⟩ | ⟨rfl, hw⟩⟩ := admitted_cases h
  · have hk := Reg.eq_ctorIdx_of_ofIndex hr
    rw [Reg.steady_iff]
    omega
  · simp only [Target.steady, Bool.false_eq_true, false_iff]
    omega
  · simp only [inWindow, oblkBase] at hw
    simp only [Target.steady, Bool.false_eq_true, false_iff]
    omega
  · rw [ramWindow_iff] at hw
    simp only [Target.steady, Bool.false_eq_true, false_iff]
    omega

end Targets

/-! ### Writes while a command is in flight (70_reset_and_hazards.md R341, R350) -/

/-- A write that a command in flight drops sets OVERRUN and ERRI alone, whatever target it reaches. -/
theorem State.access_write_overrun {s : State} {off : Nat} {t : Target} (ht : admitted s.params off 4 = some t)
    (hd : t.busyWrite = .dropped) (hb : s.busy = true) (v : Word) :
    s.access off 4 (.write v) = { s with overrun := true, irqErri := true } := by
  rw [State.access_write ht]
  simp [State.busWrite, hb, hd, State.setOverrun]

/-- CTRL takes a write in every state (70_reset_and_hazards.md R350). -/
theorem State.access_write_ctrl (s : State) (v : Word) : s.access 0x008 4 (.write v) = s.writeCtrl v :=
  State.access_write_reg (k := 2) (r := .ctrl) rfl (.inr rfl) v

/-- Settles O59: CTRL's write in the three cases of bit 0 and BUSY. -/
theorem softResetRequest : Obligations.SoftResetRequest := by
  unfold Obligations.SoftResetRequest
  intro s v
  rw [State.access_write_ctrl, State.writeCtrl]
  refine ⟨fun hv hb => ?_, fun hv hb => ?_, fun hv => ?_⟩
  · rw [if_pos hv, if_neg (hb ▸ Bool.false_ne_true)]
  · rw [if_pos hv, if_pos hb]
  · exact if_neg (hv ▸ Bool.false_ne_true)

/-- Settles O56: CTRL's write, the writes that are ignored in every state, and the dropped ones. -/
theorem writesWhileBusy : Obligations.WritesWhileBusy := by
  unfold Obligations.WritesWhileBusy
  refine fun s off v hb h4 hm => ⟨?_, fun hi => ?_, fun hd => ?_⟩
  · rintro rfl
    rw [State.access_write_ctrl, State.writeCtrl, if_pos hb]
  · obtain ⟨-, ignored⟩ := accessesNotAdmitted s off 4 v
    exact ignored (by tauto)
  · obtain ⟨t, ht⟩ := admitted_of_mappedOffset h4 hm
    exact State.access_write_overrun ht ((busyWrite_eq_dropped_iff ht).2 (by omega)) hb v

/-- The fourth word of a tree ignores writes (20_memory.md R72). -/
theorem State.access_write_tree_reserved {s : State} (hb : s.busy = false) (k : BitVec 5) (v : Word) :
    s.access (0x400 + 16 * k.toNat + 4 * 3) 4 (.write v) = s := by
  rw [State.access_write_tree hb (by decide)]
  simp [State.setTree, setTreeWord, State.tree]

/-- Settles O57: with a command in flight the reserved words are among the dropped ones, with none they
store nothing. -/
theorem reservedWordsWhileBusy : Obligations.ReservedWordsWhileBusy := by
  unfold Obligations.ReservedWordsWhileBusy
  refine fun s off v hoff => ⟨fun hb => ?_, fun hb => ?_⟩
  · have hm : mappedOffset s.params off := by
      unfold mappedOffset
      omega
    obtain ⟨t, ht⟩ := admitted_of_mappedOffset (by omega) hm
    exact State.access_write_overrun ht ((busyWrite_eq_dropped_iff ht).2 (by omega)) hb v
  · rcases hoff with rfl | ⟨hlo, hhi, hword⟩
    · exact State.access_write_reg (k := 15) (r := .reserved) rfl (.inl hb) v
    · obtain ⟨k, j, hj, rfl⟩ := exists_treeWord_of_lt (by omega) hlo hhi
      obtain rfl : j = 3 := by omega
      exact State.access_write_tree_reserved hb k v

/-! ### Reads while a command is in flight (70_reset_and_hazards.md R351) -/

/-- STATUS is the only register that shows whether a command is in flight. -/
theorem State.readReg_withBusy (s : State) (b : Bool) {r : Reg} (hr : r ≠ .status) :
    ({ s with busy := b } : State).readReg r = s.readReg r := by
  cases r
  case status => contradiction
  all_goals rfl

/-- Settles O58: an admitted read is a reply, of the register itself where no command writes it and of the free word
elsewhere. -/
theorem readsWhileBusy : Obligations.ReadsWhileBusy := by
  unfold Obligations.ReadsWhileBusy
  intro s off h4 hm
  obtain ⟨t, ht⟩ := admitted_of_mappedOffset h4 hm
  refine ⟨⟨_, State.access_read ht⟩, fun hb => ⟨fun hlt h1 h5 h6 h10 h13 => ?_, ?_, fun hfree => ?_⟩⟩
  · obtain ⟨k, r, rfl, hr⟩ := exists_reg_of_lt h4 hlt
    have hsteady := (steady_iff (admitted_ofIndex s.params hr)).2 ⟨hlt, h5, h6, h10, h13⟩
    have hne : r ≠ .status := by
      rintro rfl
      exact h1 (congrArg (4 * ·) (Reg.eq_ctorIdx_of_ofIndex hr))
    rw [State.replies_access_read_reg hr (.inr hsteady), State.replies_access_read_reg hr (.inr hsteady),
      s.readReg_withBusy false hne]
  · rintro rfl
    exact State.replies_access_read_reg (k := 1) (r := .status) rfl (.inr rfl)
  · have hsteady : t.steady = false := by
      rw [← Bool.not_eq_true, steady_iff ht]
      omega
    rw [State.access_read ht]
    simp [State.busRead, hb, hsteady]

end Sys2Proof.Machine
